-- ==== Sys2Proof/Word.lean ====
section
/-! DEFINITION. The bit-vector types of the KWC wire codec core (R8): a byte, the 16-bit hash word, the 32-bit
register and command word. -/

namespace Sys2Proof

/-- An 8-bit unsigned value (R8). -/
abbrev Byte := BitVec 8

/-- The 16-bit word of the hash accumulator (R210). -/
abbrev Half := BitVec 16

/-- A 32-bit register, command word or descriptor entry (R41, R100, R110). -/
abbrev Word := BitVec 32

end Sys2Proof
end

