-- ==== Sys2Proof/Config.lean ====
section
/-! DEFINITION. What an implementation of the block fixes: the parameters of R6, the instance that `State.reset`
names, and the free value of a storage byte that nothing has written (R46). -/

namespace Sys2Proof

/-- The implementation parameters of R6. A state carries its own, so every statement about all states holds for
every value of them. They are constant for the life of an instance (R39). -/
structure Params where
  /-- `CAP`, the ring storage capacity in bytes (D3, OPEN). -/
  cap : Nat
  /-- `PARAM_MAX`, the most descriptor entries one command may carry (D4, OPEN). -/
  paramMax : Nat
  /-- `NEST_MAX`, the deepest BSC nesting (D5, OPEN). -/
  nestMax : Nat
  /-- `FEAT_UTF16`, the tag ST2 is enabled (D6, OPEN). -/
  featUtf16 : Bool
  /-- `FEAT_UTF32`, the tag ST4 is enabled (D6, OPEN). -/
  featUtf32 : Bool
  /-- `HASH_SEED`, the 16-bit seed of each message hash (R212, D7). -/
  hashSeed : Half
  /-- `HASH_MUL`, the multiplier of `Hash16` (R211, D7). -/
  hashMul : Half
  deriving DecidableEq, Repr

/-- The legal values of the parameters (R6, the table's third column). -/
abbrev Params.wf (p : Params) : Prop :=
  2 ≤ p.cap ∧ p.cap ≤ 2 ^ 32 - 1 ∧ 1 ≤ p.paramMax ∧ p.paramMax ≤ 2 ^ 24 ∧ p.nestMax ≤ 255 ∧
    p.hashMul.getLsbD 0 = true

/-- The instance that `State.reset` names. DESIGN CHOICE (log entry 1, unsafe): the spec leaves CAP, PARAM_MAX,
NEST_MAX and the features OPEN; these are the values of the spec's own worked examples (43_encoder.md's CAP = 32,
95_test_vectors.md's conventions). PRESUMED (log entry 2, unsafe): the seed and the multiplier are the spec's
defaults, which it marks as general knowledge (R211, R212). -/
def Config.params : Params where
  cap := 32
  paramMax := 16
  nestMax := 2
  featUtf16 := true
  featUtf32 := true
  hashSeed := 0xFFF1#16
  hashMul := 0xFFF1#16

/-- The value of the storage byte at a ring index that nothing has written since power-on: any value (R46, I4). It
has no body, so no proof can lean on what it is. DESIGN CHOICE (log entry 3, safe). -/
opaque Config.powerOnByte : Nat → Byte

end Sys2Proof
end

