-- ==== Sys2Proof/Syntax.lean ====
section
/-! DEFINITION. The syntax of the block: argument and value forms (R11), descriptor entries (R110), commands as the
host issues them (R100, R101), and `Instr`, one constructor per row of spec/opcode_table.json. -/

namespace Sys2Proof

/-- The word widths the document settles: 8, 16, 32 and 64 bits (R7, R8). -/
inductive Width where
  | w8 | w16 | w32 | w64
  deriving DecidableEq, Repr

/-- A width in bits. -/
abbrev Width.bits : Width → Nat
  | .w8 => 8 | .w16 => 16 | .w32 => 32 | .w64 => 64

/-- A width in bytes: the `W` and `E` of R115. -/
abbrev Width.bytes : Width → Nat
  | .w8 => 1 | .w16 => 2 | .w32 => 4 | .w64 => 8

/-- The varint widths: 16, 32 and 64 bits (R7). -/
inductive VWidth where
  | v16 | v32 | v64
  deriving DecidableEq, Repr

/-- The word width a varint packs: the `VW` of R115. -/
abbrev VWidth.width : VWidth → Width
  | .v16 => .w16 | .v32 => .w32 | .v64 => .w64

/-- `MAXB(W)`, the most bytes of a varint: 3, 5 or 10 (R7, 41_varint.md). -/
abbrev VWidth.maxBytes : VWidth → Nat
  | .v16 => 3 | .v32 => 5 | .v64 => 10

/-- The code-unit widths of `UNITS`: 16 and 32 bits (R11). -/
inductive UnitWidth where
  | u16 | u32
  deriving DecidableEq, Repr

/-- A code-unit width in bits. -/
abbrev UnitWidth.bits : UnitWidth → Nat
  | .u16 => 16 | .u32 => 32

/-- A code-unit width in bytes: the `U` of R115 for ST2 and ST4. -/
abbrev UnitWidth.bytes : UnitWidth → Nat
  | .u16 => 2 | .u32 => 4

/-- The OBJ length-prefix widths, `PW` = 0, 1, 2, 3 (R112). -/
inductive PrefixWidth where
  | p1 | p2 | p4 | p8
  deriving DecidableEq, Repr

/-- `P`, the prefix width in bytes (R112). -/
abbrev PrefixWidth.bytes : PrefixWidth → Nat
  | .p1 => 1 | .p2 => 2 | .p4 => 4 | .p8 => 8

/-- The forms an argument and a decoded value share (R11). -/
inductive Datum where
  /-- `WORD(w, v)`: a w-bit word. -/
  | word (w : Width) (v : BitVec w.bits)
  /-- `BYTES(bs)`: a list of bytes. -/
  | bytes (bs : List Byte)
  /-- `UNITS(u, us)`: a list of u-bit code units. -/
  | units (u : UnitWidth) (us : List (BitVec u.bits))
  /-- `ELEMS(e, es)`: a list of e-bit array elements. -/
  | elems (e : Width) (es : List (BitVec e.bits))
  deriving DecidableEq, Repr

/-- An argument slot of ENCODE (R11). -/
inductive Arg where
  /-- `ABSENT`: the document's null pointer. -/
  | absent
  | data (d : Datum)
  deriving DecidableEq, Repr

/-- A decoded value (R11, R328): the argument forms with `NIL` in place of `ABSENT`. -/
inductive Value where
  | nil
  | data (d : Datum)
  deriving DecidableEq, Repr

/-- A descriptor entry: TAG in bits 7:0, QUAL in bits 31:8 (R110). -/
abbrev Entry := Word

/-- The operand lanes of the command port (R101). Each lane has a fixed type; a command reads the lanes its row of
R101 names and no other (log entry 20). -/
structure Operands where
  /-- `DESC` of ENCODE and DECODE. -/
  desc : List Entry := []
  /-- `ARGS` of ENCODE. -/
  args : List Arg := []
  /-- `M` of BELL and ACK. -/
  m : Word := 0
  /-- `ADDR` of BELL and ACK. -/
  addr : List Byte := []
  /-- `S` of SET_CURSORS. -/
  s : Word := 0
  /-- `T` of SET_CURSORS. -/
  t : Word := 0
  /-- `IX` of PEEK. -/
  ix : Word := 0
  /-- `V` of WRITE_REG. -/
  v : Word := 0
  deriving DecidableEq, Repr

/-- A command as the host issues it: the command word and its operands (R100, R101). -/
structure Issue where
  word : Word
  lanes : Operands := {}
  deriving DecidableEq, Repr

/-- One constructor per row of spec/opcode_table.json: the twelve commands (R102) and the thirty-one descriptor
entries (R111). -/
inductive Instr where
  -- commands
  | nop
  | encode (desc : List Entry) (args : List Arg)
  | decode (desc : List Entry)
  | bell (m : Word) (addr : List Byte)
  | ack (m : Word) (addr : List Byte)
  | setCursors (s t : Word)
  | push (b : Byte)
  | pop
  | peek (ix : Word)
  | readReg (r : Byte)
  | writeReg (r : Byte) (v : Word)
  | softReset
  -- descriptor entries
  | nil
  | adr (maxlen : Nat)
  | str (maxlen : Nat)
  | st2 (maxlen : Nat)
  | st4 (maxlen : Nat)
  | si1
  | ui1
  | bol
  | si2
  | ui2
  | hlf
  | si4
  | ui4
  | flt
  | tms
  | si8
  | ui8
  | dbl
  | tmu
  | sv2
  | uv2
  | sv4
  | uv4
  | sv8
  | uv8
  | ar1 (count : Nat)
  | ar2 (count : Nat)
  | ar4 (count : Nat)
  | ar8 (count : Nat)
  | bsc (n : Nat)
  | obj (pw : PrefixWidth) (omax : Nat)
  deriving DecidableEq, Repr

end Sys2Proof
end

