-- ==== Sys2Proof/WellFormed.lean ====
section
/-! DEFINITION. When an instruction has an encoding: its qualifier fits its field (R110, R112). The operands of a
command have fixed types on the port (R101), so a command always has one. -/

namespace Sys2Proof

/-- A 24-bit qualifier: MAXLEN, COUNT and N lie in 0 .. 2^24 - 1 (R112). -/
abbrev qualFits (q : Nat) : Bool := decide (q < 2 ^ 24)

/-- `OMAX` is a 22-bit field (R112). -/
abbrev omaxFits (o : Nat) : Bool := decide (o < 2 ^ 22)

/-- The instruction's operands fit the fields of its encoding. -/
def Instr.wf : Instr → Bool
  | .nop | .encode _ _ | .decode _ | .bell _ _ | .ack _ _ | .setCursors _ _ | .push _ | .pop | .peek _
  | .readReg _ | .writeReg _ _ | .softReset => true
  | .adr q | .str q | .st2 q | .st4 q | .ar1 q | .ar2 q | .ar4 q | .ar8 q | .bsc q => qualFits q
  | .obj _ omax => omaxFits omax
  | .nil | .si1 | .ui1 | .bol | .si2 | .ui2 | .hlf | .si4 | .ui4 | .flt | .tms | .si8 | .ui8 | .dbl | .tmu
  | .sv2 | .uv2 | .sv4 | .uv4 | .sv8 | .uv8 => true

end Sys2Proof
end

