-- ==== Sys2Proof/Decode.lean ====
section
/-! DEFINITION. From bits to instructions and back: the command word (R100, R102, R103), the descriptor entry word
(R110-R114), the encoder written from the same tables, and the host's table-word reader. -/

namespace Sys2Proof

/-- Why a word is no instruction of the table. -/
inductive DecodeError where
  /-- An opcode of 0x0C..0xFF (R103, R409). -/
  | unknownOpcode (opc : Byte)
  /-- A tag of 31..255 (R113). -/
  | unknownTag (tag : Byte)
  deriving DecidableEq, Repr

/-- `OPC`, bits 7:0 of a command word (R100). -/
def opcOf (w : Word) : Byte := w.extractLsb' 0 8

/-- `IMM8`, bits 15:8 of a command word (R100). -/
def imm8Of (w : Word) : Byte := w.extractLsb' 8 8

/-- `TAG`, bits 7:0 of an entry (R110). -/
def tagOf (e : Entry) : Byte := e.extractLsb' 0 8

/-- `QUAL`, bits 31:8 of an entry, an unsigned 24-bit number (R112). -/
def qualOf (e : Entry) : Nat := (e.extractLsb' 8 24).toNat

/-- `PW`, bits 9:8 of an OBJ entry (R112). -/
def pwOf (e : Entry) : PrefixWidth :=
  match (e.extractLsb' 8 2).toNat with
  | 0 => .p1
  | 1 => .p2
  | 2 => .p4
  | _ => .p8

/-- `OMAX`, bits 31:10 of an OBJ entry, an unsigned 22-bit number (R112). -/
def omaxOf (e : Entry) : Nat := (e.extractLsb' 10 22).toNat

/-- The opcode map (R102). Bits 31:16 are ignored by every command, IMM8 by all but PUSH, READ_REG and WRITE_REG
(R103); the operands come from the lanes of R101. -/
def decodeCommand (c : Issue) : Except DecodeError Instr :=
  match (opcOf c.word).toNat with
  | 0x00 => .ok .nop
  | 0x01 => .ok (.encode c.lanes.desc c.lanes.args)
  | 0x02 => .ok (.decode c.lanes.desc)
  | 0x03 => .ok (.bell c.lanes.m c.lanes.addr)
  | 0x04 => .ok (.ack c.lanes.m c.lanes.addr)
  | 0x05 => .ok (.setCursors c.lanes.s c.lanes.t)
  | 0x06 => .ok (.push (imm8Of c.word))
  | 0x07 => .ok .pop
  | 0x08 => .ok (.peek c.lanes.ix)
  | 0x09 => .ok (.readReg (imm8Of c.word))
  | 0x0A => .ok (.writeReg (imm8Of c.word) c.lanes.v)
  | 0x0B => .ok .softReset
  | _ => .error (.unknownOpcode (opcOf c.word))

/-- The tag map (R111) with the qualifiers of R112. A tag without a qualifier ignores the QUAL bits (R114). -/
def decodeEntry (e : Entry) : Except DecodeError Instr :=
  match (tagOf e).toNat with
  | 0 => .ok .nil
  | 1 => .ok (.adr (qualOf e))
  | 2 => .ok (.str (qualOf e))
  | 3 => .ok (.st2 (qualOf e))
  | 4 => .ok (.st4 (qualOf e))
  | 5 => .ok .si1
  | 6 => .ok .ui1
  | 7 => .ok .bol
  | 8 => .ok .si2
  | 9 => .ok .ui2
  | 10 => .ok .hlf
  | 11 => .ok .si4
  | 12 => .ok .ui4
  | 13 => .ok .flt
  | 14 => .ok .tms
  | 15 => .ok .si8
  | 16 => .ok .ui8
  | 17 => .ok .dbl
  | 18 => .ok .tmu
  | 19 => .ok .sv2
  | 20 => .ok .uv2
  | 21 => .ok .sv4
  | 22 => .ok .uv4
  | 23 => .ok .sv8
  | 24 => .ok .uv8
  | 25 => .ok (.ar1 (qualOf e))
  | 26 => .ok (.ar2 (qualOf e))
  | 27 => .ok (.ar4 (qualOf e))
  | 28 => .ok (.ar8 (qualOf e))
  | 29 => .ok (.bsc (qualOf e))
  | 30 => .ok (.obj (pwOf e) (omaxOf e))
  | _ => .error (.unknownTag (tagOf e))

/-- The two places an instruction of the table stands: the command port and a descriptor. Their codes share the
numbers 0..11 (R102, R111), so a word alone does not say which table it is read by. -/
inductive Encoded where
  | command (c : Issue)
  | entry (e : Entry)
  deriving DecidableEq, Repr

/-- The decoder: each place's word by its own table. -/
def decode : Encoded → Except DecodeError Instr
  | .command c => decodeCommand c
  | .entry e => decodeEntry e

/-- A command word with opcode `opc` and immediate `imm`, its reserved bits zero (R100). -/
def commandWord (opc : Nat) (imm : Byte) : Word :=
  BitVec.ofNat 32 opc ||| (imm.setWidth 32 <<< 8)

/-- An entry word `TAG | QUAL << 8` (R110, R120). -/
def entryWord (tag qual : Nat) : Entry :=
  BitVec.ofNat 32 tag ||| (BitVec.ofNat 32 qual <<< 8)

/-- `PW` of a prefix width (R112). -/
def pwCode : PrefixWidth → Nat
  | .p1 => 0 | .p2 => 1 | .p4 => 2 | .p8 => 3

/-- A command without operands beside its word. -/
def plainCommand (opc : Nat) : Encoded := .command { word := commandWord opc 0 }

/-- The encoder: the word of an instruction and its operands, by the tables of R102 and R111. The OBJ entry is
`OMAX << 10 | PW << 8 | 0x1E` (R280). -/
def encode : Instr → Encoded
  | .nop => plainCommand 0x00
  | .encode desc args => .command { word := commandWord 0x01 0, lanes := { desc := desc, args := args } }
  | .decode desc => .command { word := commandWord 0x02 0, lanes := { desc := desc } }
  | .bell m addr => .command { word := commandWord 0x03 0, lanes := { m := m, addr := addr } }
  | .ack m addr => .command { word := commandWord 0x04 0, lanes := { m := m, addr := addr } }
  | .setCursors s t => .command { word := commandWord 0x05 0, lanes := { s := s, t := t } }
  | .push b => .command { word := commandWord 0x06 b }
  | .pop => plainCommand 0x07
  | .peek ix => .command { word := commandWord 0x08 0, lanes := { ix := ix } }
  | .readReg r => .command { word := commandWord 0x09 r }
  | .writeReg r v => .command { word := commandWord 0x0A r, lanes := { v := v } }
  | .softReset => plainCommand 0x0B
  | .nil => .entry (entryWord 0 0)
  | .adr q => .entry (entryWord 1 q)
  | .str q => .entry (entryWord 2 q)
  | .st2 q => .entry (entryWord 3 q)
  | .st4 q => .entry (entryWord 4 q)
  | .si1 => .entry (entryWord 5 0)
  | .ui1 => .entry (entryWord 6 0)
  | .bol => .entry (entryWord 7 0)
  | .si2 => .entry (entryWord 8 0)
  | .ui2 => .entry (entryWord 9 0)
  | .hlf => .entry (entryWord 10 0)
  | .si4 => .entry (entryWord 11 0)
  | .ui4 => .entry (entryWord 12 0)
  | .flt => .entry (entryWord 13 0)
  | .tms => .entry (entryWord 14 0)
  | .si8 => .entry (entryWord 15 0)
  | .ui8 => .entry (entryWord 16 0)
  | .dbl => .entry (entryWord 17 0)
  | .tmu => .entry (entryWord 18 0)
  | .sv2 => .entry (entryWord 19 0)
  | .uv2 => .entry (entryWord 20 0)
  | .sv4 => .entry (entryWord 21 0)
  | .uv4 => .entry (entryWord 22 0)
  | .sv8 => .entry (entryWord 23 0)
  | .uv8 => .entry (entryWord 24 0)
  | .ar1 q => .entry (entryWord 25 q)
  | .ar2 q => .entry (entryWord 26 q)
  | .ar4 q => .entry (entryWord 27 q)
  | .ar8 q => .entry (entryWord 28 q)
  | .bsc q => .entry (entryWord 29 q)
  | .obj pw omax => .entry (entryWord 30 (pwCode pw + 4 * omax))

/-- The instruction the decoder reads from a word of spec/opcode_table.json: the command table first, and for a code
that is no opcode the entry table (log entry 7: both tables number their rows in bits 7:0, so a word of 0..11 is read
as the command). The operand lanes hold zeros. -/
def decodeTableWord (nbits w : Nat) : Option Instr :=
  let word : Word := BitVec.ofNat 32 (w % 2 ^ nbits)
  match decodeCommand { word := word } with
  | .ok i => some i
  | .error _ =>
    match decodeEntry word with
    | .ok i => some i
    | .error _ => none

end Sys2Proof
end

