-- ==== Sys2Proof/Machine/State.lean ====
section
/-! DEFINITION. The architectural state of one instance (10_state.md), the transient state of a command in progress
(R36, R37), the response (R400), the stops, and the state after power-on reset (R46, R470). -/

namespace Sys2Proof.Machine

/-- The decoder's sixteen states, in the document's listing order (R34, R311). -/
inductive DState where
  | address | args | utf8 | utf16 | utf32 | varint | object8 | object16 | object32 | object64
  | hash | error | disconnected | ack | locked | pod
  deriving DecidableEq, Repr

/-- The error kinds (R430). `disconnected` and `room` are reserved; no command raises them (R432). -/
inductive ErrKind where
  | none | bufferOverflow | bufferUnderflow | varintOverflow | invalidHash | invalidType | invalidArgument
  | tooManyParams | stringOverflow | arrayOverflow | invalidOperation | utf16Disabled | utf32Disabled
  | locked | disconnected | room
  deriving DecidableEq, Repr

/-- The result a command returns beside its status (R400). -/
inductive Result where
  | none
  /-- DECODE: the value list VALS (R328). -/
  | values (vals : List Value)
  /-- POP and PEEK: the byte. -/
  | byte (b : Byte)
  /-- READ_REG: the 32-bit register value. -/
  | word (w : Word)
  deriving DecidableEq, Repr

/-- A response: an 8-bit status and a result (R400). -/
structure Response where
  status : ErrKind
  result : Result
  deriving DecidableEq, Repr

/-- Which engine a message in progress belongs to: ENCODE's serializer or DECODE's deserializer. -/
inductive Dir where
  | enc | dec
  deriving DecidableEq, Repr

/-- An open inner message (R240): its accumulator `HS[d]`, the end of its range of entries, and the index of its BSC
entry, which its trailer reports (R237, R325). -/
structure Level where
  hash : Half
  hi : Nat
  index : Nat
  deriving DecidableEq, Repr

/-- The transient state of an ENCODE or DECODE in progress (R36, R37). DEPTH is the length of `inner`. -/
structure Message where
  dir : Dir
  /-- `DESC`, captured whole when the command is issued (R85). -/
  desc : List Entry
  /-- `ARGS`, captured whole when the command is issued (R85); empty in a DECODE. -/
  args : List Arg
  /-- `VALS` of a DECODE (R328); empty in an ENCODE. -/
  vals : List Value
  /-- The descriptor index `i` (R36). -/
  i : Nat
  /-- `WCUR` in an ENCODE, `RCUR` in a DECODE (R37): a ring index below CAP. -/
  cur : Nat
  /-- `HS[0]`, the message's own accumulator (R37). -/
  hash0 : Half
  /-- The open inner messages, innermost first: `HS[DEPTH], …, HS[1]` (R37). -/
  inner : List Level
  deriving DecidableEq, Repr

/-- BUF as the bytes that have been written: addresses strictly rising, nothing listed that was never written
(R32). -/
abbrev Memory := List Host.Cell

/-- The state of one KWC instance (R30). -/
structure State where
  /-- The parameters and the read-only parameter registers that report them (R6, R39). -/
  params : Params
  /-- `BUF` (R32). -/
  buf : Memory
  /-- `START` (R31). -/
  start : Word
  /-- `STOP` (R31). -/
  stop : Word
  /-- `HASH` (R33). -/
  hash : Half
  /-- `DSTATE` (R34). -/
  dstate : DState
  /-- `CONFIG`: DMODE in bit 0, LOCK in bit 1 (R35). -/
  config : Word
  /-- `ERR_KIND` (R38). -/
  errKind : ErrKind
  /-- `ERR_INDEX` (R38). -/
  errIndex : Word
  /-- `ERR_ADDR` (R38). -/
  errAddr : Word
  /-- The transient state of a command in progress; `none` between commands (R37, log entry 4). -/
  msg : Option Message
  /-- The model's field: the commands the host has issued and the block has not taken, oldest first (R410, log
  entry 5). -/
  port : List Issue
  /-- The model's field: the response of the last command that ended (R400, log entry 8). -/
  response : Option Response
  /-- The model's field: the DSTATE values the last DECODE passed through, oldest first (R310, log entry 8). -/
  trace : List DState
  deriving DecidableEq, Repr

/-- How a step stops with a fault. -/
inductive Fault where
  /-- A byte step at a ring index of CAP or above, which does not exist (R70, R76). Raised by the commands that touch
  BUF when a cursor lies outside the ring; no run reaches such a state (R45). Safe (log entry 9). -/
  | outsideRing
  deriving DecidableEq, Repr

/-- How a step stops with a refusal. -/
inductive Refusal where
  /-- The instruction of this mnemonic has no meaning in the model yet. Safe. -/
  | notModelled (mnemonic : String)
  /-- A descriptor entry with no ENCODE or DECODE in progress: the spec gives an entry no effect outside those two
  commands (R115, R231, R323). Raised by the entries' meanings. Safe (log entry 10). -/
  | noMessageOpen
  /-- A command where a descriptor entry is due: no entry word decodes to a command, so the dispatch multiplexer never
  meets one (R111). Raised by `mux`. Safe (log entry 10). -/
  | notAnEntry
  deriving DecidableEq, Repr

/-- The outcome of an instruction or a step. -/
abbrev Out := Host.Outcome State Fault Refusal

/-- Power-on reset of an instance with parameters `p` (R46, R470). No storage byte has been written (log entry 3); the
model's own fields are empty (log entry 19). -/
def State.powerOn (p : Params) : State where
  params := p
  buf := []
  start := 0
  stop := 0
  hash := p.hashSeed
  dstate := .args
  config := 0
  errKind := .none
  errIndex := 0
  errAddr := 0
  msg := none
  port := []
  response := none
  trace := []

/-- The machine after power-on reset, of the instance that `Config.params` names (log entry 1). -/
def State.reset : State := State.powerOn Config.params

end Sys2Proof.Machine
end

