-- ==== Sys2Proof/Machine/Ring.lean ====
section
/-! DEFINITION. Ring-buffer pointer and wraparound logic (40_ringbuffer.md), on naturals. -/

namespace Sys2Proof.Machine

/-- `len(s, t)`, the occupied length `(t - s) mod CAP` (R150). -/
def ringLen (cap s t : Nat) : Nat := if s ≤ t then t - s else t + cap - s

/-- `space(s, t) = CAP - 1 - len(s, t)` (R151). -/
def ringSpace (cap s t : Nat) : Nat := cap - 1 - ringLen cap s t

/-- `adv(c)`, advance with wrap (R152). -/
def adv (cap c : Nat) : Nat := if c + 1 = cap then 0 else c + 1

/-- `adv` applied k times (R152). -/
def advN (cap : Nat) : Nat → Nat → Nat
  | 0, c => c
  | k + 1, c => advN cap k (adv cap c)

end Sys2Proof.Machine
end

