-- ==== Sys2Proof/Machine/Operands.lean ====
section
/-! DEFINITION. Operand forms: little-endian assembly (R9), strings that end at their first zero (R248), zero padding
(R244), and the argument form each tag needs (R235). -/

namespace Sys2Proof.Machine

/-- `le_n(v)`: the n bytes of v, lowest first (R9). -/
def le : Nat → Nat → List Byte
  | 0, _ => []
  | n + 1, v => BitVec.ofNat 8 v :: le n (v / 256)

/-- `unle(bs)`: the number a list of bytes assembles to, lowest first (R9). -/
def unle : List Byte → Nat
  | [] => 0
  | b :: bs => b.toNat + 256 * unle bs

/-- `until_nul(xs)`: the elements before the first zero, or all of them (R248). -/
def untilNul {w : Nat} (xs : List (BitVec w)) : List (BitVec w) := xs.takeWhile (fun x => x != 0#w)

/-- A string of at most `n` bytes filled up with zero bytes to exactly `n` (R244, R390). -/
def padTo (n : Nat) (s : List Byte) : List Byte := s ++ List.replicate (n - s.length) 0#8

/-- The word of an argument of form `WORD(w, v)`; any other form is none (R235). -/
def argWord (w : Width) : Arg → Option (BitVec w.bits)
  | .data (.word w' v) => if h : w' = w then some (v.cast (by rw [h])) else none
  | _ => none

/-- The bytes of an argument of form `BYTES(bs)`; any other form is none (R235). -/
def argBytes : Arg → Option (List Byte)
  | .data (.bytes bs) => some bs
  | _ => none

/-- The code units of an argument of form `UNITS(u, us)`; any other form is none (R235). -/
def argUnits (u : UnitWidth) : Arg → Option (List (BitVec u.bits))
  | .data (.units u' us) => if h : u' = u then some (us.map (BitVec.cast (by rw [h]))) else none
  | _ => none

/-- The elements of an argument of form `ELEMS(e, es)`; any other form is none (R235). -/
def argElems (e : Width) : Arg → Option (List (BitVec e.bits))
  | .data (.elems e' es) => if h : e' = e then some (es.map (BitVec.cast (by rw [h]))) else none
  | _ => none

end Sys2Proof.Machine
end

