-- ==== Sys2Proof/Machine/Flags.lean ====
section
/-! DEFINITION. Status codes and bit fields of the registers. The block has no condition flags (R43); what a command
reports is its response and the error record. -/

namespace Sys2Proof.Machine

/-- The 8-bit code of an error kind (R430). -/
def ErrKind.code : ErrKind → Byte
  | .none => 0
  | .bufferOverflow => 1
  | .bufferUnderflow => 2
  | .varintOverflow => 3
  | .invalidHash => 4
  | .invalidType => 5
  | .invalidArgument => 6
  | .tooManyParams => 7
  | .stringOverflow => 8
  | .arrayOverflow => 9
  | .invalidOperation => 10
  | .utf16Disabled => 11
  | .utf32Disabled => 12
  | .locked => 13
  | .disconnected => 14
  | .room => 15

/-- The 4-bit code of a decoder state (R34). -/
def DState.code : DState → BitVec 4
  | .address => 0
  | .args => 1
  | .utf8 => 2
  | .utf16 => 3
  | .utf32 => 4
  | .varint => 5
  | .object8 => 6
  | .object16 => 7
  | .object32 => 8
  | .object64 => 9
  | .hash => 10
  | .error => 11
  | .disconnected => 12
  | .ack => 13
  | .locked => 14
  | .pod => 15

/-- The bits of CONFIG that exist: DMODE and LOCK (R35). -/
def configMask : Word := 3

/-- `CONFIG.DMODE`, bit 0 (R35). -/
def State.dmode (s : State) : Bool := s.config.getLsbD 0

/-- `CONFIG.LOCK`, bit 1 (R35). -/
def State.lock (s : State) : Bool := s.config.getLsbD 1

/-- `initial(DMODE)`: Address when DMODE = 1, Args when DMODE = 0 (R313). -/
def initialState (dmode : Bool) : DState := if dmode then .address else .args

/-- FEATURES: bit 0 is FEAT_UTF16, bit 1 is FEAT_UTF32 (R39). -/
def featuresWord (p : Params) : Word :=
  BitVec.ofNat 32 ((if p.featUtf16 then 1 else 0) + (if p.featUtf32 then 2 else 0))

end Sys2Proof.Machine
end

