-- ==== Sys2Proof/Machine/Hash.lean ====
section
/-! DEFINITION. The rolling-hash-16 accumulator (42_hash.md). -/

namespace Sys2Proof.Machine

/-- `Hash16(b, h) = (h + zext_16(b) * HASH_MUL) mod 2^16` (R211). -/
def hash16 (mul : Half) (b : Byte) (h : Half) : Half := h + b.setWidth 16 * mul

/-- A run of folds, oldest byte first (R210, R217). -/
def hashBytes (mul : Half) (seed : Half) (bs : List Byte) : Half := bs.foldl (fun h b => hash16 mul b h) seed

/-- Fold a byte into one open inner accumulator (R214). -/
def Level.fold (mul : Half) (b : Byte) (l : Level) : Level := { l with hash := hash16 mul b l.hash }

/-- A body byte folds into every open accumulator `HS[0 .. DEPTH]` (R214, R232, R321). -/
def Message.foldBody (mul : Half) (b : Byte) (m : Message) : Message :=
  { m with hash0 := hash16 mul b m.hash0, inner := m.inner.map (Level.fold mul b) }

/-- A trailer byte folds into `HS[0 .. DEPTH - 1]` only; at level 0 into nothing (R214). -/
def Message.foldTrailer (mul : Half) (b : Byte) (m : Message) : Message :=
  match m.inner with
  | [] => m
  | l :: outer => { m with hash0 := hash16 mul b m.hash0, inner := l :: outer.map (Level.fold mul b) }

/-- `HS[DEPTH]`, the accumulator of the innermost open message (R215). -/
def Message.top (m : Message) : Half :=
  match m.inner with
  | [] => m.hash0
  | l :: _ => l.hash

/-- The trailer's low and high byte (R215). -/
def trailerLo (h : Half) : Byte := h.setWidth 8
def trailerHi (h : Half) : Byte := (h >>> 8).setWidth 8

/-- The word two trailer bytes make, `lo | (hi << 8)` (R216). -/
def trailerWord (lo hi : Byte) : Half := lo.setWidth 16 ||| (hi.setWidth 16 <<< 8)

end Sys2Proof.Machine
end

