-- ==== Sys2Proof/Machine/Ops.lean ====
section
/-! DEFINITION. The named operations over storage, cursors, the error record and a message in progress. -/

namespace Sys2Proof.Machine

/-! ## Storage (R32, R70, R72) -/

/-- The written byte at an address; `none` where nothing has been written: what an unlisted address reads as. -/
def memRead : Memory → Nat → Option Byte
  | [], _ => none
  | (a, b) :: m, c => if a = c then some b else memRead m c

/-- Write one byte, keeping the addresses strictly rising. -/
def memWrite : Memory → Nat → Byte → Memory
  | [], c, b => [(c, b)]
  | (a, x) :: m, c, b =>
    if c < a then (c, b) :: (a, x) :: m
    else if a = c then (a, b) :: m
    else (a, x) :: memWrite m c b

/-- The canonical form of a memory: addresses strictly rising. An unlisted address reads as no value, so no entry can
equal what an unlisted address reads as. -/
def memWf (m : Memory) : Bool := decide (m.Pairwise (fun x y => x.1 < y.1))

/-- `BufRead(c)` (R10): the byte last written there, or the free value of a byte nothing has written (R32, R46). -/
def State.bufRead (s : State) (c : Nat) : Byte := (memRead s.buf c).getD (Config.powerOnByte c)

/-- `BufWrite(c, b)` (R10). -/
def State.bufWrite (s : State) (c : Nat) (b : Byte) : State := { s with buf := memWrite s.buf c b }

/-! ## Cursors -/

/-- `len(START, STOP)` (R150). -/
def State.len (s : State) : Nat := ringLen s.params.cap s.start.toNat s.stop.toNat

/-- `space(START, STOP)` (R151). -/
def State.space (s : State) : Nat := ringSpace s.params.cap s.start.toNat s.stop.toNat

/-- Both cursors name storage that exists (R31, R45). -/
def State.cursorsInRing (s : State) : Bool :=
  decide (s.start.toNat < s.params.cap) && decide (s.stop.toNat < s.params.cap)

/-- Go on where every cursor lies in the ring; a byte step elsewhere would touch storage that does not exist (R76, log
entry 9). -/
def onRing (ok : Bool) (k : Out) : Out := if ok then k else .fault .outsideRing

/-- The n bytes at successive ring indices from `c` (R159). Reads have no side effects (R75). -/
def State.ringBytes (s : State) : Nat → Nat → List Byte
  | 0, _ => []
  | n + 1, c => s.bufRead c :: s.ringBytes n (adv s.params.cap c)

/-! ## Responses and errors (R400, R440) -/

/-- End a command with a response, leaving the error record alone (R443). -/
def State.respond (s : State) (status : ErrKind) (result : Result) : State :=
  { s with response := some { status := status, result := result } }

/-- Write the error record (R38, R440). -/
def State.record (s : State) (k : ErrKind) (index addr : Nat) : State :=
  { s with errKind := k, errIndex := BitVec.ofNat 32 index, errAddr := BitVec.ofNat 32 addr }

/-- `raise KIND(index, addr)` (R10, R440): TAKING AN EXCEPTION on this hardware. The error record is written, the
command ends, and the response is the kind with no result. There is no handler and no return from one: the error goes
back to the host at once (R445, R446). -/
def State.raise (s : State) (k : ErrKind) (index addr : Nat) : State :=
  (s.record k index addr).respond k .none

/-- A command of R440 that succeeds writes the record `(NONE, 0, 0)` and responds NONE. -/
def State.complete (s : State) (result : Result) : State :=
  (s.record .none 0 0).respond .none result

/-- `DSTATE <- d` inside a DECODE: the new state is also the next of the command's trace (R310). -/
def State.enter (s : State) (d : DState) : State := { s with dstate := d, trace := s.trace ++ [d] }

/-! ## A message in progress -/

/-- The block inside an ENCODE or DECODE: the registers and the transient state. -/
structure Active where
  st : State
  msg : Message
  deriving DecidableEq, Repr

/-- The end of the range that holds entry `i` (`hi` of R231 and R323). -/
def Message.hi (m : Message) : Nat :=
  match m.inner with
  | [] => m.desc.length
  | l :: _ => l.hi

/-- The index a trailer reports (R237, R325): |DESC| at level 0, the BSC's own index inside. -/
def Message.trailerIndex (m : Message) : Nat :=
  match m.inner with
  | [] => m.desc.length
  | l :: _ => l.index

/-- The entry `enc_range` and `dec_range` take next, or none at the end of the range (R231, R323). -/
def Message.nextEntry (m : Message) : Option Entry := if m.i < m.hi then m.desc[m.i]? else none

/-- `room = space(START, WCUR)` (R155, R233). -/
def Active.room (a : Active) : Nat := ringSpace a.st.params.cap a.st.start.toNat a.msg.cur

/-- `avail = len(RCUR, STOP)` (R156, R322). -/
def Active.avail (a : Active) : Nat := ringLen a.st.params.cap a.msg.cur a.st.stop.toNat

/-- The bytes from RCUR up to STOP. -/
def Active.available (a : Active) : List Byte := a.st.ringBytes a.avail a.msg.cur

/-- The private cursor advances with wrap (R152). -/
def Message.advance (cap : Nat) (m : Message) : Message := { m with cur := adv cap m.cur }

/-- `emit(b)` (R232): write at WCUR, fold into every open level, advance. -/
def Active.emit (a : Active) (b : Byte) : Active where
  st := a.st.bufWrite a.msg.cur b
  msg := (a.msg.foldBody a.st.params.hashMul b).advance a.st.params.cap

/-- `emit_trailer(b)` (R232): the same step, folding into the outer levels only. -/
def Active.emitTrailer (a : Active) (b : Byte) : Active where
  st := a.st.bufWrite a.msg.cur b
  msg := (a.msg.foldTrailer a.st.params.hashMul b).advance a.st.params.cap

/-- A run of `emit` steps (R159). -/
def Active.emitBytes (a : Active) : List Byte → Active
  | [] => a
  | b :: bs => (a.emit b).emitBytes bs

/-- `consume()` (R321) without the byte it returns: fold the byte at RCUR into every open level, advance. -/
def Active.consume (a : Active) : Active :=
  { a with msg := (a.msg.foldBody a.st.params.hashMul (a.st.bufRead a.msg.cur)).advance a.st.params.cap }

/-- `consume_trailer()` (R321): the same step, folding into the outer levels only. -/
def Active.consumeTrailer (a : Active) : Active :=
  { a with msg := (a.msg.foldTrailer a.st.params.hashMul (a.st.bufRead a.msg.cur)).advance a.st.params.cap }

/-- `consume_n(k)` (R321) without the bytes it returns. -/
def Active.consumeN : Nat → Active → Active
  | 0, a => a
  | k + 1, a => Active.consumeN k a.consume

/-- `DSTATE <- d` with a message open. -/
def Active.enter (a : Active) (d : DState) : Active := { a with st := a.st.enter d }

/-- The message stays open: its transient state goes back into the state. -/
def Active.keep (a : Active) : State := { a.st with msg := some a.msg }

/-- A `raise` after seeding: HASH takes HS[0] as it stands and the transient state ends. ENCODE leaves STOP at its last
commit (R239); DECODE goes to Error and leaves START (R327). -/
def Active.fail (a : Active) (k : ErrKind) (index addr : Nat) : State :=
  let s := { a.st with hash := a.msg.hash0, msg := none }
  match a.msg.dir with
  | .enc => s.raise k index addr
  | .dec => (s.enter .error).raise k index addr

/-- ENCODE's success, after the level-0 trailer (R238). STOP has been committed by the trailer. -/
def Active.finishEnc (a : Active) : State :=
  ({ a.st with hash := a.msg.hash0, msg := none }).complete .none

/-- DECODE's success, after the level-0 trailer matched (R326). -/
def Active.finishDec (a : Active) : State :=
  (({ a.st with start := BitVec.ofNat 32 a.msg.cur, hash := a.msg.hash0, msg := none }).enter
    (initialState a.st.dmode)).complete (.values a.msg.vals)

/-- `STOP <- WCUR`, the serializer's commit (R236). -/
def Active.commitStop (a : Active) : Active :=
  { a with st := { a.st with stop := BitVec.ofNat 32 a.msg.cur } }

/-- DEPTH <- DEPTH - 1: the innermost message is closed (R240, R330). -/
def Active.pop (a : Active) : Active := { a with msg := { a.msg with inner := a.msg.inner.tail } }

/-- Close the innermost open message with its trailer in an ENCODE (R237): both bytes or none. -/
def Active.closeEnc (a : Active) : State :=
  if a.room < 2 then a.fail .bufferOverflow a.msg.trailerIndex a.msg.cur
  else
    let h := a.msg.top
    let c := ((a.emitTrailer (trailerLo h)).emitTrailer (trailerHi h)).commitStop
    match a.msg.inner with
    | [] => c.finishEnc
    | _ :: _ => c.pop.keep

/-- Verify and close the innermost open message in a DECODE (R325). The address of INVALID_HASH is the position of the
trailer's low byte. -/
def Active.closeDec (a : Active) : State :=
  let v := a.enter .hash
  if v.avail < 2 then v.fail .bufferUnderflow a.msg.trailerIndex a.msg.cur
  else
    let lo := v.st.bufRead v.msg.cur
    let v1 := v.consumeTrailer
    let hi := v1.st.bufRead v1.msg.cur
    let v2 := v1.consumeTrailer
    if trailerWord lo hi ≠ a.msg.top then v2.fail .invalidHash a.msg.trailerIndex a.msg.cur
    else
      match a.msg.inner with
      | [] => v2.finishDec
      | _ :: _ => (v2.pop.enter .args).keep

/-- The end of a range: the message open at the current DEPTH is closed (R237, R325). -/
def Active.close (a : Active) : State :=
  match a.msg.dir with
  | .enc => a.closeEnc
  | .dec => a.closeDec

end Sys2Proof.Machine
end

