-- ==== Sys2Proof/Machine/Varint.lean ====
section
/-! DEFINITION. The varint codec: the zigzag transform and 7-bit groups whose last byte carries the stop bit
(41_varint.md). Pure functions; the byte steps and the room checks belong to the engines. -/

namespace Sys2Proof.Machine

/-- `zz_enc_W(n) = (n << 1) ^ (n >>s (W - 1))` (R180). -/
def zzEnc {w : Nat} (n : BitVec w) : BitVec w := (n <<< 1) ^^^ (n.sshiftRight (w - 1))

/-- `zz_dec_W(u) = (u >>u 1) ^ (0 - (u & 1))` (R181). -/
def zzDec {w : Nat} (u : BitVec w) : BitVec w := (u >>> 1) ^^^ (0#w - (u &&& 1#w))

/-- The loop of `pack_W` (R182) with `left` bytes still allowed. Only a 64-bit varint reaches its last allowed byte
with the value not run out, and that tenth byte is the remaining value whole, with no stop bit (R183). -/
def packFrom (vw : VWidth) : Nat → BitVec vw.width.bits → List Byte
  | 0, _ => []
  | left + 1, u =>
    if vw = .v64 ∧ left = 0 then [u.setWidth 8]
    else
      let g : Byte := u.setWidth 8 &&& 0x7F#8
      if u >>> 7 = 0 then [g ||| 0x80#8] else g :: packFrom vw left (u >>> 7)

/-- `pack_W(u)` (R182, R183). -/
def pack (vw : VWidth) (u : BitVec vw.width.bits) : List Byte := packFrom vw vw.maxBytes u

/-- What `unpack_W` ends with: a value and the bytes it took, or an error with the offset of the byte at fault and the
bytes read before the error. -/
inductive Unpacked where
  | value (v : Nat) (used : Nat)
  | fail (k : ErrKind) (at_ used : Nat)
  deriving DecidableEq, Repr

/-- The loop of `unpack_W` (R185, R186) after `done` bytes that gave `v`, on the bytes still available. Shifts and the
comparison with `2^W` are on naturals. -/
def unpackFrom (vw : VWidth) : Nat → Nat → List Byte → Unpacked
  | done, _, [] => .fail .bufferUnderflow done done
  | done, v, b :: rest =>
    if vw = .v64 ∧ done = 9 then
      if b > 1 then .fail .varintOverflow done (done + 1) else .value (v ||| (b.toNat <<< 63)) (done + 1)
    else
      let g := (b &&& 0x7F#8).toNat <<< (7 * done)
      if g ≥ 2 ^ vw.width.bits then .fail .varintOverflow done (done + 1)
      else if b &&& 0x80#8 ≠ 0 then .value (v ||| g) (done + 1)
      else if done + 1 = vw.maxBytes then .fail .varintOverflow done (done + 1)
      else unpackFrom vw (done + 1) (v ||| g) rest

/-- `unpack_W` (R185) on the bytes available to it. -/
def unpack (vw : VWidth) (bs : List Byte) : Unpacked := unpackFrom vw 0 0 bs

end Sys2Proof.Machine
end

