-- ==== Sys2Proof/Machine/Decoder.lean ====
section
/-! DEFINITION. The deserializer's arms by tag class (44_decoder.md section 3). An arm is a function of the bytes from
RCUR up to STOP: it says how many of them it consumes and ends in a value or an error (log entry 14). The engine
consumes those bytes one by one, folding each. -/

namespace Sys2Proof.Machine

/-- What an arm ends with: a value and the bytes consumed, or an error, the offset of the address it reports from the
field's start, and the bytes consumed before it. -/
inductive Parsed where
  | value (v : Value) (used : Nat)
  | fail (k : ErrKind) (offset used : Nat)
  deriving DecidableEq, Repr

/-- NIL reads nothing (R331). -/
def decNil (_ : List Byte) : Parsed := .value .nil 0

/-- `arm_scalar(W)` (R332). -/
def decScalar (w : Width) (bs : List Byte) : Parsed :=
  if bs.length < w.bytes then .fail .bufferUnderflow 0 0
  else .value (.data (.word w (BitVec.ofNat w.bits (unle (bs.take w.bytes))))) w.bytes

/-- `arm_varint(VW, signed)` (R333, R189). -/
def decVarint (vw : VWidth) (signed : Bool) (bs : List Byte) : Parsed :=
  match unpack vw bs with
  | .fail k offset used => .fail k offset used
  | .value v used =>
    let u := BitVec.ofNat vw.width.bits v
    .value (.data (.word vw.width (if signed then zzDec u else u))) used

/-- `arm_adr(MAXLEN)` (R334): all MAXLEN bytes are consumed, the value ends before the first zero. -/
def decAdr (maxlen : Nat) (bs : List Byte) : Parsed :=
  if bs.length < maxlen then .fail .bufferUnderflow 0 0
  else .value (.data (.bytes (untilNul (bs.take maxlen)))) maxlen

/-- The loop of `arm_tstr(U, MAXLEN)` (R335) with `left` units still allowed, after `used` bytes that gave the units
`out`. The outcome is the units, or an error at RCUR. -/
def tstrFrom (u : Nat) : Nat → Nat → List Nat → List Byte → Except ErrKind (List Nat) × Nat
  | 0, used, _, _ => (.error .stringOverflow, used)
  | left + 1, used, out, bs =>
    if bs.length < u then (.error .bufferUnderflow, used)
    else
      let c := unle (bs.take u)
      if c = 0 then (.ok out, used + u)
      else tstrFrom u left (used + u) (out ++ [c]) (bs.drop u)

/-- Make the outcome of a string loop an arm's outcome. -/
def tstrParsed (datum : List Nat → Datum) (r : Except ErrKind (List Nat) × Nat) : Parsed :=
  match r.1 with
  | .ok us => .value (.data (datum us)) r.2
  | .error k => .fail k r.2 r.2

/-- STR: `arm_tstr` with U = 1 (R335). -/
def decStr (maxlen : Nat) (bs : List Byte) : Parsed :=
  tstrParsed (fun us => .bytes (us.map (BitVec.ofNat 8))) (tstrFrom 1 maxlen 0 [] bs)

/-- ST2 and ST4: `arm_tstr` with U = 2 and 4 (R335). -/
def decUnits (u : UnitWidth) (maxlen : Nat) (bs : List Byte) : Parsed :=
  tstrParsed (fun us => .units u (us.map (BitVec.ofNat u.bits))) (tstrFrom u.bytes maxlen 0 [] bs)

/-- `[unle(consume_n(E)) for k = 1 .. COUNT]` (R336). -/
def elemsFrom (e : Width) : Nat → List Byte → List (BitVec e.bits)
  | 0, _ => []
  | count + 1, bs => BitVec.ofNat e.bits (unle (bs.take e.bytes)) :: elemsFrom e count (bs.drop e.bytes)

/-- `arm_array(E, COUNT)` (R336). -/
def decArray (e : Width) (count : Nat) (bs : List Byte) : Parsed :=
  if bs.length < e.bytes * count then .fail .bufferUnderflow 0 0
  else .value (.data (.elems e (elemsFrom e count bs))) (e.bytes * count)

/-- `arm_obj(P, OMAX)` (R337): the value keeps the prefix; ARRAY_OVERFLOW reports the prefix's position. -/
def decObj (pw : PrefixWidth) (omax : Nat) (bs : List Byte) : Parsed :=
  if bs.length < pw.bytes then .fail .bufferUnderflow 0 0
  else
    let l := unle (bs.take pw.bytes)
    if l > omax then .fail .arrayOverflow 0 pw.bytes
    else if bs.length < pw.bytes + l then .fail .bufferUnderflow pw.bytes pw.bytes
    else .value (.data (.bytes (bs.take (pw.bytes + l)))) (pw.bytes + l)

/-- The decoder sub-state of an OBJ entry, by its prefix width (R315). -/
def objState : PrefixWidth → DState
  | .p1 => .object8
  | .p2 => .object16
  | .p4 => .object32
  | .p8 => .object64

/-- `DSTATE <- the sub-state` (R324 step 3); NIL has none (R315). -/
def enterSub (a : Active) : Option DState → Active
  | none => a
  | some d => a.enter d

/-- The field is read: `VALS[i] <- v; DSTATE <- Args; i <- i + 1` (R323). -/
def storeValue (a : Active) (v : Value) : State :=
  (({ a with msg := { a.msg with vals := a.msg.vals.set a.msg.i v, i := a.msg.i + 1 } } : Active).enter .args).keep

/-- Carry out an arm for the entry at `i`: enter its sub-state, consume what it consumes, then its value or its error
(R323, R327). -/
def runParse (a : Active) (sub : Option DState) (arm : List Byte → Parsed) : State :=
  let b := enterSub a sub
  match arm b.available with
  | .value v used => storeValue (Active.consumeN used b) v
  | .fail k offset used =>
    (Active.consumeN used b).fail k a.msg.i (advN a.st.params.cap offset a.msg.cur)

end Sys2Proof.Machine
end

