-- ==== Sys2Proof/Machine/Encoder.lean ====
section
/-! DEFINITION. The serializer's arms by tag class (43_encoder.md section 2). An arm turns its argument into a plan:
the bytes to emit, cut where R233 checks room, and the error its argument ends in, if any (log entry 15). The engine
carries the plan out byte by byte. -/

namespace Sys2Proof.Machine

/-- What an arm writes: chunks, each written whole once there is room for it, then the error raised at WCUR after them,
if any. -/
structure Plan where
  chunks : List (List Byte)
  err : Option ErrKind
  deriving DecidableEq, Repr

/-- A field whose size is known before its first byte: room is checked up front (R233). -/
def fixedPlan (bs : List Byte) : Plan := { chunks := [bs], err := none }

/-- An arm whose argument is at fault: nothing is written (R234 steps 4 and 5). -/
def faultyPlan (k : ErrKind) : Plan := { chunks := [], err := some k }

/-- NIL writes nothing and ignores its slot (R241). -/
def encNil (_ : Arg) : Plan := { chunks := [], err := none }

/-- `arm_scalar(W)` (R242): the word's W bytes, lowest first. -/
def encScalar (w : Width) (a : Arg) : Plan :=
  match argWord w a with
  | some v => fixedPlan (le w.bytes v.toNat)
  | none => faultyPlan .invalidArgument

/-- `arm_varint(VW, signed)` (R243, R189): room is checked before every byte. -/
def encVarint (vw : VWidth) (signed : Bool) (a : Arg) : Plan :=
  match argWord vw.width a with
  | some v => { chunks := (pack vw (if signed then zzEnc v else v)).map (fun b => [b]), err := none }
  | none => faultyPlan .invalidArgument

/-- `arm_adr(MAXLEN)` (R244): the address and zero bytes, always MAXLEN bytes. -/
def encAdr (maxlen : Nat) (a : Arg) : Plan :=
  match argBytes a with
  | some bs =>
    let s := untilNul bs
    if s.length > maxlen then faultyPlan .stringOverflow else fixedPlan (padTo maxlen s)
  | none => faultyPlan .invalidArgument

/-- `arm_tstr(U, MAXLEN)` (R245) on the code units before the first zero: the units and an all-zero terminator, each
its own chunk; at most MAXLEN units go out, and a string that needs more ends in STRING_OVERFLOW. -/
def tstrPlan (u maxlen : Nat) (units : List Nat) : Plan where
  chunks := ((units ++ [0]).take maxlen).map (le u)
  err := if units.length + 1 > maxlen then some .stringOverflow else none

/-- STR: `arm_tstr` with U = 1, argument BYTES (R245). -/
def encStr (maxlen : Nat) (a : Arg) : Plan :=
  match argBytes a with
  | some bs => tstrPlan 1 maxlen ((untilNul bs).map BitVec.toNat)
  | none => faultyPlan .invalidArgument

/-- ST2 and ST4: `arm_tstr` with U = 2 and 4, argument UNITS(8U) (R245). -/
def encUnits (u : UnitWidth) (maxlen : Nat) (a : Arg) : Plan :=
  match argUnits u a with
  | some us => tstrPlan u.bytes maxlen ((untilNul us).map BitVec.toNat)
  | none => faultyPlan .invalidArgument

/-- `arm_array(E, COUNT)` (R246): more elements than COUNT is ARRAY_OVERFLOW, fewer is INVALID_ARGUMENT. -/
def encArray (e : Width) (count : Nat) (a : Arg) : Plan :=
  match argElems e a with
  | some es =>
    if es.length > count then faultyPlan .arrayOverflow
    else if es.length < count then faultyPlan .invalidArgument
    else fixedPlan (es.flatMap (fun x => le e.bytes x.toNat))
  | none => faultyPlan .invalidArgument

/-- `arm_obj(P, OMAX)` (R247): the prefix and its L payload bytes; bytes after them are ignored. -/
def encObj (pw : PrefixWidth) (omax : Nat) (a : Arg) : Plan :=
  match argBytes a with
  | some bs =>
    if bs.length < pw.bytes then faultyPlan .invalidArgument
    else
      let l := unle (bs.take pw.bytes)
      if l > omax then faultyPlan .arrayOverflow
      else if bs.length < pw.bytes + l then faultyPlan .invalidArgument
      else fixedPlan (bs.take (pw.bytes + l))
  | none => faultyPlan .invalidArgument

/-- Write chunks while there is room for each (R233); the flag says that one did not fit. -/
def emitChunks : List (List Byte) → Active → Bool × Active
  | [], a => (true, a)
  | c :: cs, a => if a.room < c.length then (false, a) else emitChunks cs (a.emitBytes c)

/-- The field is done: `STOP <- WCUR; i <- i + 1` (R231, R236). -/
def commitField (a : Active) : State :=
  ({ a with msg := { a.msg with i := a.msg.i + 1 } } : Active).commitStop.keep

/-- Carry out an arm's plan for the entry at `i`: bytes while they fit, then the error or the commit (R231, R239). -/
def runPlan (a : Active) (p : Plan) : State :=
  let r := emitChunks p.chunks a
  match r.1, p.err with
  | false, _ => r.2.fail .bufferOverflow a.msg.i r.2.msg.cur
  | true, some k => r.2.fail k a.msg.i r.2.msg.cur
  | true, none => commitField r.2

/-- The argument slot of the entry at `i` (R235): slots are positional, and a missing one is INVALID_ARGUMENT. -/
def withSlot (a : Active) (k : Arg → State) : State :=
  match a.msg.args[a.msg.i]? with
  | some slot => k slot
  | none => a.fail .invalidArgument a.msg.i a.msg.cur

end Sys2Proof.Machine
end

