-- ==== Sys2Proof/Machine/Entries.lean ====
section
/-! DEFINITION. The meaning of each of the thirty-one descriptor entries (R250-R280, R340-R370): one turn of
`enc_range` or `dec_range` (R231, R323) on the message in progress. -/

namespace Sys2Proof.Machine

/-- The message in progress, for an entry to run in (log entry 10), its cursors in the ring (log entry 9). -/
def withMessage (s : State) (k : Active → Out) : Out :=
  match s.msg with
  | none => .refused .noMessageOpen
  | some m => onRing (s.cursorsInRing && decide (m.cur < s.params.cap)) (k { st := s, msg := m })

/-- An entry that is no BSC: its encode arm on its slot in an ENCODE (R231), its decode arm under its sub-state in a
DECODE (R323). -/
def leafEntry (s : State) (enc : Arg → Plan) (sub : Option DState) (dec : List Byte → Parsed) : Out :=
  withMessage s (fun a =>
    match a.msg.dir with
    | .enc => .next (withSlot a (fun slot => runPlan a (enc slot)))
    | .dec => .next (runParse a sub dec))

/-- `check_tag` of a feature-gated tag (R113, R433): with the feature off the tag raises its own kind, before its slot
is looked at. -/
def gatedEntry (s : State) (on : Bool) (k : ErrKind) (entry : Out) : Out :=
  if on then entry else withMessage s (fun a => .next (a.fail k a.msg.i a.msg.cur))

/-- `DEPTH <- DEPTH + 1; HS[DEPTH] <- HASH_SEED`, and the first inner entry is next (R240, R330). -/
def openInner (a : Active) (n : Nat) : State :=
  ({ a with msg := { a.msg with
      i := a.msg.i + 1
      inner := { hash := a.st.params.hashSeed, hi := a.msg.i + 1 + n, index := a.msg.i } :: a.msg.inner } } :
    Active).keep

/-- The BSC checks of R240 and R330, and then the inner message. -/
def checkInner (a : Active) (n : Nat) : State :=
  if n = 0 ∨ a.msg.i + 1 + n > a.msg.hi then a.fail .invalidOperation a.msg.i a.msg.cur
  else if a.msg.inner.length + 1 > a.st.params.nestMax then a.fail .tooManyParams a.msg.i a.msg.cur
  else openInner a n

/-- NIL (R250, R340). -/
def execNil (s : State) : Out := leafEntry s encNil none decNil

/-- ADR(MAXLEN) (R251, R341). -/
def execAdr (maxlen : Nat) (s : State) : Out := leafEntry s (encAdr maxlen) (some .address) (decAdr maxlen)

/-- STR(MAXLEN) (R252, R342). -/
def execStr (maxlen : Nat) (s : State) : Out := leafEntry s (encStr maxlen) (some .utf8) (decStr maxlen)

/-- ST2(MAXLEN) (R253, R343). -/
def execSt2 (maxlen : Nat) (s : State) : Out :=
  gatedEntry s s.params.featUtf16 .utf16Disabled
    (leafEntry s (encUnits .u16 maxlen) (some .utf16) (decUnits .u16 maxlen))

/-- ST4(MAXLEN) (R254, R344). -/
def execSt4 (maxlen : Nat) (s : State) : Out :=
  gatedEntry s s.params.featUtf32 .utf32Disabled
    (leafEntry s (encUnits .u32 maxlen) (some .utf32) (decUnits .u32 maxlen))

/-- SI1 (R255, R345). -/
def execSi1 (s : State) : Out := leafEntry s (encScalar .w8) (some .pod) (decScalar .w8)

/-- UI1 (R256, R346). -/
def execUi1 (s : State) : Out := leafEntry s (encScalar .w8) (some .pod) (decScalar .w8)

/-- BOL (R257, R347): any byte value, as it is. -/
def execBol (s : State) : Out := leafEntry s (encScalar .w8) (some .pod) (decScalar .w8)

/-- SI2 (R258, R348). -/
def execSi2 (s : State) : Out := leafEntry s (encScalar .w16) (some .pod) (decScalar .w16)

/-- UI2 (R259, R349). -/
def execUi2 (s : State) : Out := leafEntry s (encScalar .w16) (some .pod) (decScalar .w16)

/-- HLF (R260, R350): a raw 16-bit pattern. -/
def execHlf (s : State) : Out := leafEntry s (encScalar .w16) (some .pod) (decScalar .w16)

/-- SI4 (R261, R351). -/
def execSi4 (s : State) : Out := leafEntry s (encScalar .w32) (some .pod) (decScalar .w32)

/-- UI4 (R262, R352). -/
def execUi4 (s : State) : Out := leafEntry s (encScalar .w32) (some .pod) (decScalar .w32)

/-- FLT (R263, R353): a raw 32-bit pattern. -/
def execFlt (s : State) : Out := leafEntry s (encScalar .w32) (some .pod) (decScalar .w32)

/-- TMS (R264, R354): a timestamp the block does not interpret. -/
def execTms (s : State) : Out := leafEntry s (encScalar .w32) (some .pod) (decScalar .w32)

/-- SI8 (R265, R355). -/
def execSi8 (s : State) : Out := leafEntry s (encScalar .w64) (some .pod) (decScalar .w64)

/-- UI8 (R266, R356). -/
def execUi8 (s : State) : Out := leafEntry s (encScalar .w64) (some .pod) (decScalar .w64)

/-- DBL (R267, R357): a raw 64-bit pattern. -/
def execDbl (s : State) : Out := leafEntry s (encScalar .w64) (some .pod) (decScalar .w64)

/-- TMU (R268, R358). -/
def execTmu (s : State) : Out := leafEntry s (encScalar .w64) (some .pod) (decScalar .w64)

/-- SV2 (R269, R359). -/
def execSv2 (s : State) : Out := leafEntry s (encVarint .v16 true) (some .varint) (decVarint .v16 true)

/-- UV2 (R270, R360). -/
def execUv2 (s : State) : Out := leafEntry s (encVarint .v16 false) (some .varint) (decVarint .v16 false)

/-- SV4 (R271, R361). -/
def execSv4 (s : State) : Out := leafEntry s (encVarint .v32 true) (some .varint) (decVarint .v32 true)

/-- UV4 (R272, R362). -/
def execUv4 (s : State) : Out := leafEntry s (encVarint .v32 false) (some .varint) (decVarint .v32 false)

/-- SV8 (R273, R363). -/
def execSv8 (s : State) : Out := leafEntry s (encVarint .v64 true) (some .varint) (decVarint .v64 true)

/-- UV8 (R274, R364). -/
def execUv8 (s : State) : Out := leafEntry s (encVarint .v64 false) (some .varint) (decVarint .v64 false)

/-- AR1(COUNT) (R275, R365). -/
def execAr1 (count : Nat) (s : State) : Out := leafEntry s (encArray .w8 count) (some .pod) (decArray .w8 count)

/-- AR2(COUNT) (R276, R366). -/
def execAr2 (count : Nat) (s : State) : Out := leafEntry s (encArray .w16 count) (some .pod) (decArray .w16 count)

/-- AR4(COUNT) (R277, R367). -/
def execAr4 (count : Nat) (s : State) : Out := leafEntry s (encArray .w32 count) (some .pod) (decArray .w32 count)

/-- AR8(COUNT) (R278, R368). -/
def execAr8 (count : Nat) (s : State) : Out := leafEntry s (encArray .w64 count) (some .pod) (decArray .w64 count)

/-- BSC(N) (R279, R369, R240, R330): an inner message of the next N entries. In an ENCODE its slot must be present,
and is ignored (R235). It moves no byte of its own, and in a DECODE its value stays NIL. -/
def execBsc (n : Nat) (s : State) : Out :=
  withMessage s (fun a =>
    match a.msg.dir with
    | .enc => .next (withSlot a (fun _ => checkInner a n))
    | .dec => .next (checkInner a n))

/-- OBJ(PW, OMAX) (R280, R370). -/
def execObj (pw : PrefixWidth) (omax : Nat) (s : State) : Out :=
  leafEntry s (encObj pw omax) (some (objState pw)) (decObj pw omax)

end Sys2Proof.Machine
end

