-- ==== Sys2Proof/Machine/Engine.lean ====
section
/-! DEFINITION. The type-tag dispatch multiplexer (R115) and the loop of `enc_range` and `dec_range` (R231, R323) as a
machine of turns: each turn runs one entry or closes one message. -/

namespace Sys2Proof.Machine

/-- The multiplexer (R115): one arm per tag. A command is never an entry (log entry 10). -/
def mux (i : Instr) (s : State) : Out :=
  match i with
  | .nil => execNil s
  | .adr q => execAdr q s
  | .str q => execStr q s
  | .st2 q => execSt2 q s
  | .st4 q => execSt4 q s
  | .si1 => execSi1 s
  | .ui1 => execUi1 s
  | .bol => execBol s
  | .si2 => execSi2 s
  | .ui2 => execUi2 s
  | .hlf => execHlf s
  | .si4 => execSi4 s
  | .ui4 => execUi4 s
  | .flt => execFlt s
  | .tms => execTms s
  | .si8 => execSi8 s
  | .ui8 => execUi8 s
  | .dbl => execDbl s
  | .tmu => execTmu s
  | .sv2 => execSv2 s
  | .uv2 => execUv2 s
  | .sv4 => execSv4 s
  | .uv4 => execUv4 s
  | .sv8 => execSv8 s
  | .uv8 => execUv8 s
  | .ar1 q => execAr1 q s
  | .ar2 q => execAr2 q s
  | .ar4 q => execAr4 q s
  | .ar8 q => execAr8 q s
  | .bsc q => execBsc q s
  | .obj pw omax => execObj pw omax s
  | .nop | .encode _ _ | .decode _ | .bell _ _ | .ack _ _ | .setCursors _ _ | .push _ | .pop | .peek _
  | .readReg _ | .writeReg _ _ | .softReset => .refused .notAnEntry

/-- A tag of 31..255 where an entry is due: INVALID_TYPE (R113). -/
def reservedTag (a : Active) : State := a.fail .invalidType a.msg.i a.msg.cur

/-- One turn on an open message: the next entry of the range by its tag, or at the end of the range the message's
trailer (R231, R237, R323, R325). -/
def turn (a : Active) : Out :=
  match a.msg.nextEntry with
  | some e =>
    match decodeEntry e with
    | .ok i => mux i a.keep
    | .error _ => .next (reservedTag a)
  | none => onRing (a.st.cursorsInRing && decide (a.msg.cur < a.st.params.cap)) (.next a.close)

/-- At most `n` turns, ending with the message or at a stop. -/
def runTurns : Nat → State → Out
  | 0, s => .next s
  | n + 1, s =>
    match s.msg with
    | none => .next s
    | some m =>
      match turn { st := s, msg := m } with
      | .next s' => runTurns n s'
      | .fault r => .fault r
      | .refused r => .refused r

/-- Turns that a descriptor of n entries can take: one an entry, one a BSC's trailer, one the message's trailer. -/
def turnsFor (n : Nat) : Nat := 2 * n + 1

end Sys2Proof.Machine
end

