-- ==== Sys2Proof/Machine/Codec.lean ====
section
/-! DEFINITION. The commands ENCODE (R230) and DECODE (R320): their pre-checks, seeding, and the engine run to the end
of the message. Each is one atomic step (R3, R75). -/

namespace Sys2Proof.Machine

/-- ENCODE's transient state when it has been seeded (R230): DEPTH 0, HS[0] = HASH_SEED, WCUR = STOP, i = 0. -/
def encMessage (s : State) (desc : List Entry) (args : List Arg) : Message where
  dir := .enc
  desc := desc
  args := args
  vals := []
  i := 0
  cur := s.stop.toNat
  hash0 := s.params.hashSeed
  inner := []

/-- ENCODE (R230): the pre-checks in their order, all before seeding (R441), then the engine. -/
def execEncode (desc : List Entry) (args : List Arg) (s : State) : Out :=
  if s.lock then .next (s.raise .locked 0 s.stop.toNat)
  else if desc.length = 0 then .next (s.raise .invalidOperation 0 s.stop.toNat)
  else if args.length = 0 then .next (s.raise .invalidOperation 0 s.stop.toNat)
  else if desc.length > s.params.paramMax then .next (s.raise .tooManyParams s.params.paramMax s.stop.toNat)
  else
    onRing s.cursorsInRing
      (runTurns (turnsFor desc.length) { s with msg := some (encMessage s desc args) })

/-- DECODE's transient state when it has been seeded (R320). -/
def decMessage (s : State) (desc : List Entry) : Message where
  dir := .dec
  desc := desc
  args := []
  vals := List.replicate desc.length .nil
  i := 0
  cur := s.start.toNat
  hash0 := s.params.hashSeed
  inner := []

/-- The first entry's tag is ADR (R318). -/
def leadsWithAdr : List Entry → Bool
  | [] => false
  | e :: _ => tagOf e == 1#8

/-- A DECODE pre-check that fails before seeding: DSTATE goes to `d` and the error is raised (R317, R320). -/
def decPrecheck (s : State) (d : DState) (k : ErrKind) (index : Nat) : Out :=
  .next ((s.enter d).raise k index s.start.toNat)

/-- DECODE (R320): refused in Error with no state change (R316, R443), else the pre-checks in their order, then
`DSTATE <- initial(DMODE)`, seeding and the engine. The command's trace starts empty (R310). -/
def execDecode (desc : List Entry) (s : State) : Out :=
  let t := { s with trace := [] }
  if s.dstate = .error then .next (t.respond .invalidOperation .none)
  else if s.lock then decPrecheck t .locked .locked 0
  else if desc.length = 0 then decPrecheck t .error .invalidOperation 0
  else if desc.length > s.params.paramMax then decPrecheck t .error .tooManyParams s.params.paramMax
  else if s.dmode ∧ leadsWithAdr desc = false then decPrecheck t .error .invalidType 0
  else
    onRing s.cursorsInRing
      (runTurns (turnsFor desc.length)
        { t.enter (initialState s.dmode) with msg := some (decMessage s desc) })

end Sys2Proof.Machine
end

