-- ==== Sys2Proof/Machine/Control.lean ====
section
/-! DEFINITION. The control-signal layer: BELL and ACK (45_control_signals.md). -/

namespace Sys2Proof.Machine

/-- The bytes of a control frame: the control byte and the address field of M bytes (R118, R390). -/
def frameBytes (c : Byte) (m : Word) (addr : List Byte) : List Byte := c :: padTo m.toNat (untilNul addr)

/-- A frame in progress: no descriptor, DEPTH 0, HS[0] = HASH_SEED, WCUR = STOP (R390). -/
def frameMessage (s : State) : Message where
  dir := .enc
  desc := []
  args := []
  vals := []
  i := 0
  cur := s.stop.toNat
  hash0 := s.params.hashSeed
  inner := []

/-- The frame's bytes go through `emit`; then STOP and HASH are written and the command completes (R390). -/
def writeFrame (s : State) (bytes : List Byte) : State :=
  let a := Active.emitBytes { st := s, msg := frameMessage s } bytes
  ({ a.st with stop := BitVec.ofNat 32 a.msg.cur, hash := a.msg.hash0 }).complete .none

/-- `frame(C, M, ADDR)` (R390): every check comes before seeding, so a frame is all or nothing. -/
def frame (c : Byte) (m : Word) (addr : List Byte) (s : State) : Out :=
  if s.lock then .next (s.raise .locked 0 s.stop.toNat)
  else if (untilNul addr).length > m.toNat then .next (s.raise .stringOverflow 0 s.stop.toNat)
  else if s.space < 1 + m.toNat then .next (s.raise .bufferOverflow 0 s.stop.toNat)
  else onRing s.cursorsInRing (.next (writeFrame s (frameBytes c m addr)))

/-- BELL (R391): control byte BEL = 7. -/
def execBell (m : Word) (addr : List Byte) (s : State) : Out := frame 7 m addr s

/-- ACK (R392): control byte ACK = 6. -/
def execAck (m : Word) (addr : List Byte) (s : State) : Out := frame 6 m addr s

end Sys2Proof.Machine
end

