-- ==== Sys2Proof/Machine/HostPort.lean ====
section
/-! DEFINITION. The host interface commands (46_host_interface.md) and the register map (R41). -/

namespace Sys2Proof.Machine

/-- NOP (R401): no state changes; the response is NONE. -/
def execNop (s : State) : Out := .next (s.respond .none .none)

/-- SET_CURSORS (R402). -/
def execSetCursors (sv tv : Word) (s : State) : Out :=
  if sv.toNat ≥ s.params.cap ∨ tv.toNat ≥ s.params.cap then .next (s.raise .invalidArgument 0 s.start.toNat)
  else .next (({ s with start := sv, stop := tv, dstate := initialState s.dmode }).complete .none)

/-- PUSH (R403). -/
def execPush (b : Byte) (s : State) : Out :=
  if s.space = 0 then .next (s.raise .bufferOverflow 0 s.stop.toNat)
  else
    onRing s.cursorsInRing
      (.next (({ s.bufWrite s.stop.toNat b with
        stop := BitVec.ofNat 32 (adv s.params.cap s.stop.toNat) }).complete .none))

/-- POP (R404). -/
def execPop (s : State) : Out :=
  if s.len = 0 then .next (s.raise .bufferUnderflow 0 s.start.toNat)
  else
    onRing s.cursorsInRing
      (.next (({ s with start := BitVec.ofNat 32 (adv s.params.cap s.start.toNat) }).complete
        (.byte (s.bufRead s.start.toNat))))

/-- PEEK (R405): any ring index, no state changes, the error record not written. -/
def execPeek (ix : Word) (s : State) : Out :=
  if ix.toNat ≥ s.params.cap then .next (s.respond .invalidArgument .none)
  else .next (s.respond .none (.byte (s.bufRead ix.toNat)))

/-- The value of a register (R41); LENGTH and SPACE are computed at the read (R40), narrow registers are zero-extended,
CONFIG's reserved bits read as 0 (R35). A number above 0x0D names no register. -/
def regValue (s : State) (r : Byte) : Option Word :=
  match r.toNat with
  | 0x00 => some (BitVec.ofNat 32 s.params.cap)
  | 0x01 => some s.start
  | 0x02 => some s.stop
  | 0x03 => some (BitVec.ofNat 32 s.len)
  | 0x04 => some (BitVec.ofNat 32 s.space)
  | 0x05 => some (s.hash.setWidth 32)
  | 0x06 => some (s.dstate.code.setWidth 32)
  | 0x07 => some (s.config &&& configMask)
  | 0x08 => some (featuresWord s.params)
  | 0x09 => some (s.errKind.code.setWidth 32)
  | 0x0A => some s.errIndex
  | 0x0B => some s.errAddr
  | 0x0C => some (BitVec.ofNat 32 s.params.paramMax)
  | 0x0D => some (BitVec.ofNat 32 s.params.nestMax)
  | _ => none

/-- READ_REG (R406). -/
def execReadReg (r : Byte) (s : State) : Out :=
  match regValue s r with
  | some v => .next (s.respond .none (.word v))
  | none => .next (s.respond .invalidArgument .none)

/-- A write of CONFIG (R407): both fields at once, bits 31:2 ignored; DSTATE follows DMODE while it is Address or
Args. -/
def writeConfig (v : Word) (s : State) : State :=
  let t := { s with config := v &&& configMask }
  if s.dstate = .address ∨ s.dstate = .args then { t with dstate := initialState t.dmode } else t

/-- WRITE_REG (R407): CONFIG is the only writable register. -/
def execWriteReg (r : Byte) (v : Word) (s : State) : Out :=
  if r.toNat ≠ 0x07 then .next (s.respond .invalidArgument .none)
  else .next ((writeConfig v s).respond .none .none)

/-- SOFT_RESET (R408, R471): every register to its reset value (R46); BUF and the parameters stay. -/
def softResetState (s : State) : State :=
  { s with
    start := 0, stop := 0, hash := s.params.hashSeed, dstate := .args, config := 0
    errKind := .none, errIndex := 0, errAddr := 0 }

/-- SOFT_RESET (R408). -/
def execSoftReset (s : State) : Out := .next ((softResetState s).respond .none .none)

/-- An opcode of 0x0C..0xFF (R409): no state changes, the error record is not written. -/
def unknownOpcode (s : State) : State := s.respond .invalidOperation .none

end Sys2Proof.Machine
end

