-- ==== Sys2Proof/Machine/Dispatch.lean ====
section
/-! DEFINITION. One arm per instruction of spec/opcode_table.json, each one direct call of its meaning. -/

namespace Sys2Proof.Machine

def exec (i : Instr) (s : State) : Host.Outcome State Fault Refusal :=
  match i with
  -- commands (R102)
  | .nop => Sys2Proof.Machine.execNop s
  | .encode desc args => Sys2Proof.Machine.execEncode desc args s
  | .decode desc => Sys2Proof.Machine.execDecode desc s
  | .bell m addr => Sys2Proof.Machine.execBell m addr s
  | .ack m addr => Sys2Proof.Machine.execAck m addr s
  | .setCursors sv tv => Sys2Proof.Machine.execSetCursors sv tv s
  | .push b => Sys2Proof.Machine.execPush b s
  | .pop => Sys2Proof.Machine.execPop s
  | .peek ix => Sys2Proof.Machine.execPeek ix s
  | .readReg r => Sys2Proof.Machine.execReadReg r s
  | .writeReg r v => Sys2Proof.Machine.execWriteReg r v s
  | .softReset => Sys2Proof.Machine.execSoftReset s
  -- descriptor entries (R111)
  | .nil => Sys2Proof.Machine.execNil s
  | .adr q => Sys2Proof.Machine.execAdr q s
  | .str q => Sys2Proof.Machine.execStr q s
  | .st2 q => Sys2Proof.Machine.execSt2 q s
  | .st4 q => Sys2Proof.Machine.execSt4 q s
  | .si1 => Sys2Proof.Machine.execSi1 s
  | .ui1 => Sys2Proof.Machine.execUi1 s
  | .bol => Sys2Proof.Machine.execBol s
  | .si2 => Sys2Proof.Machine.execSi2 s
  | .ui2 => Sys2Proof.Machine.execUi2 s
  | .hlf => Sys2Proof.Machine.execHlf s
  | .si4 => Sys2Proof.Machine.execSi4 s
  | .ui4 => Sys2Proof.Machine.execUi4 s
  | .flt => Sys2Proof.Machine.execFlt s
  | .tms => Sys2Proof.Machine.execTms s
  | .si8 => Sys2Proof.Machine.execSi8 s
  | .ui8 => Sys2Proof.Machine.execUi8 s
  | .dbl => Sys2Proof.Machine.execDbl s
  | .tmu => Sys2Proof.Machine.execTmu s
  | .sv2 => Sys2Proof.Machine.execSv2 s
  | .uv2 => Sys2Proof.Machine.execUv2 s
  | .sv4 => Sys2Proof.Machine.execSv4 s
  | .uv4 => Sys2Proof.Machine.execUv4 s
  | .sv8 => Sys2Proof.Machine.execSv8 s
  | .uv8 => Sys2Proof.Machine.execUv8 s
  | .ar1 q => Sys2Proof.Machine.execAr1 q s
  | .ar2 q => Sys2Proof.Machine.execAr2 q s
  | .ar4 q => Sys2Proof.Machine.execAr4 q s
  | .ar8 q => Sys2Proof.Machine.execAr8 q s
  | .bsc q => Sys2Proof.Machine.execBsc q s
  | .obj pw omax => Sys2Proof.Machine.execObj pw omax s

end Sys2Proof.Machine
end

