-- ==== Sys2Proof/Machine/Fetch.lean ====
section
/-! DEFINITION. What the step takes next: the oldest command of the port, or the entry an open message has reached; and
how a table word is placed there. -/

namespace Sys2Proof.Machine

/-- The block takes one pending command off the port and runs it whole (R3, R410); an unknown opcode only responds
(R409). -/
def takeCommand (c : Issue) (s : State) : Out :=
  match decodeCommand c with
  | .ok i => exec i s
  | .error _ => .next (unknownOpcode s)

/-- One turn of a message that is already open: the entry due, or the trailer. Between commands no message is open
(R37), so only a state in which one was placed runs this (log entry 4). -/
def stepMessage (m : Message) (s : State) : Out :=
  match m.nextEntry with
  | some e =>
    match decodeEntry e with
    | .ok i => exec i s
    | .error _ => .next (reservedTag { st := s, msg := m })
  | none => turn { st := s, msg := m }

/-- An argument of the form a tag takes, all zeros (R111): the slot that `State.withFetchWord` gives a placed entry. -/
def zeroArg : Instr → Arg
  | .adr _ | .str _ => .data (.bytes [])
  | .st2 _ => .data (.units .u16 [])
  | .st4 _ => .data (.units .u32 [])
  | .si1 | .ui1 | .bol => .data (.word .w8 0)
  | .si2 | .ui2 | .hlf | .sv2 | .uv2 => .data (.word .w16 0)
  | .si4 | .ui4 | .flt | .tms | .sv4 | .uv4 => .data (.word .w32 0)
  | .si8 | .ui8 | .dbl | .tmu | .sv8 | .uv8 => .data (.word .w64 0)
  | .ar1 q => .data (.elems .w8 (List.replicate q 0))
  | .ar2 q => .data (.elems .w16 (List.replicate q 0))
  | .ar4 q => .data (.elems .w32 (List.replicate q 0))
  | .ar8 q => .data (.elems .w64 (List.replicate q 0))
  | .obj pw _ => .data (.bytes (List.replicate pw.bytes 0))
  | .nil | .bsc _ => .absent
  | .nop | .encode _ _ | .decode _ | .bell _ _ | .ack _ _ | .setCursors _ _ | .push _ | .pop | .peek _
  | .readReg _ | .writeReg _ _ | .softReset => .absent

/-- The state with the word placed where the step takes its next instruction (log entries 6 and 7): a command word goes
to the front of the port with zero operands; a word that is only an entry becomes the one entry of an ENCODE in progress
with a zero argument; any other word goes to the port as an unknown opcode. -/
def placeWord (s : State) (word : Word) : State :=
  let issued : State := { s with msg := none, port := { word := word } :: s.port }
  match decodeCommand { word := word } with
  | .ok _ => issued
  | .error _ =>
    match decodeEntry word with
    | .ok i => { s with msg := some (encMessage s [word] [zeroArg i]) }
    | .error _ => issued

end Sys2Proof.Machine
end

