-- ==== Sys2Proof/Machine/Step.lean ====
section
/-! DEFINITION. One step of the block, and how a table word is placed where the step takes its next instruction. -/

namespace Sys2Proof.Machine

/-- One step: a message in progress first, else the oldest pending command, else nothing (log entries 4 and 5). -/
def step (s : State) : Host.Outcome State Fault Refusal :=
  match s.msg with
  | some m => stepMessage m s
  | none =>
    match s.port with
    | [] => .next s
    | c :: rest => takeCommand c { s with port := rest }

/-- `s` with the low `nbits` bits of `w` placed as the next instruction (log entries 6 and 7). -/
def State.withFetchWord (s : State) (nbits w : Nat) : State := placeWord s (BitVec.ofNat 32 (w % 2 ^ nbits))

end Sys2Proof.Machine
end

