-- ==== Sys2Proof/Machine/Pseudo.lean ====
section
/-! DEFINITION. The pseudo-instructions CONNECT, RETRY and DISCARD (R121, R393): expansions into commands that the host
issues. They are no instructions of their own (log entry 18). -/

namespace Sys2Proof.Machine

/-- `CONNECT local, M`: `ENCODE [ADR(M), ADR(1)], (local, bytes(07))` (R393). -/
def connect (addr : List Byte) (m : Nat) : Instr :=
  .encode [entryWord 1 m, entryWord 1 1] [.data (.bytes addr), .data (.bytes [7#8])]

/-- `RETRY`: READ_REG 0x01 (giving s), READ_REG 0x02 (giving t), SET_CURSORS s, t (R121). The host reads s and t from the
responses; issued to the state `s` they are its cursors. -/
def retry (s : State) : List Instr := [.readReg 0x01, .readReg 0x02, .setCursors s.start s.stop]

/-- `DISCARD`: READ_REG 0x02 (giving t), SET_CURSORS t, t (R121). -/
def discard (s : State) : List Instr := [.readReg 0x02, .setCursors s.stop s.stop]

/-- Commands one after another, stopping at the first stop (R80). -/
def execAll : List Instr → State → Out
  | [], s => .next s
  | i :: is, s =>
    match exec i s with
    | .next t => execAll is t
    | .fault r => .fault r
    | .refused r => .refused r

end Sys2Proof.Machine
end

