-- ==== Sys2Proof/Machine/Layout.lean ====
section
/-! DEFINITION. The wire format as a function (30_encoding.md section 4): the bytes of a field (R117), of a message
(R116) and of its nested messages, and the values a decoder gives back (R329). It is written from the layout rules,
not from the engines: the statements compare the two. -/

namespace Sys2Proof.Machine

/-! ## A run of bytes (R159) -/

/-- Write bytes at successive ring indices from `c` (R159). -/
def State.writeRun (s : State) : Nat → List Byte → State
  | _, [] => s
  | c, b :: bs => (s.bufWrite c b).writeRun (adv s.params.cap c) bs

/-- A message in progress after a run of body bytes: the private cursor has advanced over them and every open
accumulator has folded them (R213, R214). -/
def Message.ran (p : Params) (m : Message) (bs : List Byte) : Message :=
  { m with
    cur := advN p.cap bs.length m.cur
    hash0 := hashBytes p.hashMul m.hash0 bs
    inner := m.inner.map (fun l => { l with hash := hashBytes p.hashMul l.hash bs }) }

/-- The state after the entry at `i` has written its field and committed it (R231, R236). -/
def fieldWritten (s : State) (m : Message) (bs : List Byte) : State :=
  { s.writeRun m.cur bs with
    stop := BitVec.ofNat 32 (advN s.params.cap bs.length m.cur)
    msg := some { m.ran s.params bs with i := m.i + 1 } }

/-- The state after the entry at `i` has read an n-byte field under a sub-state and stored its value (R323). -/
def fieldRead (s : State) (m : Message) (sub : Option DState) (n : Nat) (v : Value) : State :=
  { s with
    dstate := .args
    trace := s.trace ++ sub.toList ++ [.args]
    msg := some { m.ran s.params (s.ringBytes n m.cur) with vals := m.vals.set m.i v, i := m.i + 1 } }

/-- The state after the entry at `i` of an ENCODE has written `bs` and then failed (R239): the bytes stay in BUF and in
the hash, STOP is where it was, and the error reports the entry and the cursor reached. -/
def fieldFailed (s : State) (m : Message) (bs : List Byte) (k : ErrKind) : State :=
  { s.writeRun m.cur bs with
    hash := hashBytes s.params.hashMul m.hash0 bs
    errKind := k
    errIndex := BitVec.ofNat 32 m.i
    errAddr := BitVec.ofNat 32 (advN s.params.cap bs.length m.cur)
    response := some { status := k, result := .none }
    msg := none }

/-- The state after the entry at `i` of a DECODE has read n bytes and then failed (R327): DSTATE is Error, the bytes
read are in the hash, START is where it was, and the error reports the entry and the ring index `addr`. -/
def readFailed (s : State) (m : Message) (sub : Option DState) (n : Nat) (k : ErrKind) (addr : Nat) : State :=
  { s with
    hash := hashBytes s.params.hashMul m.hash0 (s.ringBytes n m.cur)
    dstate := .error
    trace := s.trace ++ sub.toList ++ [.error]
    errKind := k
    errIndex := BitVec.ofNat 32 m.i
    errAddr := BitVec.ofNat 32 addr
    response := some { status := k, result := .none }
    msg := none }

/-- The state after the entry at `i` has failed before its first byte, in either command. -/
def entryFailed (s : State) (m : Message) (k : ErrKind) : State :=
  match m.dir with
  | .enc => fieldFailed s m [] k
  | .dec => readFailed s m none 0 k m.cur

/-- The state after a terminated string of u-byte code units under MAXLEN (R245): as many of its units and its
terminator go out as MAXLEN and the room allow; running out of room is BUFFER_OVERFLOW, running out of MAXLEN is
STRING_OVERFLOW. -/
def stringOutcome (s : State) (m : Message) (u maxlen : Nat) (units : List Nat) : State :=
  let field := (units ++ [0]).take maxlen
  let fit := ringSpace s.params.cap s.start.toNat m.cur / u
  if fit < field.length then fieldFailed s m ((field.take fit).flatMap (le u)) .bufferOverflow
  else if maxlen < units.length + 1 then fieldFailed s m (field.flatMap (le u)) .stringOverflow
  else fieldWritten s m (field.flatMap (le u))

/-! ## Fields (R117) -/

/-- A fixed scalar of W bytes: `le_W(v)`. -/
def scalarBytes (w : Width) (a : Arg) : Option (List Byte) := (argWord w a).map (fun v => le w.bytes v.toNat)

/-- A varint: 7-bit groups, the signed tags after the zigzag transform (R189). -/
def varintBytes (vw : VWidth) (signed : Bool) (a : Arg) : Option (List Byte) :=
  (argWord vw.width a).map (fun v => pack vw (if signed then zzEnc v else v))

/-- An address field: the address's bytes, then zero bytes up to MAXLEN. -/
def addressBytes (maxlen : Nat) (a : Arg) : Option (List Byte) :=
  (argBytes a).bind (fun bs =>
    if (untilNul bs).length ≤ maxlen then some (padTo maxlen (untilNul bs)) else none)

/-- A terminated string: its units little-endian, then one zero unit; at most MAXLEN units with the terminator. -/
def stringBytes (u maxlen : Nat) (units : List Nat) : Option (List Byte) :=
  if units.length + 1 ≤ maxlen then some (units.flatMap (le u) ++ List.replicate u 0#8) else none

/-- An array of exactly COUNT elements: `le_E(e0) ++ … ++ le_E(e(COUNT-1))`. -/
def arrayBytes (e : Width) (count : Nat) (a : Arg) : Option (List Byte) :=
  (argElems e a).bind (fun es =>
    if es.length = count then some (es.flatMap (fun x => le e.bytes x.toNat)) else none)

/-- The P + L bytes of an OBJ argument, L its own length prefix, within OMAX. -/
def objectBytes (pw : PrefixWidth) (omax : Nat) (a : Arg) : Option (List Byte) :=
  (argBytes a).bind (fun bs =>
    let l := unle (bs.take pw.bytes)
    if pw.bytes ≤ bs.length ∧ l ≤ omax ∧ pw.bytes + l ≤ bs.length then some (bs.take (pw.bytes + l)) else none)

/-- The bytes an entry other than BSC puts on the wire for an argument (R117); none where the entry is disabled or the
argument does not fit it. -/
def fieldBytes (p : Params) (i : Instr) (a : Arg) : Option (List Byte) :=
  match i with
  | .nil => some []
  | .adr q => addressBytes q a
  | .str q => (argBytes a).bind (fun bs => stringBytes 1 q ((untilNul bs).map BitVec.toNat))
  | .st2 q =>
    if p.featUtf16 then (argUnits .u16 a).bind (fun us => stringBytes 2 q ((untilNul us).map BitVec.toNat)) else none
  | .st4 q =>
    if p.featUtf32 then (argUnits .u32 a).bind (fun us => stringBytes 4 q ((untilNul us).map BitVec.toNat)) else none
  | .si1 | .ui1 | .bol => scalarBytes .w8 a
  | .si2 | .ui2 | .hlf => scalarBytes .w16 a
  | .si4 | .ui4 | .flt | .tms => scalarBytes .w32 a
  | .si8 | .ui8 | .dbl | .tmu => scalarBytes .w64 a
  | .sv2 => varintBytes .v16 true a
  | .uv2 => varintBytes .v16 false a
  | .sv4 => varintBytes .v32 true a
  | .uv4 => varintBytes .v32 false a
  | .sv8 => varintBytes .v64 true a
  | .uv8 => varintBytes .v64 false a
  | .ar1 q => arrayBytes .w8 q a
  | .ar2 q => arrayBytes .w16 q a
  | .ar4 q => arrayBytes .w32 q a
  | .ar8 q => arrayBytes .w64 q a
  | .obj pw omax => objectBytes pw omax a
  | .bsc _ => none
  | .nop | .encode _ _ | .decode _ | .bell _ _ | .ack _ _ | .setCursors _ _ | .push _ | .pop | .peek _
  | .readReg _ | .writeReg _ _ | .softReset => none

/-- The value a decoder gives back for an argument (R329): strings cut at their first zero, an OBJ argument at its
P + L bytes, NIL for NIL and BSC, everything else as it was. -/
def fieldValue (i : Instr) (a : Arg) : Value :=
  match i, a with
  | .nil, _ | .bsc _, _ => .nil
  | .obj pw _, .data (.bytes bs) => .data (.bytes (bs.take (pw.bytes + unle (bs.take pw.bytes))))
  | _, .data (.bytes bs) => .data (.bytes (untilNul bs))
  | _, .data (.units u us) => .data (.units u (untilNul us))
  | _, .data d => .data d
  | _, .absent => .nil

/-! ## Messages (R116) -/

/-- The trailer of a body: the low byte, then the high byte of its hash (R215). -/
def trailerOf (p : Params) (body : List Byte) : List Byte :=
  let h := hashBytes p.hashMul p.hashSeed body
  [trailerLo h, trailerHi h]

/-- The body of a message at nesting depth `depth` (R116, R117): the fields of its entries in order. A BSC(N) field is
the inner message of the next N entries with its own trailer (R240). The first argument bounds the recursion: the
number of entries is enough. None where some entry or argument has no field. -/
def bodyBytes (p : Params) : Nat → Nat → List Entry → List Arg → Option (List Byte)
  | _, _, [], _ => some []
  | 0, _, _ :: _, _ => none
  | _, _, _ :: _, [] => none
  | fuel + 1, depth, e :: es, a :: as =>
    match decodeEntry e with
    | .error _ => none
    | .ok (.bsc n) =>
      if n = 0 ∨ es.length < n ∨ p.nestMax < depth + 1 then none
      else
        match bodyBytes p fuel (depth + 1) (es.take n) (as.take n), bodyBytes p fuel depth (es.drop n) (as.drop n) with
        | some inner, some rest => some (inner ++ trailerOf p inner ++ rest)
        | _, _ => none
    | .ok i =>
      match fieldBytes p i a, bodyBytes p fuel depth es as with
      | some field, some rest => some (field ++ rest)
      | _, _ => none

/-- The body of the level-0 message of a descriptor and its arguments. -/
def messageBody (p : Params) (desc : List Entry) (args : List Arg) : Option (List Byte) :=
  bodyBytes p desc.length 0 desc args

/-- The value list a decoder gives back for a descriptor and the arguments it was encoded from (R328, R329). -/
def messageValues (desc : List Entry) (args : List Arg) : List Value :=
  desc.zipWith (fun e a => match decodeEntry e with | .ok i => fieldValue i a | .error _ => .nil) args

/-! ## Decoder states (R314) -/

/-- The sub-state of an entry's tag (R315); a command has none. -/
def subState : Instr → Option DState
  | .nil | .bsc _ => none
  | .adr _ => some .address
  | .str _ => some .utf8
  | .st2 _ => some .utf16
  | .st4 _ => some .utf32
  | .sv2 | .uv2 | .sv4 | .uv4 | .sv8 | .uv8 => some .varint
  | .si1 | .ui1 | .bol | .si2 | .ui2 | .hlf | .si4 | .ui4 | .flt | .tms | .si8 | .ui8 | .dbl | .tmu
  | .ar1 _ | .ar2 _ | .ar4 _ | .ar8 _ => some .pod
  | .obj pw _ => some (objState pw)
  | .nop | .encode _ _ | .decode _ | .bell _ _ | .ack _ _ | .setCursors _ _ | .push _ | .pop | .peek _
  | .readReg _ | .writeReg _ _ | .softReset => none

/-- The states the body of a message passes through (R314): each field's sub-state and then Args; an inner message's
states, then Hash and Args. The first argument bounds the recursion: the number of entries is enough. -/
def bodyTrace : Nat → List Entry → List DState
  | _, [] => []
  | 0, _ :: _ => []
  | fuel + 1, e :: es =>
    match decodeEntry e with
    | .error _ => []
    | .ok (.bsc n) => bodyTrace fuel (es.take n) ++ [.hash, .args] ++ bodyTrace fuel (es.drop n)
    | .ok i => (subState i).toList ++ [.args] ++ bodyTrace fuel es

/-- The trace of a DECODE that succeeds (R314). -/
def messageTrace (dmode : Bool) (desc : List Entry) : List DState :=
  [initialState dmode] ++ bodyTrace desc.length desc ++ [.hash, initialState dmode]

end Sys2Proof.Machine
end

