-- ==== Sys2Proof/Safety.lean ====
section
/-! DEFINITION. What holds of the block between commands (R45), and the bytes of the occupied region (R12): the terms
the statements are written in. -/

namespace Sys2Proof.Machine

/-- The invariant between commands (R45), with what the register rules add to it: the parameters are legal (R6), BUF
holds storage that exists (R70), CONFIG's reserved bits are 0 (R35), the error record holds a kind the block raises and
an index and an address in their ranges (R432, R440), and no transient state exists (R37). -/
structure Inv (s : State) : Prop where
  params_wf : s.params.wf
  start_lt : s.start.toNat < s.params.cap
  stop_lt : s.stop.toNat < s.params.cap
  mem_wf : memWf s.buf = true
  mem_lt : ∀ c ∈ s.buf, c.1 < s.params.cap
  dstate_between : s.dstate = .address ∨ s.dstate = .args ∨ s.dstate = .error ∨ s.dstate = .locked
  dstate_idle : s.dstate = .address ∨ s.dstate = .args → s.dstate = initialState s.dmode
  config_reserved : s.config &&& ~~~configMask = 0
  err_kind : s.errKind ≠ .disconnected ∧ s.errKind ≠ .room
  err_index : s.errIndex.toNat ≤ s.params.paramMax
  err_addr : s.errAddr.toNat < s.params.cap
  no_message : s.msg = none

/-- The bytes of the occupied region, from START up to STOP (R12). -/
def State.occupied (s : State) : List Byte := s.ringBytes s.len s.start.toNat

/-- The ring index `c` lies in the occupied region (R12): fewer than `len(START, STOP)` steps after START. -/
def State.isOccupied (s : State) (c : Nat) : Prop := ringLen s.params.cap s.start.toNat c < s.len

/-! ## When a command runs -/

/-- The instruction is a descriptor entry, not a command. -/
def isEntry : Instr → Bool
  | .nop | .encode _ _ | .decode _ | .bell _ _ | .ack _ _ | .setCursors _ _ | .push _ | .pop | .peek _
  | .readReg _ | .writeReg _ _ | .softReset => false
  | _ => true

/-- The next state of a seeded ENCODE before its first entry (R230). -/
def encOpened (s : State) (desc : List Entry) (args : List Arg) : State :=
  { s with msg := some (encMessage s desc args) }

/-- The pre-checks of an ENCODE hold (R230). -/
abbrev encReady (s : State) (desc : List Entry) (args : List Arg) : Prop :=
  s.lock = false ∧ desc ≠ [] ∧ args ≠ [] ∧ desc.length ≤ s.params.paramMax

/-- The next state of a seeded DECODE before its first entry (R320). -/
def decOpened (s : State) (desc : List Entry) : State :=
  { ({ s with trace := [] }).enter (initialState s.dmode) with msg := some (decMessage s desc) }

/-- The pre-checks of a DECODE hold (R320). -/
abbrev decReady (s : State) (desc : List Entry) : Prop :=
  s.dstate ≠ .error ∧ s.lock = false ∧ desc ≠ [] ∧ desc.length ≤ s.params.paramMax ∧
    (s.dmode = true → leadsWithAdr desc = true)

/-- The checks of a control frame hold (R390). -/
abbrev frameReady (m : Word) (addr : List Byte) (s : State) : Prop :=
  s.lock = false ∧ (untilNul addr).length ≤ m.toNat ∧ 1 + m.toNat ≤ s.space

/-! ## An entry in a command -/

/-- The message `m` is open in `s` for an ENCODE, its cursors in the ring. -/
abbrev EncTurn (s : State) (m : Message) : Prop :=
  s.msg = some m ∧ m.dir = .enc ∧ s.cursorsInRing = true ∧ m.cur < s.params.cap

/-- The message `m` is open in `s` for a DECODE, its cursors in the ring. -/
abbrev DecTurn (s : State) (m : Message) : Prop :=
  s.msg = some m ∧ m.dir = .dec ∧ s.cursorsInRing = true ∧ m.cur < s.params.cap

/-- The argument slot of the entry the message `m` is at (R235). -/
abbrev Message.slot (m : Message) : Option Arg := m.args[m.i]?

/-- `room = space(START, WCUR)` (R155). -/
abbrev State.roomAt (s : State) (wcur : Nat) : Nat := ringSpace s.params.cap s.start.toNat wcur

/-- `avail = len(RCUR, STOP)` (R156). -/
abbrev State.availAt (s : State) (rcur : Nat) : Nat := ringLen s.params.cap rcur s.stop.toNat

/-- A response (R400). -/
abbrev responded (status : ErrKind) (result : Result) : Option Response :=
  some { status := status, result := result }

/-- The configuration enables the entry's tag (R113). -/
def enabled (p : Params) : Instr → Bool
  | .st2 _ => p.featUtf16
  | .st4 _ => p.featUtf32
  | _ => true

/-- The unit at position j of a string of u-byte code units that starts at RCUR. -/
def unitAt (s : State) (m : Message) (u j : Nat) : Nat := unle (s.ringBytes u (advN s.params.cap (u * j) m.cur))

/-- What a terminated string's decode arm does (R335), under MAXLEN and with u-byte code units: the field ends at its
first zero unit; with none within MAXLEN units it is STRING_OVERFLOW, and with none before the bytes run out
BUFFER_UNDERFLOW. -/
def StringReads (s : State) (m : Message) (i : Instr) (u maxlen : Nat) (sub : DState) (datum : List Nat → Datum) :
    Prop :=
  let whole := s.availAt m.cur / u
  (∀ j, j < maxlen → j < whole → unitAt s m u j = 0 → (∀ k < j, unitAt s m u k ≠ 0) →
    exec i s = .next (fieldRead s m (some sub) (u * (j + 1))
      (.data (datum ((List.range j).map (unitAt s m u)))))) ∧
  ((∀ j, j < maxlen → j < whole → unitAt s m u j ≠ 0) →
    exec i s = .next (readFailed s m (some sub) (u * min maxlen whole)
      (if maxlen ≤ whole then .stringOverflow else .bufferUnderflow)
      (advN s.params.cap (u * min maxlen whole) m.cur)))

/-- The fixed scalars with their widths (R111, R242). -/
def scalarTags : List (Instr × Width) :=
  [(.si1, .w8), (.ui1, .w8), (.bol, .w8), (.si2, .w16), (.ui2, .w16), (.hlf, .w16), (.si4, .w32), (.ui4, .w32),
   (.flt, .w32), (.tms, .w32), (.si8, .w64), (.ui8, .w64), (.dbl, .w64), (.tmu, .w64)]

/-- The varints with their widths, and whether they are signed (R111, R243). -/
def varintTags : List (Instr × VWidth × Bool) :=
  [(.sv2, .v16, true), (.uv2, .v16, false), (.sv4, .v32, true), (.uv4, .v32, false), (.sv8, .v64, true),
   (.uv8, .v64, false)]

/-- The arrays of COUNT elements with their element widths (R111, R246). -/
def arrayTags (count : Nat) : List (Instr × Width) :=
  [(.ar1 count, .w8), (.ar2 count, .w16), (.ar4 count, .w32), (.ar8 count, .w64)]

end Sys2Proof.Machine
end

