-- ==== Sys2Proof/Certificates/Slice0/Obligations.lean ====
section
/-! DEFINITION. The statements for the provers. Each docstring names the rule of spec/ it formalises. -/

open Sys2Proof Sys2Proof.Machine

/-! ## Encoding -/

/-- Words written out from the spec decode to the instructions they stand for (95_test_vectors.md sections 2.4, 2.7 and
3; R102, R111, R112). -/
def Obligations.SpecWordsDecode : Prop :=
  decodeCommand { word := 0x00004106#32 } = .ok (.push 0x41#8) ∧
  decodeCommand { word := 0x0000070A#32, lanes := { v := 3#32 } } = .ok (.writeReg 0x07#8 3#32) ∧
  decodeCommand { word := 0x00000005#32, lanes := { s := 10#32, t := 10#32 } } = .ok (.setCursors 10#32 10#32) ∧
  decodeCommand { word := 0xFFFF0000#32 } = .ok .nop ∧
  decodeEntry 0x00000801#32 = .ok (.adr 8) ∧
  decodeEntry 0x00000502#32 = .ok (.str 5) ∧
  decodeEntry 0x00000303#32 = .ok (.st2 3) ∧
  decodeEntry 0x0000000B#32 = .ok .si4 ∧
  decodeEntry 0x00000015#32 = .ok .sv4 ∧
  decodeEntry 0x0000021D#32 = .ok (.bsc 2) ∧
  decodeEntry 0x0000101E#32 = .ok (.obj .p1 4) ∧
  decodeEntry 0x0000111E#32 = .ok (.obj .p2 4)

/-- The decoder reads every well-formed instruction back from its encoding, operands included (R100, R102, R110, R111,
R112). -/
def Obligations.DecodeEncodeAgree : Prop :=
  ∀ i : Instr, i.wf = true → decode (encode i) = .ok i

/-- R103: bits 31:16 of a command word mean nothing, IMM8 means nothing outside PUSH, READ_REG and WRITE_REG, and an
opcode of 0x0C..0xFF gets INVALID_OPERATION and changes no state. -/
def Obligations.ReservedCommandBits : Prop :=
  (∀ (w w' : Word) (ops : Operands), opcOf w = opcOf w' → imm8Of w = imm8Of w' →
    decodeCommand { word := w, lanes := ops } = decodeCommand { word := w', lanes := ops }) ∧
  (∀ (w w' : Word) (ops : Operands), opcOf w = opcOf w' →
    opcOf w ≠ 0x06#8 → opcOf w ≠ 0x09#8 → opcOf w ≠ 0x0A#8 →
    decodeCommand { word := w, lanes := ops } = decodeCommand { word := w', lanes := ops }) ∧
  (∀ (s : State) (c : Issue) (rest : List Issue), s.msg = none → s.port = c :: rest → 0x0C ≤ (opcOf c.word).toNat →
    step s = .next { s with port := rest, response := responded .invalidOperation .none })

/-- R114: an entry of a tag without a qualifier is read by its tag alone; an entry of a tag with one is read by every
one of its bits. -/
def Obligations.EntryUnusedBits : Prop :=
  ∀ e e' : Entry, tagOf e = tagOf e' →
    let qualified := (1 ≤ (tagOf e).toNat ∧ (tagOf e).toNat ≤ 4) ∨ (25 ≤ (tagOf e).toNat ∧ (tagOf e).toNat ≤ 30)
    (¬ qualified → decodeEntry e = decodeEntry e') ∧
    (qualified → decodeEntry e = decodeEntry e' → e = e')

/-- R112: how each tag reads its qualifier: `QUAL` unsigned and unscaled, and OBJ's prefix width and its 22-bit OMAX. -/
def Obligations.QualifierAssembly : Prop :=
  ∀ e : Entry,
    (tagOf e = 1#8 → decodeEntry e = .ok (.adr (e >>> 8).toNat)) ∧
    (tagOf e = 2#8 → decodeEntry e = .ok (.str (e >>> 8).toNat)) ∧
    (tagOf e = 3#8 → decodeEntry e = .ok (.st2 (e >>> 8).toNat)) ∧
    (tagOf e = 4#8 → decodeEntry e = .ok (.st4 (e >>> 8).toNat)) ∧
    (tagOf e = 25#8 → decodeEntry e = .ok (.ar1 (e >>> 8).toNat)) ∧
    (tagOf e = 26#8 → decodeEntry e = .ok (.ar2 (e >>> 8).toNat)) ∧
    (tagOf e = 27#8 → decodeEntry e = .ok (.ar4 (e >>> 8).toNat)) ∧
    (tagOf e = 28#8 → decodeEntry e = .ok (.ar8 (e >>> 8).toNat)) ∧
    (tagOf e = 29#8 → decodeEntry e = .ok (.bsc (e >>> 8).toNat)) ∧
    (tagOf e = 30#8 → ∃ pw : PrefixWidth, decodeEntry e = .ok (.obj pw (e >>> 10).toNat) ∧
      pw.bytes = 2 ^ ((e >>> 8).toNat % 4)) ∧
    (tagOf e = 0#8 ∨ (5 ≤ (tagOf e).toNat ∧ (tagOf e).toNat ≤ 24) →
      ∀ e' : Entry, tagOf e' = tagOf e → decodeEntry e' = decodeEntry e)

/-! ## The step and the engine -/

/-- The step runs what it decodes: the oldest command of the port, the entry that an open message has reached, and
nothing where neither waits (R80, R231, R323, R410; the idle step is log entry 5, the step inside a message log entry
4). -/
def Obligations.StepRunsDecoded : Prop :=
  (∀ (s : State) (c : Issue) (rest : List Issue) (i : Instr), s.msg = none → s.port = c :: rest →
    decodeCommand c = .ok i → step s = exec i { s with port := rest }) ∧
  (∀ (s : State) (m : Message) (e : Entry) (i : Instr), s.msg = some m → m.nextEntry = some e →
    decodeEntry e = .ok i → step s = exec i s) ∧
  (∀ s : State, s.msg = none → s.port = [] → step s = .next s)

/-- ENCODE and DECODE past their pre-checks are the steps of their entries and trailers, run to the end as one command
(R75, R231, R323). -/
def Obligations.CommandIsItsSteps : Prop :=
  ∀ (s : State) (desc : List Entry), s.port = [] → s.cursorsInRing = true →
    (∀ args, encReady s desc args →
      exec (.encode desc args) s = Host.Core.run Sys2Proof.core (2 * desc.length + 1) (encOpened s desc args)) ∧
    (decReady s desc →
      exec (.decode desc) s = Host.Core.run Sys2Proof.core (2 * desc.length + 1) (decOpened s desc))

/-- R113, R433: a reserved tag, or ST2 or ST4 with its feature off, fails with its own kind when its entry is reached,
with nothing written or read. -/
def Obligations.ReservedTagRaises : Prop :=
  ∀ (s : State) (m : Message) (e : Entry), s.msg = some m → s.cursorsInRing = true → m.cur < s.params.cap →
    m.nextEntry = some e →
    (31 ≤ (tagOf e).toNat → step s = .next (entryFailed s m .invalidType)) ∧
    (tagOf e = 3#8 → s.params.featUtf16 = false → step s = .next (entryFailed s m .utf16Disabled)) ∧
    (tagOf e = 4#8 → s.params.featUtf32 = false → step s = .next (entryFailed s m .utf32Disabled))

/-- An entry of an ENCODE whose argument slot is missing fails with INVALID_ARGUMENT before anything is written, once
its tag is known to be enabled (R234, R235). -/
def Obligations.MissingSlotRaises : Prop :=
  ∀ (s : State) (m : Message) (i : Instr), EncTurn s m → isEntry i = true → enabled s.params i = true →
    m.slot = none → exec i s = .next (fieldFailed s m [] .invalidArgument)

/-- An entry means nothing outside ENCODE and DECODE: the model refuses it by name (log entry 10; the spec runs entries
only inside the two commands, R115, R231, R323). -/
def Obligations.EntryOutsideCommand : Prop :=
  ∀ (s : State) (i : Instr), isEntry i = true → s.msg = none → exec i s = .refused .noMessageOpen

/-! ## Entries in an ENCODE -/

/-- R241 and R331: NIL writes and reads no bytes; its slot must be present and may hold anything; its value is NIL. -/
def Obligations.NilCompletes : Prop :=
  ∀ (s : State) (m : Message),
    (∀ a, EncTurn s m → m.slot = some a → exec .nil s = .next (fieldWritten s m [])) ∧
    (EncTurn s m → m.slot = none → exec .nil s = .next (fieldFailed s m [] .invalidArgument)) ∧
    (DecTurn s m → exec .nil s = .next (fieldRead s m none 0 .nil))

/-- R242: SI1, UI1, BOL, SI2, UI2, HLF, SI4, UI4, FLT, TMS, SI8, UI8, DBL and TMU write their word's W bytes lowest
first, or fail with nothing written. -/
def Obligations.ScalarEncodes : Prop :=
  ∀ (s : State) (m : Message) (a : Arg), EncTurn s m → m.slot = some a → ∀ p ∈ scalarTags,
    (∀ v : BitVec p.2.bits, a = .data (.word p.2 v) →
      (p.2.bytes ≤ s.roomAt m.cur → exec p.1 s = .next (fieldWritten s m (le p.2.bytes v.toNat))) ∧
      (s.roomAt m.cur < p.2.bytes → exec p.1 s = .next (fieldFailed s m [] .bufferOverflow))) ∧
    ((∀ v : BitVec p.2.bits, a ≠ .data (.word p.2 v)) → exec p.1 s = .next (fieldFailed s m [] .invalidArgument))

/-- R243, R189: SV2, UV2, SV4, UV4, SV8 and UV8 write their packed value; where the room ends first, the bytes that fit
stay in the free region and the error address is the first that did not. -/
def Obligations.VarintEncodes : Prop :=
  ∀ (s : State) (m : Message) (a : Arg), EncTurn s m → m.slot = some a → ∀ p ∈ varintTags,
    (∀ v : BitVec p.2.1.width.bits, a = .data (.word p.2.1.width v) →
      let bs := pack p.2.1 (if p.2.2 then zzEnc v else v)
      (bs.length ≤ s.roomAt m.cur → exec p.1 s = .next (fieldWritten s m bs)) ∧
      (s.roomAt m.cur < bs.length →
        exec p.1 s = .next (fieldFailed s m (bs.take (s.roomAt m.cur)) .bufferOverflow))) ∧
    ((∀ v : BitVec p.2.1.width.bits, a ≠ .data (.word p.2.1.width v)) →
      exec p.1 s = .next (fieldFailed s m [] .invalidArgument))

/-- R244, R248: ADR(MAXLEN) writes the address up to its first zero and zero bytes up to MAXLEN, or fails with nothing
written. -/
def Obligations.AdrEncodes : Prop :=
  ∀ (s : State) (m : Message) (a : Arg) (maxlen : Nat), EncTurn s m → m.slot = some a →
    (∀ bs, a = .data (.bytes bs) →
      let l := (untilNul bs).length
      (l ≤ maxlen → maxlen ≤ s.roomAt m.cur →
        exec (.adr maxlen) s = .next (fieldWritten s m (untilNul bs ++ List.replicate (maxlen - l) 0#8))) ∧
      (maxlen < l → exec (.adr maxlen) s = .next (fieldFailed s m [] .stringOverflow)) ∧
      (l ≤ maxlen → s.roomAt m.cur < maxlen →
        exec (.adr maxlen) s = .next (fieldFailed s m [] .bufferOverflow))) ∧
    ((∀ bs, a ≠ .data (.bytes bs)) → exec (.adr maxlen) s = .next (fieldFailed s m [] .invalidArgument))

/-- R245, R248: STR, ST2 and ST4 write their units up to the first zero and a zero unit, each unit checked against
MAXLEN and then against the room. -/
def Obligations.StringEncodes : Prop :=
  ∀ (s : State) (m : Message) (a : Arg) (maxlen : Nat), EncTurn s m → m.slot = some a →
    (∀ bs, a = .data (.bytes bs) →
      exec (.str maxlen) s = .next (stringOutcome s m 1 maxlen ((untilNul bs).map BitVec.toNat))) ∧
    ((∀ bs, a ≠ .data (.bytes bs)) → exec (.str maxlen) s = .next (fieldFailed s m [] .invalidArgument)) ∧
    (s.params.featUtf16 = true →
      (∀ us, a = .data (.units .u16 us) →
        exec (.st2 maxlen) s = .next (stringOutcome s m 2 maxlen ((untilNul us).map BitVec.toNat))) ∧
      ((∀ us, a ≠ .data (.units .u16 us)) →
        exec (.st2 maxlen) s = .next (fieldFailed s m [] .invalidArgument))) ∧
    (s.params.featUtf32 = true →
      (∀ us, a = .data (.units .u32 us) →
        exec (.st4 maxlen) s = .next (stringOutcome s m 4 maxlen ((untilNul us).map BitVec.toNat))) ∧
      ((∀ us, a ≠ .data (.units .u32 us)) →
        exec (.st4 maxlen) s = .next (fieldFailed s m [] .invalidArgument)))

/-- A string that fits its MAXLEN and the room, terminator included, is written whole: the completing case of STR, ST2
and ST4 (R245). -/
def Obligations.StringCompletes : Prop :=
  ∀ (s : State) (m : Message) (maxlen : Nat), EncTurn s m →
    (∀ bs, m.slot = some (.data (.bytes bs)) → (untilNul bs).length + 1 ≤ maxlen →
      (untilNul bs).length + 1 ≤ s.roomAt m.cur →
      exec (.str maxlen) s = .next (fieldWritten s m (untilNul bs ++ [0#8]))) ∧
    (∀ us, s.params.featUtf16 = true → m.slot = some (.data (.units .u16 us)) → (untilNul us).length + 1 ≤ maxlen →
      2 * ((untilNul us).length + 1) ≤ s.roomAt m.cur →
      exec (.st2 maxlen) s = .next (fieldWritten s m ((untilNul us ++ [0]).flatMap (fun (c : BitVec UnitWidth.u16.bits) => le 2 c.toNat)))) ∧
    (∀ us, s.params.featUtf32 = true → m.slot = some (.data (.units .u32 us)) → (untilNul us).length + 1 ≤ maxlen →
      4 * ((untilNul us).length + 1) ≤ s.roomAt m.cur →
      exec (.st4 maxlen) s = .next (fieldWritten s m ((untilNul us ++ [0]).flatMap (fun (c : BitVec UnitWidth.u32.bits) => le 4 c.toNat))))

/-- R246: AR1, AR2, AR4 and AR8 write exactly COUNT elements, each lowest byte first, or fail with nothing written. -/
def Obligations.ArrayEncodes : Prop :=
  ∀ (s : State) (m : Message) (a : Arg) (count : Nat), EncTurn s m → m.slot = some a → ∀ p ∈ arrayTags count,
    (∀ es : List (BitVec p.2.bits), a = .data (.elems p.2 es) →
      (es.length = count → p.2.bytes * count ≤ s.roomAt m.cur →
        exec p.1 s = .next (fieldWritten s m (es.flatMap (fun x => le p.2.bytes x.toNat)))) ∧
      (count < es.length → exec p.1 s = .next (fieldFailed s m [] .arrayOverflow)) ∧
      (es.length < count → exec p.1 s = .next (fieldFailed s m [] .invalidArgument)) ∧
      (es.length = count → s.roomAt m.cur < p.2.bytes * count →
        exec p.1 s = .next (fieldFailed s m [] .bufferOverflow))) ∧
    ((∀ es : List (BitVec p.2.bits), a ≠ .data (.elems p.2 es)) →
      exec p.1 s = .next (fieldFailed s m [] .invalidArgument))

/-- R247: OBJ writes its prefix and the L payload bytes the prefix counts, or fails with nothing written; the checks in
the rule's order. -/
def Obligations.ObjEncodes : Prop :=
  ∀ (s : State) (m : Message) (a : Arg) (pw : PrefixWidth) (omax : Nat), EncTurn s m → m.slot = some a →
    (∀ bs, a = .data (.bytes bs) →
      let l := unle (bs.take pw.bytes)
      (bs.length < pw.bytes → exec (.obj pw omax) s = .next (fieldFailed s m [] .invalidArgument)) ∧
      (pw.bytes ≤ bs.length → omax < l → exec (.obj pw omax) s = .next (fieldFailed s m [] .arrayOverflow)) ∧
      (pw.bytes ≤ bs.length → l ≤ omax → bs.length < pw.bytes + l →
        exec (.obj pw omax) s = .next (fieldFailed s m [] .invalidArgument)) ∧
      (l ≤ omax → pw.bytes + l ≤ bs.length → s.roomAt m.cur < pw.bytes + l →
        exec (.obj pw omax) s = .next (fieldFailed s m [] .bufferOverflow)) ∧
      (l ≤ omax → pw.bytes + l ≤ bs.length → pw.bytes + l ≤ s.roomAt m.cur →
        exec (.obj pw omax) s = .next (fieldWritten s m (bs.take (pw.bytes + l))))) ∧
    ((∀ bs, a ≠ .data (.bytes bs)) → exec (.obj pw omax) s = .next (fieldFailed s m [] .invalidArgument))

/-- BSC(N) opens an inner message of the next N entries with a seeded accumulator, or fails where it leaves its range or
nests too deep; the two commands alike, but that an ENCODE wants its slot (R240, R330, R235). -/
def Obligations.BscOpens : Prop :=
  ∀ (s : State) (m : Message) (n : Nat), (EncTurn s m ∧ m.slot ≠ none) ∨ DecTurn s m →
    (n = 0 ∨ m.hi < m.i + 1 + n → exec (.bsc n) s = .next (entryFailed s m .invalidOperation)) ∧
    (n ≠ 0 → m.i + 1 + n ≤ m.hi → s.params.nestMax < m.inner.length + 1 →
      exec (.bsc n) s = .next (entryFailed s m .tooManyParams)) ∧
    (n ≠ 0 → m.i + 1 + n ≤ m.hi → m.inner.length + 1 ≤ s.params.nestMax →
      exec (.bsc n) s = .next { s with msg := some { m with
        i := m.i + 1
        inner := { hash := s.params.hashSeed, hi := m.i + 1 + n, index := m.i } :: m.inner } })

/-! ## Entries in a DECODE -/

/-- R332: the fixed scalars read W bytes under Pod and give their little-endian word, or underflow with nothing
read. -/
def Obligations.ScalarDecodes : Prop :=
  ∀ (s : State) (m : Message), DecTurn s m → ∀ p ∈ scalarTags,
    (p.2.bytes ≤ s.availAt m.cur →
      exec p.1 s = .next (fieldRead s m (some .pod) p.2.bytes
        (.data (.word p.2 (BitVec.ofNat p.2.bits (unle (s.ringBytes p.2.bytes m.cur))))))) ∧
    (s.availAt m.cur < p.2.bytes → exec p.1 s = .next (readFailed s m (some .pod) 0 .bufferUnderflow m.cur))

/-- R333: the varints read under Varint what `unpack_W` takes of the available bytes, the signed tags undoing the
zigzag; its error is reported at the byte at fault. -/
def Obligations.VarintDecodes : Prop :=
  ∀ (s : State) (m : Message), DecTurn s m → ∀ p ∈ varintTags,
    (∀ v used, unpack p.2.1 (s.ringBytes (s.availAt m.cur) m.cur) = .value v used →
      let u := BitVec.ofNat p.2.1.width.bits v
      exec p.1 s = .next (fieldRead s m (some .varint) used
        (.data (.word p.2.1.width (if p.2.2 then zzDec u else u))))) ∧
    (∀ k offset used, unpack p.2.1 (s.ringBytes (s.availAt m.cur) m.cur) = .fail k offset used →
      exec p.1 s = .next (readFailed s m (some .varint) used k (advN s.params.cap offset m.cur)))

/-- R334: ADR(MAXLEN) reads MAXLEN bytes under Address and gives those before the first zero, or underflows with nothing
read. -/
def Obligations.AdrDecodes : Prop :=
  ∀ (s : State) (m : Message) (maxlen : Nat), DecTurn s m →
    (maxlen ≤ s.availAt m.cur →
      exec (.adr maxlen) s = .next (fieldRead s m (some .address) maxlen
        (.data (.bytes (untilNul (s.ringBytes maxlen m.cur)))))) ∧
    (s.availAt m.cur < maxlen →
      exec (.adr maxlen) s = .next (readFailed s m (some .address) 0 .bufferUnderflow m.cur))

/-- R335: STR, ST2 and ST4 read units under Utf8, Utf16 and Utf32 up to and including the first zero unit, which is not
part of the value. -/
def Obligations.StringDecodes : Prop :=
  ∀ (s : State) (m : Message) (maxlen : Nat), DecTurn s m →
    StringReads s m (.str maxlen) 1 maxlen .utf8 (fun us => .bytes (us.map (BitVec.ofNat 8))) ∧
    (s.params.featUtf16 = true →
      StringReads s m (.st2 maxlen) 2 maxlen .utf16 (fun us => .units .u16 (us.map (BitVec.ofNat 16)))) ∧
    (s.params.featUtf32 = true →
      StringReads s m (.st4 maxlen) 4 maxlen .utf32 (fun us => .units .u32 (us.map (BitVec.ofNat 32))))

/-- R336: the arrays read COUNT elements under Pod, each lowest byte first, or underflow with nothing read. -/
def Obligations.ArrayDecodes : Prop :=
  ∀ (s : State) (m : Message) (count : Nat), DecTurn s m → ∀ p ∈ arrayTags count,
    (p.2.bytes * count ≤ s.availAt m.cur →
      exec p.1 s = .next (fieldRead s m (some .pod) (p.2.bytes * count)
        (.data (.elems p.2 ((List.range count).map (fun k =>
          BitVec.ofNat p.2.bits (unle (s.ringBytes p.2.bytes (advN s.params.cap (p.2.bytes * k) m.cur))))))))) ∧
    (s.availAt m.cur < p.2.bytes * count →
      exec p.1 s = .next (readFailed s m (some .pod) 0 .bufferUnderflow m.cur))

/-- R337: OBJ reads its prefix under the Object state of its width, and then the payload the prefix counts; the value
keeps the prefix. -/
def Obligations.ObjDecodes : Prop :=
  ∀ (s : State) (m : Message) (pw : PrefixWidth) (omax : Nat), DecTurn s m →
    let l := unle (s.ringBytes pw.bytes m.cur)
    let sub := some (objState pw)
    (s.availAt m.cur < pw.bytes → exec (.obj pw omax) s = .next (readFailed s m sub 0 .bufferUnderflow m.cur)) ∧
    (pw.bytes ≤ s.availAt m.cur → omax < l →
      exec (.obj pw omax) s = .next (readFailed s m sub pw.bytes .arrayOverflow m.cur)) ∧
    (pw.bytes ≤ s.availAt m.cur → l ≤ omax → s.availAt m.cur < pw.bytes + l →
      exec (.obj pw omax) s = .next (readFailed s m sub pw.bytes .bufferUnderflow
        (advN s.params.cap pw.bytes m.cur))) ∧
    (l ≤ omax → pw.bytes + l ≤ s.availAt m.cur →
      exec (.obj pw omax) s = .next (fieldRead s m sub (pw.bytes + l)
        (.data (.bytes (s.ringBytes (pw.bytes + l) m.cur)))))

/-! ## Trailers -/

/-- The end of a range in an ENCODE writes the innermost message's hash, low byte first, and commits it; a level-0
trailer ends the command in success (R237, R238), an inner one folds into the outer levels only (R214). With less than
two bytes of room nothing is written. -/
def Obligations.EncodeTrailer : Prop :=
  ∀ (s : State) (m : Message), EncTurn s m → m.nextEntry = none →
    let p := s.params
    let lo := m.top.setWidth 8
    let hi := (m.top >>> 8).setWidth 8
    let stop := BitVec.ofNat 32 (advN p.cap 2 m.cur)
    (s.roomAt m.cur < 2 →
      step s = .next { s with
        hash := m.hash0, errKind := .bufferOverflow, errIndex := BitVec.ofNat 32 m.trailerIndex,
        errAddr := BitVec.ofNat 32 m.cur, response := responded .bufferOverflow .none, msg := none }) ∧
    (2 ≤ s.roomAt m.cur → m.inner = [] →
      step s = .next { s.writeRun m.cur [lo, hi] with
        stop := stop, hash := m.hash0, errKind := .none, errIndex := 0, errAddr := 0,
        response := responded .none .none, msg := none }) ∧
    (∀ l outer, 2 ≤ s.roomAt m.cur → m.inner = l :: outer →
      step s = .next { s.writeRun m.cur [lo, hi] with
        stop := stop
        msg := some { m with
          cur := advN p.cap 2 m.cur
          hash0 := hashBytes p.hashMul m.hash0 [lo, hi]
          inner := outer.map (fun o => { o with hash := hashBytes p.hashMul o.hash [lo, hi] }) } })

/-- The end of a range in a DECODE enters Hash and checks the two trailer bytes against the innermost message's hash; a
level-0 match commits START and ends the command in success, an inner match goes back to Args; a mismatch is
INVALID_HASH at the low byte, and fewer than two bytes BUFFER_UNDERFLOW (R325, R326, R327). -/
def Obligations.DecodeTrailer : Prop :=
  ∀ (s : State) (m : Message), DecTurn s m → m.nextEntry = none →
    let p := s.params
    let two := s.ringBytes 2 m.cur
    let outerHash := if m.inner = [] then m.hash0 else hashBytes p.hashMul m.hash0 two
    let ends (k : ErrKind) (h : Half) : State :=
      { s with
        hash := h, dstate := .error, trace := s.trace ++ [.hash, .error], errKind := k,
        errIndex := BitVec.ofNat 32 m.trailerIndex, errAddr := BitVec.ofNat 32 m.cur,
        response := responded k .none, msg := none }
    (s.availAt m.cur < 2 → step s = .next (ends .bufferUnderflow m.hash0)) ∧
    (2 ≤ s.availAt m.cur → unle two ≠ m.top.toNat → step s = .next (ends .invalidHash outerHash)) ∧
    (2 ≤ s.availAt m.cur → unle two = m.top.toNat → m.inner = [] →
      step s = .next { s with
        start := BitVec.ofNat 32 (advN p.cap 2 m.cur), hash := m.hash0, dstate := initialState s.dmode,
        trace := s.trace ++ [.hash, initialState s.dmode], errKind := .none, errIndex := 0, errAddr := 0,
        response := responded .none (.values m.vals), msg := none }) ∧
    (∀ l outer, 2 ≤ s.availAt m.cur → unle two = m.top.toNat → m.inner = l :: outer →
      step s = .next { s with
        dstate := .args, trace := s.trace ++ [.hash, .args]
        msg := some { m with
          cur := advN p.cap 2 m.cur
          hash0 := hashBytes p.hashMul m.hash0 two
          inner := outer.map (fun o => { o with hash := hashBytes p.hashMul o.hash two }) } })

/-! ## ENCODE and DECODE as whole commands -/

/-- The pre-checks of ENCODE, in their order, each leaving everything but the error record and the response alone (R230,
R84, R441). -/
def Obligations.EncodePrechecks : Prop :=
  ∀ (s : State) (desc : List Entry) (args : List Arg),
    let raised (k : ErrKind) (index : Nat) : Out := .next { s with
      errKind := k, errIndex := BitVec.ofNat 32 index, errAddr := s.stop, response := responded k .none }
    (s.lock = true → exec (.encode desc args) s = raised .locked 0) ∧
    (s.lock = false → desc = [] ∨ args = [] → exec (.encode desc args) s = raised .invalidOperation 0) ∧
    (s.lock = false → desc ≠ [] → args ≠ [] → s.params.paramMax < desc.length →
      exec (.encode desc args) s = raised .tooManyParams s.params.paramMax)

/-- ENCODE completes: where its pre-checks hold, every entry has a field for its argument, and the body and trailer fit
the free space, the message is written at STOP, committed, and its hash is in HASH; nothing else changes (R116, R230,
R238). -/
def Obligations.EncodeWritesMessage : Prop :=
  ∀ (s : State) (desc : List Entry) (args : List Arg) (body : List Byte),
    s.cursorsInRing = true → s.msg = none → encReady s desc args → messageBody s.params desc args = some body →
    body.length + 2 ≤ s.space →
    exec (.encode desc args) s = .next { s.writeRun s.stop.toNat (body ++ trailerOf s.params body) with
      stop := BitVec.ofNat 32 (advN s.params.cap (body.length + 2) s.stop.toNat)
      hash := hashBytes s.params.hashMul s.params.hashSeed body
      errKind := .none, errIndex := 0, errAddr := 0, response := responded .none .none }

/-- ENCODE succeeds only so: a NONE response means that every entry had a field and that the message fitted (R234,
R238, R239). -/
def Obligations.EncodeSucceedsOnlyThen : Prop :=
  ∀ (s t : State) (desc : List Entry) (args : List Arg), s.msg = none → exec (.encode desc args) s = .next t →
    t.response = responded .none .none →
    encReady s desc args ∧ ∃ body, messageBody s.params desc args = some body ∧ body.length + 2 ≤ s.space

/-- ENCODE, whatever its outcome, writes STOP, HASH, the error record, the response and free-region bytes, and nothing
else: no byte of the occupied region changes (R230, R233, R313). -/
def Obligations.EncodeFrame : Prop :=
  ∀ (s t : State) (desc : List Entry) (args : List Arg), s.msg = none → exec (.encode desc args) s = .next t →
    t.params = s.params ∧ t.start = s.start ∧ t.dstate = s.dstate ∧ t.config = s.config ∧ t.msg = none ∧
    t.port = s.port ∧ t.trace = s.trace ∧
    ∀ c, s.isOccupied c ∨ s.params.cap ≤ c → t.bufRead c = s.bufRead c

/-- DECODE is refused in Error with no change but its response and its (empty) trace; its pre-checks then come in their
order and leave HASH, the cursors and BUF alone (R316, R317, R318, R320). -/
def Obligations.DecodePrechecks : Prop :=
  ∀ (s : State) (desc : List Entry),
    let raised (d : DState) (k : ErrKind) (index : Nat) : Out := .next { s with
      dstate := d, trace := [d], errKind := k, errIndex := BitVec.ofNat 32 index, errAddr := s.start,
      response := responded k .none }
    (s.dstate = .error →
      exec (.decode desc) s = .next { s with trace := [], response := responded .invalidOperation .none }) ∧
    (s.dstate ≠ .error → s.lock = true → exec (.decode desc) s = raised .locked .locked 0) ∧
    (s.dstate ≠ .error → s.lock = false → desc = [] → exec (.decode desc) s = raised .error .invalidOperation 0) ∧
    (s.dstate ≠ .error → s.lock = false → s.params.paramMax < desc.length → desc ≠ [] →
      exec (.decode desc) s = raised .error .tooManyParams s.params.paramMax) ∧
    (s.dstate ≠ .error → s.lock = false → desc ≠ [] → desc.length ≤ s.params.paramMax → s.dmode = true →
      leadsWithAdr desc = false → exec (.decode desc) s = raised .error .invalidType 0)

/-- DECODE completes: where its pre-checks hold and the occupied region begins with a message of its descriptor, it
takes the message out, gives back the values, and passes through the states its tags name (R314, R325, R326, R328). -/
def Obligations.DecodeReadsMessage : Prop :=
  ∀ (s : State) (desc : List Entry) (args : List Arg) (body rest : List Byte),
    s.cursorsInRing = true → s.msg = none → decReady s desc → messageBody s.params desc args = some body →
    s.occupied = body ++ trailerOf s.params body ++ rest →
    exec (.decode desc) s = .next { s with
      start := BitVec.ofNat 32 (advN s.params.cap (body.length + 2) s.start.toNat)
      hash := hashBytes s.params.hashMul s.params.hashSeed body
      dstate := initialState s.dmode
      trace := messageTrace s.dmode desc
      errKind := .none, errIndex := 0, errAddr := 0
      response := responded .none (.values (messageValues desc args)) }

/-- DECODE, whatever its outcome, never writes STOP, BUF or CONFIG; unless it succeeds it leaves START, returns no
values, and leaves DSTATE in Error or Locked (R316, R317, R320, R327). -/
def Obligations.DecodeFrame : Prop :=
  ∀ (s t : State) (desc : List Entry), s.msg = none → exec (.decode desc) s = .next t →
    t.params = s.params ∧ t.buf = s.buf ∧ t.stop = s.stop ∧ t.config = s.config ∧ t.msg = none ∧ t.port = s.port ∧
    ((∃ vals, t.response = responded .none (.values vals) ∧ vals.length = desc.length ∧
        t.dstate = initialState s.dmode) ∨
     (t.start = s.start ∧ (t.dstate = .error ∨ t.dstate = .locked) ∧
        ∃ k, k ≠ .none ∧ t.response = responded k .none))

/-- R329, the round-trip law: where ENCODE(D, A) succeeded and the bytes of its message lie unchanged at START of a
block of the same parameters that is ready to decode, DECODE(D) succeeds, consumes exactly the message, and gives back
the arguments in value form. -/
def Obligations.RoundTrip : Prop :=
  ∀ (s t u : State) (desc : List Entry) (args : List Arg),
    Inv s → exec (.encode desc args) s = .next t → t.response = responded .none .none →
    Inv u → u.params = s.params → decReady u desc → u.start = s.stop →
    let n := ringLen s.params.cap s.stop.toNat t.stop.toNat
    n ≤ u.len → u.ringBytes n u.start.toNat = t.ringBytes n s.stop.toNat →
    ∃ v, exec (.decode desc) u = .next v ∧ v.start = t.stop ∧ v.hash = t.hash ∧
      v.response = responded .none (.values (messageValues desc args))

/-! ## The ring -/

/-- R153, R154: space and length always make up CAP - 1; what empty and full mean. The length is the circular distance
(R150). -/
def Obligations.RingGuarantee : Prop :=
  ∀ cap s t : Nat, s < cap → t < cap →
    (ringLen cap s t : Int) = ((t : Int) - s) % cap ∧
    ringSpace cap s t + ringLen cap s t = cap - 1 ∧
    (ringLen cap s t = 0 ↔ s = t) ∧
    (adv cap t = s ↔ ringSpace cap s t = 0) ∧
    (adv cap t = s ↔ ringLen cap s t = cap - 1) ∧
    (2 ≤ cap → adv cap t = s → s ≠ t) ∧
    (cap = 2 → ringLen cap s t ≤ 1)

/-- R159, R74: a run of at most CAP bytes lands at the indices `(c + k) mod CAP`, changes no other index, and reads
back as it was written wherever it starts. -/
def Obligations.RunsWrap : Prop :=
  ∀ (s : State) (c : Nat) (bs : List Byte), c < s.params.cap → bs.length ≤ s.params.cap →
    (∀ (k : Nat) (h : k < bs.length), (s.writeRun c bs).bufRead ((c + k) % s.params.cap) = bs[k]) ∧
    (∀ d, (∀ k < bs.length, d ≠ (c + k) % s.params.cap) → (s.writeRun c bs).bufRead d = s.bufRead d) ∧
    (s.writeRun c bs).ringBytes bs.length c = bs ∧
    advN s.params.cap bs.length c = (c + bs.length) % s.params.cap

/-! ## Varints and the hash -/

/-- R180, R181: the zigzag transform sends a signed n to 2n or -2n - 1, and its inverse undoes it both ways. -/
def Obligations.ZigzagBijection : Prop :=
  ∀ vw : VWidth,
    (∀ n : BitVec vw.width.bits,
      zzEnc n = (n <<< 1) ^^^ n.sshiftRight (vw.width.bits - 1) ∧
      ((zzEnc n).toNat : Int) = (if 0 ≤ n.toInt then 2 * n.toInt else -2 * n.toInt - 1) ∧ zzDec (zzEnc n) = n) ∧
    (∀ u : BitVec vw.width.bits, zzDec u = (u >>> 1) ^^^ (0 - (u &&& 1)) ∧ zzEnc (zzDec u) = u)

/-- R184: the length of a packed value is one byte for every seven bits, at least one and at most 3, 5 or 10. -/
def Obligations.PackLength : Prop :=
  ∀ (vw : VWidth) (u : BitVec vw.width.bits),
    let bitlen := if u = 0 then 0 else Nat.log2 u.toNat + 1
    (pack vw u).length = max 1 ((bitlen + 6) / 7) ∧ (pack vw u).length ≤ vw.maxBytes

/-- Only the last byte of a packed value has its stop bit set, but for a tenth byte of a 64-bit value, which is 1
(R182, R183). -/
def Obligations.PackStopBit : Prop :=
  ∀ (vw : VWidth) (u : BitVec vw.width.bits) (k : Nat) (h : k < (pack vw u).length),
    (k + 1 < (pack vw u).length → (pack vw u)[k].getLsbD 7 = false) ∧
    (k + 1 = (pack vw u).length → k < 9 → (pack vw u)[k].getLsbD 7 = true) ∧
    (k = 9 → (pack vw u)[k] = 1#8)

/-- R188: unpacking a packed value, with any bytes after it, gives the value back and takes exactly its bytes; likewise
through the zigzag transform. -/
def Obligations.UnpackPack : Prop :=
  ∀ (vw : VWidth) (x : BitVec vw.width.bits) (rest : List Byte),
    unpack vw (pack vw x ++ rest) = .value x.toNat (pack vw x).length ∧
    ∃ v, unpack vw (pack vw (zzEnc x) ++ rest) = .value v (pack vw (zzEnc x)).length ∧
      zzDec (BitVec.ofNat vw.width.bits v) = x

/-- R191: a varint ends at its first byte with the stop bit set, or at the tenth byte of a 64-bit one; no more than
MAXB(W) bytes are read, and the value fits its width. -/
def Obligations.VarintEnds : Prop :=
  ∀ (vw : VWidth) (bs : List Byte),
    (∀ v used, unpack vw bs = .value v used →
      v < 2 ^ vw.width.bits ∧ 0 < used ∧ used ≤ vw.maxBytes ∧ ∃ h : used ≤ bs.length,
        (∀ (k : Nat) (hk : k + 1 < used), (bs[k]'(by omega)).getLsbD 7 = false) ∧
        (∀ hu : used - 1 < bs.length, bs[used - 1].getLsbD 7 = true ∨ (vw = .v64 ∧ used = 10))) ∧
    (∀ k offset used, unpack vw bs = .fail k offset used →
      (k = .varintOverflow ∨ k = .bufferUnderflow) ∧ used ≤ vw.maxBytes ∧ used ≤ bs.length ∧ offset ≤ used)

/-- The hash in closed form, and what follows: bytes of the same sum hash alike, and with an odd multiplier a change of
one byte changes the hash (R217, R218; the additive function R211 and its constants are the spec's general knowledge,
log entry 2). -/
def Obligations.HashClosedForm : Prop :=
  ∀ (mul seed : Half) (bs : List Byte),
    hashBytes mul seed bs = seed + mul * BitVec.ofNat 16 (bs.map BitVec.toNat).sum ∧
    (∀ cs : List Byte, bs.Perm cs → hashBytes mul seed bs = hashBytes mul seed cs) ∧
    (∀ (k : Nat) (b : Byte) (h : k < bs.length), mul.getLsbD 0 = true → b ≠ bs[k] →
      hashBytes mul seed (bs.set k b) ≠ hashBytes mul seed bs)

/-! ## Reset -/

/-- R46: what power-on reset leaves, for every instance; a storage byte may be anything (`Config.powerOnByte` has
no body, log entry 3). -/
def Obligations.PowerOnState : Prop :=
  ∀ p : Params,
    let s := State.powerOn p
    s.params = p ∧ s.start = 0 ∧ s.stop = 0 ∧ s.hash = p.hashSeed ∧ s.dstate = .args ∧ s.config = 0 ∧
    s.errKind = .none ∧ s.errIndex = 0 ∧ s.errAddr = 0 ∧ s.msg = none ∧
    ∀ c, s.bufRead c = Config.powerOnByte c

/-- R408, R471: SOFT_RESET sets every register to its reset value, also under LOCK, and keeps BUF. -/
def Obligations.SoftResetState : Prop :=
  ∀ s : State, exec .softReset s = .next { s with
    start := 0, stop := 0, hash := s.params.hashSeed, dstate := .args, config := 0,
    errKind := .none, errIndex := 0, errAddr := 0, response := responded .none .none }

/-! ## The host interface -/

/-- R401: NOP only responds. -/
def Obligations.NopResponds : Prop :=
  ∀ s : State, exec .nop s = .next { s with response := responded .none .none }

/-- R402: SET_CURSORS loads both cursors and the idle state, or raises INVALID_ARGUMENT and changes nothing else. -/
def Obligations.SetCursorsLoads : Prop :=
  ∀ (s : State) (sv tv : Word),
    (sv.toNat < s.params.cap → tv.toNat < s.params.cap →
      exec (.setCursors sv tv) s = .next { s with
        start := sv, stop := tv, dstate := if s.config.getLsbD 0 then .address else .args
        errKind := .none, errIndex := 0, errAddr := 0, response := responded .none .none }) ∧
    (s.params.cap ≤ sv.toNat ∨ s.params.cap ≤ tv.toNat →
      exec (.setCursors sv tv) s = .next { s with
        errKind := .invalidArgument, errIndex := 0, errAddr := s.start, response := responded .invalidArgument .none })

/-- R403, R404: PUSH writes its byte at STOP and advances STOP, POP gives the byte at START and advances START; on a full
or an empty buffer they raise and change nothing else. -/
def Obligations.PushAndPop : Prop :=
  ∀ s : State, s.cursorsInRing = true →
    (∀ b, s.space ≠ 0 →
      exec (.push b) s = .next { s with
        buf := memWrite s.buf s.stop.toNat b, stop := BitVec.ofNat 32 (adv s.params.cap s.stop.toNat)
        errKind := .none, errIndex := 0, errAddr := 0, response := responded .none .none }) ∧
    (∀ b, s.space = 0 →
      exec (.push b) s = .next { s with
        errKind := .bufferOverflow, errIndex := 0, errAddr := s.stop, response := responded .bufferOverflow .none }) ∧
    (s.len ≠ 0 →
      exec .pop s = .next { s with
        start := BitVec.ofNat 32 (adv s.params.cap s.start.toNat)
        errKind := .none, errIndex := 0, errAddr := 0, response := responded .none (.byte (s.bufRead s.start.toNat)) }) ∧
    (s.len = 0 →
      exec .pop s = .next { s with
        errKind := .bufferUnderflow, errIndex := 0, errAddr := s.start, response := responded .bufferUnderflow .none })

/-- The occupied region is a queue: PUSH appends to it, POP takes its head, and neither touches any other byte
(R12, R157, R403, R404). -/
def Obligations.OccupiedIsQueue : Prop :=
  ∀ s : State, Inv s →
    (∀ b, s.space ≠ 0 → ∃ t, exec (.push b) s = .next t ∧ t.occupied = s.occupied ++ [b] ∧ t.start = s.start ∧
      ∀ c, c ≠ s.stop.toNat → t.bufRead c = s.bufRead c) ∧
    (s.len ≠ 0 → ∃ t b, exec .pop s = .next t ∧ t.response = responded .none (.byte b) ∧
      s.occupied = b :: t.occupied ∧ t.stop = s.stop ∧ ∀ c, t.bufRead c = s.bufRead c)

/-- R405: PEEK reads any ring index and changes nothing. -/
def Obligations.PeekReads : Prop :=
  ∀ (s : State) (ix : Word),
    (ix.toNat < s.params.cap →
      exec (.peek ix) s = .next { s with response := responded .none (.byte (s.bufRead ix.toNat)) }) ∧
    (s.params.cap ≤ ix.toNat → exec (.peek ix) s = .next { s with response := responded .invalidArgument .none })

/-- R406: READ_REG gives each register of R41 by its number, zero-extended, LENGTH and SPACE computed at the read, and
changes no state; a number above 0x0D is INVALID_ARGUMENT. -/
def Obligations.ReadRegGives : Prop :=
  ∀ s : State,
    let gives (r : Byte) (v : Word) : Prop := exec (.readReg r) s = .next { s with response := responded .none (.word v) }
    gives 0x00 (BitVec.ofNat 32 s.params.cap) ∧ gives 0x01 s.start ∧ gives 0x02 s.stop ∧
    gives 0x03 (BitVec.ofNat 32 s.len) ∧ gives 0x04 (BitVec.ofNat 32 s.space) ∧ gives 0x05 (s.hash.setWidth 32) ∧
    gives 0x06 (s.dstate.code.setWidth 32) ∧ gives 0x07 (s.config &&& 3#32) ∧
    gives 0x08 (BitVec.ofNat 32 (s.params.featUtf16.toNat + 2 * s.params.featUtf32.toNat)) ∧
    gives 0x09 (s.errKind.code.setWidth 32) ∧ gives 0x0A s.errIndex ∧ gives 0x0B s.errAddr ∧
    gives 0x0C (BitVec.ofNat 32 s.params.paramMax) ∧ gives 0x0D (BitVec.ofNat 32 s.params.nestMax) ∧
    (∀ r : Byte, 0x0D < r.toNat → exec (.readReg r) s = .next { s with response := responded .invalidArgument .none })

/-- R407: WRITE_REG writes DMODE and LOCK of CONFIG and nothing else of it; an idle DSTATE follows DMODE; every other
register number is INVALID_ARGUMENT. -/
def Obligations.WriteRegConfig : Prop :=
  ∀ (s : State) (v : Word),
    (s.dstate = .address ∨ s.dstate = .args →
      exec (.writeReg 0x07 v) s = .next { s with
        config := v &&& 3#32, dstate := if v.getLsbD 0 then .address else .args, response := responded .none .none }) ∧
    (s.dstate ≠ .address → s.dstate ≠ .args →
      exec (.writeReg 0x07 v) s = .next { s with config := v &&& 3#32, response := responded .none .none }) ∧
    (∀ r : Byte, r ≠ 0x07 →
      exec (.writeReg r v) s = .next { s with response := responded .invalidArgument .none })

/-- R443: the commands that never write the error record, and SOFT_RESET, which clears it. -/
def Obligations.RecordUntouched : Prop :=
  (∀ (s t : State) (ix : Word) (r : Byte) (v : Word) (desc : List Entry),
    exec .nop s = .next t ∨ exec (.peek ix) s = .next t ∨ exec (.readReg r) s = .next t ∨
      exec (.writeReg r v) s = .next t ∨ (s.dstate = .error ∧ exec (.decode desc) s = .next t) →
    t.errKind = s.errKind ∧ t.errIndex = s.errIndex ∧ t.errAddr = s.errAddr) ∧
  (∀ (s t : State) (c : Issue), 0x0C ≤ (opcOf c.word).toNat → takeCommand c s = .next t →
    t.errKind = s.errKind ∧ t.errIndex = s.errIndex ∧ t.errAddr = s.errAddr) ∧
  (∀ s t : State, exec .softReset s = .next t → t.errKind = .none ∧ t.errIndex = 0 ∧ t.errAddr = 0)

/-- R390, R391, R392: BELL and ACK write their control byte and a zero-padded address field of M bytes, hashed and
without a trailer; each check that fails leaves everything but the error record and the response alone. -/
def Obligations.ControlFrames : Prop :=
  ∀ (s : State) (m : Word) (addr : List Byte), s.cursorsInRing = true →
    ∀ p ∈ [(Instr.bell m addr, 7#8), (Instr.ack m addr, 6#8)],
    let a := untilNul addr
    let bytes := p.2 :: (a ++ List.replicate (m.toNat - a.length) 0#8)
    let raised (k : ErrKind) : Out := .next { s with
      errKind := k, errIndex := 0, errAddr := s.stop, response := responded k .none }
    (s.lock = true → exec p.1 s = raised .locked) ∧
    (s.lock = false → m.toNat < a.length → exec p.1 s = raised .stringOverflow) ∧
    (s.lock = false → a.length ≤ m.toNat → s.space < 1 + m.toNat → exec p.1 s = raised .bufferOverflow) ∧
    (s.lock = false → a.length ≤ m.toNat → 1 + m.toNat ≤ s.space →
      exec p.1 s = .next { s.writeRun s.stop.toNat bytes with
        stop := BitVec.ofNat 32 (advN s.params.cap (1 + m.toNat) s.stop.toNat)
        hash := hashBytes s.params.hashMul s.params.hashSeed bytes
        errKind := .none, errIndex := 0, errAddr := 0, response := responded .none .none })

/-- R121: RETRY keeps the cursors and DISCARD empties the buffer, and both leave the decoder idle; CONNECT is an ENCODE
whose message is the padded local address, the byte 7 and a trailer. -/
def Obligations.PseudoInstructions : Prop :=
  (∀ s : State, s.cursorsInRing = true →
    (∃ t, execAll (retry s) s = .next t ∧ t.start = s.start ∧ t.stop = s.stop ∧ t.buf = s.buf ∧
      t.dstate = initialState s.dmode ∧ t.errKind = .none) ∧
    (∃ t, execAll (discard s) s = .next t ∧ t.len = 0 ∧ t.stop = s.stop ∧ t.buf = s.buf ∧
      t.dstate = initialState s.dmode ∧ t.errKind = .none)) ∧
  (∀ (s : State) (addr : List Byte) (m : Nat), s.cursorsInRing = true → s.msg = none → s.lock = false →
    2 ≤ s.params.paramMax → m < 2 ^ 24 → (untilNul addr).length ≤ m → m + 3 ≤ s.space →
    ∃ t, exec (connect addr m) s = .next t ∧ t.response = responded .none .none ∧
      let body := padTo m (untilNul addr) ++ [7#8]
      t.ringBytes (m + 3) s.stop.toNat = body ++ trailerOf s.params body)

/-! ## The whole machine -/

/-- The invariant between commands holds after power-on reset of every legal instance (R45, R46), the reset state of the
model among them (log entry 1). -/
def Obligations.ResetInvariant : Prop :=
  (∀ p : Params, p.wf → Inv (State.powerOn p)) ∧ Inv State.reset

/-- Every step keeps the invariant between commands: the cursors stay in the ring, DSTATE stays one of its four values
and agrees with DMODE while idle, BUF keeps its canonical form inside the ring, and no transient state is left (R45). -/
def Obligations.StepKeepsInvariant : Prop :=
  ∀ s t : State, Inv s → Sys2Proof.Machine.step s = .next t → Inv t

/-- Nothing stops the block: under the invariant every step, whatever command waits, answers a next state (R160,
R410). -/
def Obligations.StepAlwaysAnswers : Prop :=
  ∀ s : State, Inv s → ∃ t, Sys2Proof.Machine.step s = .next t

/-- R39: the parameter registers report the parameters, and no step changes them. -/
def Obligations.ParametersConstant : Prop :=
  (∀ s t : State, Sys2Proof.Machine.step s = .next t → t.params = s.params) ∧
  (∀ s : State,
    exec (.readReg 0x00) s = .next { s with response := responded .none (.word (BitVec.ofNat 32 s.params.cap)) } ∧
    exec (.readReg 0x0C) s = .next { s with response := responded .none (.word (BitVec.ofNat 32 s.params.paramMax)) } ∧
    exec (.readReg 0x0D) s = .next { s with response := responded .none (.word (BitVec.ofNat 32 s.params.nestMax)) } ∧
    ∃ f : Word, exec (.readReg 0x08) s = .next { s with response := responded .none (.word f) } ∧
      f.getLsbD 0 = s.params.featUtf16 ∧ f.getLsbD 1 = s.params.featUtf32 ∧ f >>> 2 = 0)

/-- Who may write what, over all twelve commands: START only DECODE, POP, SET_CURSORS and reset; STOP only ENCODE, BELL,
ACK, PUSH, SET_CURSORS and reset; BUF only ENCODE, BELL, ACK and PUSH; HASH only ENCODE, DECODE, BELL, ACK and reset;
DSTATE only DECODE, SET_CURSORS, WRITE_REG and reset; CONFIG only WRITE_REG and reset (R31, R33, R70, R84, R313). -/
def Obligations.WritersOfRegisters : Prop :=
  ∀ (i : Instr) (s t : State), isEntry i = false → s.msg = none → exec i s = .next t →
    (t.start ≠ s.start →
      (∃ d, i = .decode d) ∨ i = .pop ∨ (∃ a b, i = .setCursors a b) ∨ i = .softReset) ∧
    (t.stop ≠ s.stop →
      (∃ d a, i = .encode d a) ∨ (∃ m a, i = .bell m a) ∨ (∃ m a, i = .ack m a) ∨ (∃ b, i = .push b) ∨
        (∃ a b, i = .setCursors a b) ∨ i = .softReset) ∧
    (t.buf ≠ s.buf → (∃ d a, i = .encode d a) ∨ (∃ m a, i = .bell m a) ∨ (∃ m a, i = .ack m a) ∨ ∃ b, i = .push b) ∧
    (t.hash ≠ s.hash →
      (∃ d a, i = .encode d a) ∨ (∃ d, i = .decode d) ∨ (∃ m a, i = .bell m a) ∨ (∃ m a, i = .ack m a) ∨
        i = .softReset) ∧
    (t.dstate ≠ s.dstate →
      (∃ d, i = .decode d) ∨ (∃ a b, i = .setCursors a b) ∨ (∃ v, i = .writeReg 0x07 v) ∨ i = .softReset) ∧
    (t.config ≠ s.config → (∃ v, i = .writeReg 0x07 v) ∨ i = .softReset)
end

