-- ==== Sys2Proof/Laws/State.lean ====
section
/-! SUPPORT. One lemma per field per update of the state, each true by rfl, so that no proof unfolds an update. -/

namespace Sys2Proof.Machine

section bufWrite
variable (s : State) (c : Nat) (b : Byte)
@[simp] theorem State.bufWrite_params : (s.bufWrite c b).params = s.params := rfl
@[simp] theorem State.bufWrite_buf : (s.bufWrite c b).buf = memWrite s.buf c b := rfl
@[simp] theorem State.bufWrite_start : (s.bufWrite c b).start = s.start := rfl
@[simp] theorem State.bufWrite_stop : (s.bufWrite c b).stop = s.stop := rfl
@[simp] theorem State.bufWrite_hash : (s.bufWrite c b).hash = s.hash := rfl
@[simp] theorem State.bufWrite_dstate : (s.bufWrite c b).dstate = s.dstate := rfl
@[simp] theorem State.bufWrite_config : (s.bufWrite c b).config = s.config := rfl
@[simp] theorem State.bufWrite_errKind : (s.bufWrite c b).errKind = s.errKind := rfl
@[simp] theorem State.bufWrite_errIndex : (s.bufWrite c b).errIndex = s.errIndex := rfl
@[simp] theorem State.bufWrite_errAddr : (s.bufWrite c b).errAddr = s.errAddr := rfl
@[simp] theorem State.bufWrite_msg : (s.bufWrite c b).msg = s.msg := rfl
@[simp] theorem State.bufWrite_port : (s.bufWrite c b).port = s.port := rfl
@[simp] theorem State.bufWrite_response : (s.bufWrite c b).response = s.response := rfl
@[simp] theorem State.bufWrite_trace : (s.bufWrite c b).trace = s.trace := rfl
end bufWrite

section respond
variable (s : State) (k : ErrKind) (r : Result)
@[simp] theorem State.respond_params : (s.respond k r).params = s.params := rfl
@[simp] theorem State.respond_buf : (s.respond k r).buf = s.buf := rfl
@[simp] theorem State.respond_start : (s.respond k r).start = s.start := rfl
@[simp] theorem State.respond_stop : (s.respond k r).stop = s.stop := rfl
@[simp] theorem State.respond_hash : (s.respond k r).hash = s.hash := rfl
@[simp] theorem State.respond_dstate : (s.respond k r).dstate = s.dstate := rfl
@[simp] theorem State.respond_config : (s.respond k r).config = s.config := rfl
@[simp] theorem State.respond_errKind : (s.respond k r).errKind = s.errKind := rfl
@[simp] theorem State.respond_errIndex : (s.respond k r).errIndex = s.errIndex := rfl
@[simp] theorem State.respond_errAddr : (s.respond k r).errAddr = s.errAddr := rfl
@[simp] theorem State.respond_msg : (s.respond k r).msg = s.msg := rfl
@[simp] theorem State.respond_port : (s.respond k r).port = s.port := rfl
@[simp] theorem State.respond_response : (s.respond k r).response = some { status := k, result := r } := rfl
@[simp] theorem State.respond_trace : (s.respond k r).trace = s.trace := rfl
end respond

section record
variable (s : State) (k : ErrKind) (i a : Nat)
@[simp] theorem State.record_params : (s.record k i a).params = s.params := rfl
@[simp] theorem State.record_buf : (s.record k i a).buf = s.buf := rfl
@[simp] theorem State.record_start : (s.record k i a).start = s.start := rfl
@[simp] theorem State.record_stop : (s.record k i a).stop = s.stop := rfl
@[simp] theorem State.record_hash : (s.record k i a).hash = s.hash := rfl
@[simp] theorem State.record_dstate : (s.record k i a).dstate = s.dstate := rfl
@[simp] theorem State.record_config : (s.record k i a).config = s.config := rfl
@[simp] theorem State.record_errKind : (s.record k i a).errKind = k := rfl
@[simp] theorem State.record_errIndex : (s.record k i a).errIndex = BitVec.ofNat 32 i := rfl
@[simp] theorem State.record_errAddr : (s.record k i a).errAddr = BitVec.ofNat 32 a := rfl
@[simp] theorem State.record_msg : (s.record k i a).msg = s.msg := rfl
@[simp] theorem State.record_port : (s.record k i a).port = s.port := rfl
@[simp] theorem State.record_response : (s.record k i a).response = s.response := rfl
@[simp] theorem State.record_trace : (s.record k i a).trace = s.trace := rfl
end record

section raise
variable (s : State) (k : ErrKind) (i a : Nat)
@[simp] theorem State.raise_params : (s.raise k i a).params = s.params := rfl
@[simp] theorem State.raise_buf : (s.raise k i a).buf = s.buf := rfl
@[simp] theorem State.raise_start : (s.raise k i a).start = s.start := rfl
@[simp] theorem State.raise_stop : (s.raise k i a).stop = s.stop := rfl
@[simp] theorem State.raise_hash : (s.raise k i a).hash = s.hash := rfl
@[simp] theorem State.raise_dstate : (s.raise k i a).dstate = s.dstate := rfl
@[simp] theorem State.raise_config : (s.raise k i a).config = s.config := rfl
@[simp] theorem State.raise_errKind : (s.raise k i a).errKind = k := rfl
@[simp] theorem State.raise_errIndex : (s.raise k i a).errIndex = BitVec.ofNat 32 i := rfl
@[simp] theorem State.raise_errAddr : (s.raise k i a).errAddr = BitVec.ofNat 32 a := rfl
@[simp] theorem State.raise_msg : (s.raise k i a).msg = s.msg := rfl
@[simp] theorem State.raise_port : (s.raise k i a).port = s.port := rfl
@[simp] theorem State.raise_response : (s.raise k i a).response = some { status := k, result := .none } := rfl
@[simp] theorem State.raise_trace : (s.raise k i a).trace = s.trace := rfl
end raise

section complete
variable (s : State) (r : Result)
@[simp] theorem State.complete_params : (s.complete r).params = s.params := rfl
@[simp] theorem State.complete_buf : (s.complete r).buf = s.buf := rfl
@[simp] theorem State.complete_start : (s.complete r).start = s.start := rfl
@[simp] theorem State.complete_stop : (s.complete r).stop = s.stop := rfl
@[simp] theorem State.complete_hash : (s.complete r).hash = s.hash := rfl
@[simp] theorem State.complete_dstate : (s.complete r).dstate = s.dstate := rfl
@[simp] theorem State.complete_config : (s.complete r).config = s.config := rfl
@[simp] theorem State.complete_errKind : (s.complete r).errKind = .none := rfl
@[simp] theorem State.complete_errIndex : (s.complete r).errIndex = 0 := rfl
@[simp] theorem State.complete_errAddr : (s.complete r).errAddr = 0 := rfl
@[simp] theorem State.complete_msg : (s.complete r).msg = s.msg := rfl
@[simp] theorem State.complete_port : (s.complete r).port = s.port := rfl
@[simp] theorem State.complete_response : (s.complete r).response = some { status := .none, result := r } := rfl
@[simp] theorem State.complete_trace : (s.complete r).trace = s.trace := rfl
end complete

section enter
variable (s : State) (d : DState)
@[simp] theorem State.enter_params : (s.enter d).params = s.params := rfl
@[simp] theorem State.enter_buf : (s.enter d).buf = s.buf := rfl
@[simp] theorem State.enter_start : (s.enter d).start = s.start := rfl
@[simp] theorem State.enter_stop : (s.enter d).stop = s.stop := rfl
@[simp] theorem State.enter_hash : (s.enter d).hash = s.hash := rfl
@[simp] theorem State.enter_dstate : (s.enter d).dstate = d := rfl
@[simp] theorem State.enter_config : (s.enter d).config = s.config := rfl
@[simp] theorem State.enter_errKind : (s.enter d).errKind = s.errKind := rfl
@[simp] theorem State.enter_errIndex : (s.enter d).errIndex = s.errIndex := rfl
@[simp] theorem State.enter_errAddr : (s.enter d).errAddr = s.errAddr := rfl
@[simp] theorem State.enter_msg : (s.enter d).msg = s.msg := rfl
@[simp] theorem State.enter_port : (s.enter d).port = s.port := rfl
@[simp] theorem State.enter_response : (s.enter d).response = s.response := rfl
@[simp] theorem State.enter_trace : (s.enter d).trace = s.trace ++ [d] := rfl
end enter

/-! SOFT_RESET and CONFIG writes. -/

section softReset
variable (s : State)
@[simp] theorem softResetState_params : (softResetState s).params = s.params := rfl
@[simp] theorem softResetState_buf : (softResetState s).buf = s.buf := rfl
@[simp] theorem softResetState_start : (softResetState s).start = 0 := rfl
@[simp] theorem softResetState_stop : (softResetState s).stop = 0 := rfl
@[simp] theorem softResetState_hash : (softResetState s).hash = s.params.hashSeed := rfl
@[simp] theorem softResetState_dstate : (softResetState s).dstate = .args := rfl
@[simp] theorem softResetState_config : (softResetState s).config = 0 := rfl
@[simp] theorem softResetState_errKind : (softResetState s).errKind = .none := rfl
@[simp] theorem softResetState_errIndex : (softResetState s).errIndex = 0 := rfl
@[simp] theorem softResetState_errAddr : (softResetState s).errAddr = 0 := rfl
@[simp] theorem softResetState_msg : (softResetState s).msg = s.msg := rfl
@[simp] theorem softResetState_port : (softResetState s).port = s.port := rfl
@[simp] theorem softResetState_response : (softResetState s).response = s.response := rfl
@[simp] theorem softResetState_trace : (softResetState s).trace = s.trace := rfl
end softReset

section powerOn
variable (p : Params)
@[simp] theorem State.powerOn_params : (State.powerOn p).params = p := rfl
@[simp] theorem State.powerOn_buf : (State.powerOn p).buf = [] := rfl
@[simp] theorem State.powerOn_start : (State.powerOn p).start = 0 := rfl
@[simp] theorem State.powerOn_stop : (State.powerOn p).stop = 0 := rfl
@[simp] theorem State.powerOn_hash : (State.powerOn p).hash = p.hashSeed := rfl
@[simp] theorem State.powerOn_dstate : (State.powerOn p).dstate = .args := rfl
@[simp] theorem State.powerOn_config : (State.powerOn p).config = 0 := rfl
@[simp] theorem State.powerOn_errKind : (State.powerOn p).errKind = .none := rfl
@[simp] theorem State.powerOn_errIndex : (State.powerOn p).errIndex = 0 := rfl
@[simp] theorem State.powerOn_errAddr : (State.powerOn p).errAddr = 0 := rfl
@[simp] theorem State.powerOn_msg : (State.powerOn p).msg = none := rfl
@[simp] theorem State.powerOn_port : (State.powerOn p).port = [] := rfl
@[simp] theorem State.powerOn_response : (State.powerOn p).response = none := rfl
@[simp] theorem State.powerOn_trace : (State.powerOn p).trace = [] := rfl
end powerOn

/-! The message of a state and the parts of an active message. -/

section active
variable (a : Active) (d : DState) (b : Byte)
@[simp] theorem Active.keep_msg : a.keep.msg = some a.msg := rfl
@[simp] theorem Active.enter_msg : (a.enter d).msg = a.msg := rfl
@[simp] theorem Active.enter_st : (a.enter d).st = a.st.enter d := rfl
@[simp] theorem Active.commitStop_msg : a.commitStop.msg = a.msg := rfl
@[simp] theorem Active.pop_st : a.pop.st = a.st := rfl
@[simp] theorem Active.consume_st : a.consume.st = a.st := rfl
@[simp] theorem Active.consumeTrailer_st : a.consumeTrailer.st = a.st := rfl
@[simp] theorem Active.emit_st : (a.emit b).st = a.st.bufWrite a.msg.cur b := rfl
@[simp] theorem Active.emitTrailer_st : (a.emitTrailer b).st = a.st.bufWrite a.msg.cur b := rfl
end active

/-- A state whose open message is `m` is the message kept in it. -/
theorem Active.keep_of_msg {s : State} {m : Message} (h : s.msg = some m) : Active.keep { st := s, msg := m } = s := by
  cases s; simp_all [Active.keep]

end Sys2Proof.Machine
end

