-- ==== Sys2Proof/Laws/Memory.lean ====
section
/-! SUPPORT. Storage laws: a read after a write, the canonical form, and where the written bytes lie. -/

namespace Sys2Proof.Machine

/-- Every entry of a memory lies below `cap`. -/
def memBelow (cap : Nat) (m : Memory) : Prop := ∀ c ∈ m, c.1 < cap

theorem memWf_iff (m : Memory) : memWf m = true ↔ m.Pairwise (fun x y => x.1 < y.1) := by
  simp [memWf]

@[simp] theorem memWf_nil : memWf [] = true := rfl

theorem memRead_eq_none_of_lt {m : Memory} {c : Nat} (h : ∀ x ∈ m, c < x.1) : memRead m c = none := by
  induction m with
  | nil => rfl
  | cons x m ih =>
    have hx := h x (by simp)
    have hm := ih (fun y hy => h y (by simp [hy]))
    obtain ⟨a, b⟩ := x
    simp only [memRead]
    rw [if_neg (by simp at hx; omega), hm]

/-- A read after a write to the same index gives the byte written. -/
@[simp] theorem memRead_memWrite_same (m : Memory) (c : Nat) (b : Byte) : memRead (memWrite m c b) c = some b := by
  induction m with
  | nil => simp [memWrite, memRead]
  | cons x m ih =>
    obtain ⟨a, y⟩ := x
    simp only [memWrite]
    split
    · simp [memRead]
    · split
      · next h => simp [memRead, h]
      · next h => simp [memRead, h, ih]

/-- A write leaves every other index alone. -/
theorem memRead_memWrite_other (m : Memory) {c d : Nat} (b : Byte) (h : d ≠ c) :
    memRead (memWrite m c b) d = memRead m d := by
  induction m with
  | nil => simp [memWrite, memRead, Ne.symm h]
  | cons x m ih =>
    obtain ⟨a, y⟩ := x
    simp only [memWrite]
    split
    · simp [memRead, Ne.symm h]
    · split
      · next hac => simp [memRead, show a ≠ d by omega]
      · simp only [memRead]; split
        · rfl
        · exact ih

theorem mem_memWrite {m : Memory} {c : Nat} {b : Byte} {x : Host.Cell} (h : x ∈ memWrite m c b) :
    x = (c, b) ∨ x ∈ m := by
  induction m with
  | nil => simpa [memWrite] using h
  | cons y m ih =>
    obtain ⟨a, z⟩ := y
    simp only [memWrite] at h
    split at h
    · simpa using h
    · split at h
      · next hac => subst hac; rcases List.mem_cons.1 h with h | h <;> simp [h]
      · rcases List.mem_cons.1 h with h | h
        · simp [h]
        · rcases ih h with h | h <;> simp [h]

/-- Every memory operation keeps the canonical form: a write does. -/
theorem memWf_memWrite {m : Memory} (c : Nat) (b : Byte) (h : memWf m = true) : memWf (memWrite m c b) = true := by
  rw [memWf_iff] at h ⊢
  induction m with
  | nil => simp [memWrite]
  | cons x m ih =>
    obtain ⟨a, y⟩ := x
    rw [List.pairwise_cons] at h
    simp only [memWrite]
    split
    · next hc =>
      refine List.pairwise_cons.2 ⟨fun z hz => ?_, List.pairwise_cons.2 h⟩
      rcases List.mem_cons.1 hz with hz | hz
      · simpa [hz] using hc
      · exact Nat.lt_trans hc (h.1 z hz)
    · split
      · exact List.pairwise_cons.2 ⟨h.1, h.2⟩
      · next hc hac =>
        refine List.pairwise_cons.2 ⟨fun z hz => ?_, ih h.2⟩
        rcases mem_memWrite hz with hz | hz
        · simp [hz]; omega
        · exact h.1 z hz

theorem memBelow_memWrite {cap : Nat} {m : Memory} {c : Nat} (b : Byte) (hc : c < cap) (h : memBelow cap m) :
    memBelow cap (memWrite m c b) := by
  intro x hx
  rcases mem_memWrite hx with hx | hx
  · simpa [hx] using hc
  · exact h x hx

/-- The memory of an instance after power-on has the canonical form. -/
theorem memWf_reset : memWf State.reset.buf = true := rfl

@[simp] theorem State.bufRead_bufWrite_same (s : State) (c : Nat) (b : Byte) : (s.bufWrite c b).bufRead c = b := by
  simp [State.bufRead]

theorem State.bufRead_bufWrite_other (s : State) {c d : Nat} (b : Byte) (h : d ≠ c) :
    (s.bufWrite c b).bufRead d = s.bufRead d := by
  simp [State.bufRead, memRead_memWrite_other _ _ h]

/-- A read of storage looks at BUF alone. -/
theorem State.bufRead_congr {s t : State} (h : t.buf = s.buf) (c : Nat) : t.bufRead c = s.bufRead c := by
  simp [State.bufRead, h]

/-- A run of reads looks at BUF and CAP alone. -/
theorem State.ringBytes_congr {s t : State} (h : t.buf = s.buf) (hp : t.params.cap = s.params.cap) (n c : Nat) :
    t.ringBytes n c = s.ringBytes n c := by
  induction n generalizing c with
  | zero => rfl
  | succ n ih => simp [State.ringBytes, State.bufRead_congr h, hp, ih]

@[simp] theorem State.ringBytes_length (s : State) (n c : Nat) : (s.ringBytes n c).length = n := by
  induction n generalizing c with
  | zero => rfl
  | succ n ih => simp [State.ringBytes, ih]

/-! ## Reads of storage through updates that leave BUF alone -/

section reads
variable (s : State) (c n : Nat)
@[simp] theorem State.bufRead_enter (d : DState) : (s.enter d).bufRead c = s.bufRead c := rfl
@[simp] theorem State.ringBytes_enter (d : DState) : (s.enter d).ringBytes n c = s.ringBytes n c :=
  State.ringBytes_congr (s := s) (t := s.enter d) rfl rfl n c
@[simp] theorem State.bufRead_respond (k : ErrKind) (r : Result) : (s.respond k r).bufRead c = s.bufRead c := rfl
@[simp] theorem State.ringBytes_respond (k : ErrKind) (r : Result) : (s.respond k r).ringBytes n c = s.ringBytes n c :=
  State.ringBytes_congr (s := s) (t := s.respond k r) rfl rfl n c
@[simp] theorem State.bufRead_raise (k : ErrKind) (i a : Nat) : (s.raise k i a).bufRead c = s.bufRead c := rfl
@[simp] theorem State.ringBytes_raise (k : ErrKind) (i a : Nat) : (s.raise k i a).ringBytes n c = s.ringBytes n c :=
  State.ringBytes_congr (s := s) (t := s.raise k i a) rfl rfl n c
@[simp] theorem State.bufRead_complete (r : Result) : (s.complete r).bufRead c = s.bufRead c := rfl
@[simp] theorem State.ringBytes_complete (r : Result) : (s.complete r).ringBytes n c = s.ringBytes n c :=
  State.ringBytes_congr (s := s) (t := s.complete r) rfl rfl n c
end reads

end Sys2Proof.Machine
end

