-- ==== Sys2Proof/Laws/Ring.lean ====
section
/-! SUPPORT. Cursor arithmetic inside the ring. -/

namespace Sys2Proof.Machine

theorem ringLen_lt {cap s t : Nat} (hs : s < cap) (ht : t < cap) : ringLen cap s t < cap := by
  unfold ringLen; split <;> omega

theorem adv_lt {cap c : Nat} (h : c < cap) : adv cap c < cap := by
  unfold adv; split <;> omega

theorem advN_lt {cap : Nat} (k : Nat) {c : Nat} (h : c < cap) : advN cap k c < cap := by
  induction k generalizing c with
  | zero => exact h
  | succ k ih => exact ih (adv_lt h)

theorem advN_add (cap j k c : Nat) : advN cap (j + k) c = advN cap k (advN cap j c) := by
  induction j generalizing c with
  | zero => simp [advN]
  | succ j ih => rw [Nat.add_right_comm]; exact ih _

@[simp] theorem ringLen_self (cap s : Nat) : ringLen cap s s = 0 := by simp [ringLen]

/-- Moving the first cursor one step takes one byte off the occupied length. -/
theorem ringLen_adv_left {cap s t : Nat} (ht : t < cap) (h : ringLen cap s t ≠ 0) :
    ringLen cap (adv cap s) t = ringLen cap s t - 1 := by
  unfold ringLen adv at *; split at h <;> (repeat' split) <;> omega

/-- Moving the second cursor one step, where there is room, adds one byte to the occupied length. -/
theorem ringLen_adv_right {cap s t : Nat} (hs : s < cap) (h : ringSpace cap s t ≠ 0) :
    ringLen cap s (adv cap t) = ringLen cap s t + 1 := by
  unfold ringSpace ringLen adv at *; (repeat' split) <;> split at h <;> omega

/-- Writing a byte where there is room takes one byte off the room. -/
theorem ringSpace_adv_right {cap s t : Nat} (hs : s < cap) (h : ringSpace cap s t ≠ 0) :
    ringSpace cap s (adv cap t) = ringSpace cap s t - 1 := by
  have := ringLen_adv_right hs h
  unfold ringSpace at *; omega

/-- With room left, the write cursor is outside the occupied region (R233). -/
theorem ringLen_write_cursor {cap s t : Nat} (hs : s < cap) (h : ringSpace cap s t ≠ 0) :
    adv cap t ≠ s := by
  unfold ringSpace ringLen adv at *; (repeat' split) <;> split at h <;> omega

/-- A cursor below CAP survives its 32-bit register. -/
theorem toNat_ofNat_cursor {cap c : Nat} (hcap : cap ≤ 2 ^ 32 - 1) (h : c < cap) : (BitVec.ofNat 32 c).toNat = c := by
  rw [BitVec.toNat_ofNat]; exact Nat.mod_eq_of_lt (by omega)

end Sys2Proof.Machine
end

