-- ==== Sys2Proof/Laws/Run.lean ====
section
/-! SUPPORT. What a run of byte steps does, said once: writing, folding and advancing over a list of bytes. -/

namespace Sys2Proof.Machine

section writeRun
variable (s : State) (c : Nat) (bs : List Byte)

theorem State.writeRun_eq_buf : ∃ m, s.writeRun c bs = { s with buf := m } := by
  induction bs generalizing s c with
  | nil => exact ⟨s.buf, rfl⟩
  | cons b bs ih => obtain ⟨m, hm⟩ := ih (s.bufWrite c b) (adv s.params.cap c); exact ⟨m, hm⟩

@[simp] theorem State.writeRun_params : (s.writeRun c bs).params = s.params := by
  obtain ⟨m, h⟩ := s.writeRun_eq_buf c bs; simp [h]
@[simp] theorem State.writeRun_start : (s.writeRun c bs).start = s.start := by
  obtain ⟨m, h⟩ := s.writeRun_eq_buf c bs; simp [h]
@[simp] theorem State.writeRun_stop : (s.writeRun c bs).stop = s.stop := by
  obtain ⟨m, h⟩ := s.writeRun_eq_buf c bs; simp [h]
@[simp] theorem State.writeRun_msg : (s.writeRun c bs).msg = s.msg := by
  obtain ⟨m, h⟩ := s.writeRun_eq_buf c bs; simp [h]
@[simp] theorem State.writeRun_dstate : (s.writeRun c bs).dstate = s.dstate := by
  obtain ⟨m, h⟩ := s.writeRun_eq_buf c bs; simp [h]
@[simp] theorem State.writeRun_config : (s.writeRun c bs).config = s.config := by
  obtain ⟨m, h⟩ := s.writeRun_eq_buf c bs; simp [h]

end writeRun

theorem State.writeRun_memWf {s : State} (h : memWf s.buf = true) (c : Nat) (bs : List Byte) :
    memWf (s.writeRun c bs).buf = true := by
  induction bs generalizing s c with
  | nil => exact h
  | cons b bs ih => exact ih (memWf_memWrite c b h) _

theorem State.writeRun_memBelow {s : State} {c : Nat} (hc : c < s.params.cap) (h : memBelow s.params.cap s.buf)
    (bs : List Byte) : memBelow s.params.cap (s.writeRun c bs).buf := by
  induction bs generalizing s c with
  | nil => exact h
  | cons b bs ih => exact ih (s := s.bufWrite c b) (adv_lt hc) (memBelow_memWrite b hc h)

/-- A run of writes leaves every index alone that it does not reach. -/
theorem State.bufRead_writeRun_other {s : State} {c d : Nat} {bs : List Byte}
    (h : ∀ k < bs.length, d ≠ advN s.params.cap k c) : (s.writeRun c bs).bufRead d = s.bufRead d := by
  induction bs generalizing s c with
  | nil => rfl
  | cons b bs ih =>
    have h0 := h 0 (by simp)
    have hr := ih (s := s.bufWrite c b) (c := adv s.params.cap c)
      (fun k hk => h (k + 1) (by simpa using hk))
    exact hr.trans (s.bufRead_bufWrite_other b h0)

theorem State.writeRun_append (s : State) (c : Nat) (bs cs : List Byte) :
    s.writeRun c (bs ++ cs) = (s.writeRun c bs).writeRun (advN s.params.cap bs.length c) cs := by
  induction bs generalizing s c with
  | nil => rfl
  | cons b bs ih => exact ih (s.bufWrite c b) _

theorem State.ringBytes_add (s : State) (j k c : Nat) :
    s.ringBytes (j + k) c = s.ringBytes j c ++ s.ringBytes k (advN s.params.cap j c) := by
  induction j generalizing c with
  | zero => simp [State.ringBytes, advN]
  | succ j ih => rw [Nat.add_right_comm]; simp [State.ringBytes, advN, ih]

/-! ## Folding -/

@[simp] theorem hashBytes_nil (mul h : Half) : hashBytes mul h [] = h := rfl

@[simp] theorem hashBytes_cons (mul h : Half) (b : Byte) (bs : List Byte) :
    hashBytes mul h (b :: bs) = hashBytes mul (hash16 mul b h) bs := rfl

theorem hashBytes_append (mul h : Half) (bs cs : List Byte) :
    hashBytes mul h (bs ++ cs) = hashBytes mul (hashBytes mul h bs) cs := by
  simp [hashBytes]

@[simp] theorem Message.ran_nil (p : Params) (m : Message) : m.ran p [] = m := by
  cases m; simp [Message.ran, advN]

section ran
variable (p : Params) (m : Message) (bs : List Byte)
@[simp] theorem Message.ran_dir : (m.ran p bs).dir = m.dir := rfl
@[simp] theorem Message.ran_desc : (m.ran p bs).desc = m.desc := rfl
@[simp] theorem Message.ran_args : (m.ran p bs).args = m.args := rfl
@[simp] theorem Message.ran_vals : (m.ran p bs).vals = m.vals := rfl
@[simp] theorem Message.ran_i : (m.ran p bs).i = m.i := rfl
@[simp] theorem Message.ran_cur : (m.ran p bs).cur = advN p.cap bs.length m.cur := rfl
@[simp] theorem Message.ran_hash0 : (m.ran p bs).hash0 = hashBytes p.hashMul m.hash0 bs := rfl
end ran

/-- One body byte is a run of one. -/
theorem Message.ran_cons (p : Params) (m : Message) (b : Byte) (bs : List Byte) :
    ((m.foldBody p.hashMul b).advance p.cap).ran p bs = m.ran p (b :: bs) := by
  simp [Message.ran, Message.foldBody, Message.advance, advN, Level.fold, Function.comp_def]

theorem Message.ran_append (p : Params) (m : Message) (bs cs : List Byte) :
    m.ran p (bs ++ cs) = (m.ran p bs).ran p cs := by
  simp [Message.ran, advN_add, hashBytes_append, Function.comp_def]

/-- `emitBytes` said once: the bytes are in BUF at successive indices, the cursor is past them, and every open
accumulator has folded them. -/
theorem Active.emitBytes_eq (a : Active) (bs : List Byte) :
    a.emitBytes bs = { st := a.st.writeRun a.msg.cur bs, msg := a.msg.ran a.st.params bs } := by
  induction bs generalizing a with
  | nil => simp [Active.emitBytes, State.writeRun]
  | cons b bs ih =>
    simp only [Active.emitBytes, ih, State.writeRun, ← Message.ran_cons]
    rfl

/-- `consumeN` said once: the registers stay, the cursor is past the n bytes, and every open accumulator has folded
them. -/
theorem Active.consumeN_eq (n : Nat) (a : Active) :
    Active.consumeN n a = { st := a.st, msg := a.msg.ran a.st.params (a.st.ringBytes n a.msg.cur) } := by
  induction n generalizing a with
  | zero => simp [Active.consumeN, State.ringBytes]
  | succ n ih =>
    simp only [Active.consumeN, ih, State.ringBytes, ← Message.ran_cons]
    rfl

/-- `emitChunks` said once: a prefix of the chunks has been emitted, all of them exactly when the flag is set. -/
theorem emitChunks_spec (cs : List (List Byte)) (a : Active) :
    ∃ pre suf, cs = pre ++ suf ∧ (emitChunks cs a).2 = a.emitBytes pre.flatten ∧
      ((emitChunks cs a).1 = true → suf = []) ∧
      ((emitChunks cs a).1 = false → ∃ c rest, suf = c :: rest ∧ (emitChunks cs a).2.room < c.length) := by
  induction cs generalizing a with
  | nil => exact ⟨[], [], rfl, rfl, fun _ => rfl, by simp [emitChunks]⟩
  | cons c cs ih =>
    by_cases hroom : a.room < c.length
    · refine ⟨[], c :: cs, rfl, ?_, ?_, ?_⟩ <;> simp [emitChunks, hroom, Active.emitBytes]
    · obtain ⟨pre, suf, hsplit, hmsg, hall, hsome⟩ := ih (a.emitBytes c)
      have heq : emitChunks (c :: cs) a = emitChunks cs (a.emitBytes c) := by simp [emitChunks, hroom]
      refine ⟨c :: pre, suf, by simp [hsplit], ?_, ?_, ?_⟩
      · rw [heq, hmsg]
        simp [Active.emitBytes_eq, State.writeRun_append, Message.ran_append]
      · rw [heq]; exact hall
      · rw [heq]; exact hsome

/-- One chunk that fits is emitted whole. -/
theorem emitChunks_fixed {a : Active} {bs : List Byte} (h : bs.length ≤ a.room) :
    emitChunks [bs] a = (true, a.emitBytes bs) := by
  simp [emitChunks, Nat.not_lt.2 h]

/-- One chunk that does not fit leaves everything as it was (R233, up front). -/
theorem emitChunks_fixed_full {a : Active} {bs : List Byte} (h : a.room < bs.length) :
    emitChunks [bs] a = (false, a) := by
  simp [emitChunks, h]

end Sys2Proof.Machine
end

