-- ==== Sys2Proof/Laws/Entry.lean ====
section
/-! SUPPORT. Each shared operation of the engines, said once: if it answers a next state, then what that state is. -/

namespace Sys2Proof.Machine

/-- `onRing` answers a next state only where its cursors lie in the ring. -/
theorem onRing_next {ok : Bool} {k : Out} {t : State} (h : onRing ok k = .next t) : ok = true ∧ k = .next t := by
  unfold onRing at h; split at h
  · exact ⟨‹_›, h⟩
  · cases h

@[simp] theorem onRing_true (k : Out) : onRing true k = k := rfl

/-- `withMessage` answers a next state only inside a message whose cursors lie in the ring. -/
theorem withMessage_next {s t : State} {k : Active → Out} (h : withMessage s k = .next t) :
    ∃ m, s.msg = some m ∧ s.cursorsInRing = true ∧ m.cur < s.params.cap ∧ k { st := s, msg := m } = .next t := by
  unfold withMessage at h
  cases hm : s.msg with
  | none => simp [hm] at h
  | some m =>
    simp only [hm] at h
    obtain ⟨hok, hk⟩ := onRing_next h
    simp only [Bool.and_eq_true, decide_eq_true_eq] at hok
    exact ⟨m, rfl, hok.1, hok.2, hk⟩

/-- Inside a message whose cursors lie in the ring, `withMessage` runs its continuation. -/
theorem withMessage_of_msg {s : State} {m : Message} {k : Active → Out} (hm : s.msg = some m)
    (hs : s.cursorsInRing = true) (hc : m.cur < s.params.cap) : withMessage s k = k { st := s, msg := m } := by
  simp [withMessage, hm, hs, hc]

/-- `withSlot` runs on the slot at `i`, or raises INVALID_ARGUMENT (R235). -/
theorem withSlot_cases (a : Active) (k : Arg → State) :
    (∃ slot, a.msg.args[a.msg.i]? = some slot ∧ withSlot a k = k slot) ∨
    (a.msg.args[a.msg.i]? = none ∧ withSlot a k = a.fail .invalidArgument a.msg.i a.msg.cur) := by
  unfold withSlot
  cases h : a.msg.args[a.msg.i]? with
  | none => exact .inr ⟨rfl, by simp⟩
  | some slot => exact .inl ⟨slot, rfl, by simp⟩

theorem withSlot_of_slot {a : Active} {k : Arg → State} {slot : Arg} (h : a.msg.args[a.msg.i]? = some slot) :
    withSlot a k = k slot := by
  simp [withSlot, h]

/-- `leafEntry` in an ENCODE. -/
theorem leafEntry_enc {s : State} {m : Message} {enc : Arg → Plan} {sub : Option DState} {dec : List Byte → Parsed}
    (hm : s.msg = some m) (hs : s.cursorsInRing = true) (hc : m.cur < s.params.cap) (hd : m.dir = .enc) :
    leafEntry s enc sub dec =
      .next (withSlot { st := s, msg := m } (fun slot => runPlan { st := s, msg := m } (enc slot))) := by
  simp only [leafEntry, withMessage_of_msg hm hs hc, hd]

/-- `leafEntry` in a DECODE. -/
theorem leafEntry_dec {s : State} {m : Message} {enc : Arg → Plan} {sub : Option DState} {dec : List Byte → Parsed}
    (hm : s.msg = some m) (hs : s.cursorsInRing = true) (hc : m.cur < s.params.cap) (hd : m.dir = .dec) :
    leafEntry s enc sub dec = .next (runParse { st := s, msg := m } sub dec) := by
  simp only [leafEntry, withMessage_of_msg hm hs hc, hd]

/-- If `leafEntry` answers a next state, it ran its encode arm on the slot or its decode arm. -/
theorem leafEntry_next {s t : State} {enc : Arg → Plan} {sub : Option DState} {dec : List Byte → Parsed}
    (h : leafEntry s enc sub dec = .next t) :
    ∃ m, s.msg = some m ∧ s.cursorsInRing = true ∧ m.cur < s.params.cap ∧
      ((m.dir = .enc ∧ t = withSlot { st := s, msg := m } (fun slot => runPlan { st := s, msg := m } (enc slot))) ∨
       (m.dir = .dec ∧ t = runParse { st := s, msg := m } sub dec)) := by
  obtain ⟨m, hm, hs, hc, hk⟩ := withMessage_next h
  refine ⟨m, hm, hs, hc, ?_⟩
  cases hd : m.dir <;> simp only [hd] at hk <;> cases hk
  · exact .inl ⟨rfl, rfl⟩
  · exact .inr ⟨rfl, rfl⟩

/-- `gatedEntry` is the entry where the feature is on. -/
@[simp] theorem gatedEntry_on (s : State) (k : ErrKind) (entry : Out) : gatedEntry s true k entry = entry := rfl

/-- `gatedEntry` with the feature off raises the feature's own kind (R113). -/
theorem gatedEntry_off {s : State} {m : Message} {k : ErrKind} {entry : Out} (hm : s.msg = some m)
    (hs : s.cursorsInRing = true) (hc : m.cur < s.params.cap) :
    gatedEntry s false k entry = .next (Active.fail { st := s, msg := m } k m.i m.cur) := by
  simp [gatedEntry, withMessage_of_msg hm hs hc]

/-- `runPlan`'s three outcomes: overflow at the cursor reached, the plan's error after its chunks, or the commit. -/
theorem runPlan_cases (a : Active) (p : Plan) :
    ((emitChunks p.chunks a).1 = false ∧
      runPlan a p = (emitChunks p.chunks a).2.fail .bufferOverflow a.msg.i (emitChunks p.chunks a).2.msg.cur) ∨
    (∃ k, (emitChunks p.chunks a).1 = true ∧ p.err = some k ∧
      runPlan a p = (emitChunks p.chunks a).2.fail k a.msg.i (emitChunks p.chunks a).2.msg.cur) ∨
    ((emitChunks p.chunks a).1 = true ∧ p.err = none ∧ runPlan a p = commitField (emitChunks p.chunks a).2) := by
  unfold runPlan
  rcases h1 : (emitChunks p.chunks a).1 with _ | _
  · exact .inl ⟨rfl, by simp [h1]⟩
  · rcases h2 : p.err with _ | k
    · exact .inr (.inr ⟨rfl, rfl, by simp [h1]⟩)
    · exact .inr (.inl ⟨k, rfl, rfl, by simp [h1]⟩)

/-- A plan of one chunk that fits writes and commits the field. -/
theorem runPlan_fixed {a : Active} {bs : List Byte} (h : bs.length ≤ a.room) :
    runPlan a (fixedPlan bs) = commitField (a.emitBytes bs) := by
  simp [runPlan, fixedPlan, emitChunks_fixed h]

/-- A plan of one chunk that does not fit raises BUFFER_OVERFLOW at the field's start, with nothing written. -/
theorem runPlan_fixed_full {a : Active} {bs : List Byte} (h : a.room < bs.length) :
    runPlan a (fixedPlan bs) = a.fail .bufferOverflow a.msg.i a.msg.cur := by
  simp [runPlan, fixedPlan, emitChunks_fixed_full h]

/-- A faulty plan raises its error with nothing written. -/
@[simp] theorem runPlan_faulty (a : Active) (k : ErrKind) :
    runPlan a (faultyPlan k) = a.fail k a.msg.i a.msg.cur := rfl

/-- The committed field in terms of the run of bytes it wrote. -/
theorem commitField_emitBytes {s : State} {m : Message} (bs : List Byte) :
    commitField (Active.emitBytes { st := s, msg := m } bs) = fieldWritten s m bs := by
  simp only [Active.emitBytes_eq, commitField, Active.commitStop, Active.keep, fieldWritten]
  obtain ⟨mm, h⟩ := s.writeRun_eq_buf m.cur bs
  simp [h, Message.ran]

/-- `runParse`'s two outcomes, on the bytes available from RCUR. -/
theorem runParse_cases (a : Active) (sub : Option DState) (arm : List Byte → Parsed) :
    (∃ v used, arm (enterSub a sub).available = .value v used ∧
      runParse a sub arm = storeValue (Active.consumeN used (enterSub a sub)) v) ∨
    (∃ k offset used, arm (enterSub a sub).available = .fail k offset used ∧
      runParse a sub arm =
        (Active.consumeN used (enterSub a sub)).fail k a.msg.i (advN a.st.params.cap offset a.msg.cur)) := by
  unfold runParse
  cases h : arm (enterSub a sub).available with
  | value v used => exact .inl ⟨v, used, rfl, by simp [h]⟩
  | fail k offset used => exact .inr ⟨k, offset, used, rfl, by simp [h]⟩

@[simp] theorem enterSub_msg (a : Active) (sub : Option DState) : (enterSub a sub).msg = a.msg := by
  cases sub <;> rfl

theorem enterSub_available (a : Active) (sub : Option DState) : (enterSub a sub).available = a.available := by
  cases sub with
  | none => rfl
  | some d =>
    exact State.ringBytes_congr (s := a.st) (t := a.st.enter d) rfl rfl _ _

@[simp] theorem Active.available_length (a : Active) : a.available.length = a.avail := by
  simp [Active.available]

/-- A field read whole, in terms of the run of bytes it consumed. -/
theorem storeValue_consumeN {s : State} {m : Message} (sub : Option DState) (n : Nat) (v : Value) :
    storeValue (Active.consumeN n (enterSub { st := s, msg := m } sub)) v = fieldRead s m sub n v := by
  cases sub <;>
    simp [Active.consumeN_eq, storeValue, enterSub, Active.enter, Active.keep, fieldRead, Message.ran]

/-- `checkInner`'s three outcomes (R240, R330). -/
theorem checkInner_cases (a : Active) (n : Nat) :
    ((n = 0 ∨ a.msg.i + 1 + n > a.msg.hi) ∧ checkInner a n = a.fail .invalidOperation a.msg.i a.msg.cur) ∨
    (¬ (n = 0 ∨ a.msg.i + 1 + n > a.msg.hi) ∧ a.msg.inner.length + 1 > a.st.params.nestMax ∧
      checkInner a n = a.fail .tooManyParams a.msg.i a.msg.cur) ∨
    (¬ (n = 0 ∨ a.msg.i + 1 + n > a.msg.hi) ∧ a.msg.inner.length + 1 ≤ a.st.params.nestMax ∧
      checkInner a n = openInner a n) := by
  unfold checkInner
  by_cases h1 : n = 0 ∨ a.msg.i + 1 + n > a.msg.hi
  · exact .inl ⟨h1, if_pos h1⟩
  · by_cases h2 : a.msg.inner.length + 1 > a.st.params.nestMax
    · exact .inr (.inl ⟨h1, h2, by rw [if_neg h1, if_pos h2]⟩)
    · exact .inr (.inr ⟨h1, by omega, by rw [if_neg h1, if_neg h2]⟩)

/-! ## Ends of a command -/

section fail
variable (a : Active) (k : ErrKind) (i addr : Nat)

/-- `fail` in an ENCODE (R239). -/
theorem Active.fail_enc (h : a.msg.dir = .enc) :
    a.fail k i addr = ({ a.st with hash := a.msg.hash0, msg := none }).raise k i addr := by
  simp only [Active.fail, h]

/-- `fail` in a DECODE (R327). -/
theorem Active.fail_dec (h : a.msg.dir = .dec) :
    a.fail k i addr = (({ a.st with hash := a.msg.hash0, msg := none }).enter .error).raise k i addr := by
  simp only [Active.fail, h]

@[simp] theorem Active.fail_msg : (a.fail k i addr).msg = none := by unfold Active.fail; split <;> rfl
@[simp] theorem Active.fail_params : (a.fail k i addr).params = a.st.params := by unfold Active.fail; split <;> rfl
@[simp] theorem Active.fail_buf : (a.fail k i addr).buf = a.st.buf := by unfold Active.fail; split <;> rfl
@[simp] theorem Active.fail_start : (a.fail k i addr).start = a.st.start := by unfold Active.fail; split <;> rfl
@[simp] theorem Active.fail_stop : (a.fail k i addr).stop = a.st.stop := by unfold Active.fail; split <;> rfl
@[simp] theorem Active.fail_hash : (a.fail k i addr).hash = a.msg.hash0 := by unfold Active.fail; split <;> rfl
@[simp] theorem Active.fail_config : (a.fail k i addr).config = a.st.config := by unfold Active.fail; split <;> rfl
@[simp] theorem Active.fail_port : (a.fail k i addr).port = a.st.port := by unfold Active.fail; split <;> rfl
@[simp] theorem Active.fail_errKind : (a.fail k i addr).errKind = k := by unfold Active.fail; split <;> rfl
@[simp] theorem Active.fail_errIndex : (a.fail k i addr).errIndex = BitVec.ofNat 32 i := by
  unfold Active.fail; split <;> rfl
@[simp] theorem Active.fail_errAddr : (a.fail k i addr).errAddr = BitVec.ofNat 32 addr := by
  unfold Active.fail; split <;> rfl
@[simp] theorem Active.fail_response :
    (a.fail k i addr).response = some { status := k, result := .none } := by unfold Active.fail; split <;> rfl

end fail

/-- The trailer of an ENCODE: an overflow that writes nothing, or both bytes, committed, and the message closed
(R237). -/
theorem closeEnc_cases (a : Active) :
    (a.room < 2 ∧ a.closeEnc = a.fail .bufferOverflow a.msg.trailerIndex a.msg.cur) ∨
    (2 ≤ a.room ∧
      let c := ((a.emitTrailer (trailerLo a.msg.top)).emitTrailer (trailerHi a.msg.top)).commitStop
      (a.msg.inner = [] ∧ a.closeEnc = c.finishEnc) ∨
      (∃ l ls, a.msg.inner = l :: ls ∧ a.closeEnc = c.pop.keep)) := by
  unfold Active.closeEnc
  by_cases h : a.room < 2
  · exact .inl ⟨h, by simp [h]⟩
  · refine .inr ⟨by omega, ?_⟩
    cases hi : a.msg.inner with
    | nil => exact .inl ⟨rfl, by simp [h]⟩
    | cons l ls => exact .inr ⟨l, ls, rfl, by simp [h]⟩

/-- The trailer of a DECODE: an underflow, a mismatch, or a match that closes the message (R325, R326, R330). -/
theorem closeDec_cases (a : Active) :
    let v := a.enter .hash
    let v2 := v.consumeTrailer.consumeTrailer
    let word := trailerWord (a.st.bufRead a.msg.cur) (a.st.bufRead v.consumeTrailer.msg.cur)
    (v.avail < 2 ∧ a.closeDec = v.fail .bufferUnderflow a.msg.trailerIndex a.msg.cur) ∨
    (2 ≤ v.avail ∧ word ≠ a.msg.top ∧ a.closeDec = v2.fail .invalidHash a.msg.trailerIndex a.msg.cur) ∨
    (2 ≤ v.avail ∧ word = a.msg.top ∧ a.msg.inner = [] ∧ a.closeDec = v2.finishDec) ∨
    (2 ≤ v.avail ∧ word = a.msg.top ∧ ∃ l ls, a.msg.inner = l :: ls ∧ a.closeDec = (v2.pop.enter .args).keep) := by
  intro v v2 word
  unfold Active.closeDec
  by_cases h : v.avail < 2
  · exact .inl ⟨h, by simp [v] at h ⊢; simp [h]⟩
  · by_cases hw : word = a.msg.top
    · cases hi : a.msg.inner with
      | nil => exact .inr (.inr (.inl ⟨by omega, hw, rfl, by
          simp only [v] at h; simp only [if_neg h]
          rw [if_neg (by simpa [word, v] using hw)]⟩))
      | cons l ls => exact .inr (.inr (.inr ⟨by omega, hw, l, ls, rfl, by
          simp only [v] at h; simp only [if_neg h]
          rw [if_neg (by simpa [word, v] using hw)]⟩))
    · exact .inr (.inl ⟨by omega, hw, by
        simp only [v] at h; simp only [if_neg h]
        rw [if_pos (by simpa [word, v] using hw)]⟩)

end Sys2Proof.Machine
end

