-- ==== Sys2Proof/Laws/Operands.lean ====
section
/-! SUPPORT. The operand forms, each said once: little-endian assembly, strings cut at their first zero, zero padding,
and the argument form of each tag. -/

namespace Sys2Proof.Machine

/-! ## Little-endian assembly (R9) -/

@[simp] theorem le_length (n v : Nat) : (le n v).length = n := by
  induction n generalizing v with
  | zero => rfl
  | succ n ih => simp [le, ih]

/-- The bytes of a number assemble to it, cut to their width. -/
theorem unle_le (n v : Nat) : unle (le n v) = v % 256 ^ n := by
  induction n generalizing v with
  | zero => simp [le, unle, Nat.mod_one]
  | succ n ih =>
    have h := Nat.mod_mul (x := v) (a := 256) (b := 256 ^ n)
    simp only [le, unle, ih, BitVec.toNat_ofNat]
    have hc : 256 ^ (n + 1) = 256 * 256 ^ n := Nat.pow_succ'
    rw [hc, h]

/-- A list of bytes assembles to a number below its width. -/
theorem unle_lt (bs : List Byte) : unle bs < 256 ^ bs.length := by
  induction bs with
  | nil => simp [unle]
  | cons b bs ih =>
    have hb := b.isLt
    simp only [unle, List.length_cons, Nat.pow_succ]
    omega

/-- A number below its width comes back from its bytes. -/
theorem unle_le_of_lt {n v : Nat} (h : v < 256 ^ n) : unle (le n v) = v := by
  rw [unle_le, Nat.mod_eq_of_lt h]

/-- The bytes of the number that bytes assemble to are those bytes. -/
theorem le_unle (bs : List Byte) : le bs.length (unle bs) = bs := by
  induction bs with
  | nil => rfl
  | cons b bs ih =>
    have hb := b.isLt
    have hd : (b.toNat + 256 * unle bs) / 256 = unle bs := by omega
    simp only [List.length_cons, unle, le, hd, ih, List.cons.injEq, and_true]
    apply BitVec.eq_of_toNat_eq
    simp only [BitVec.toNat_ofNat]
    omega

/-- A word of w bytes comes back from its bytes. -/
theorem ofNat_unle_le (w : Width) (v : BitVec w.bits) : BitVec.ofNat w.bits (unle (le w.bytes v.toNat)) = v := by
  have h : v.toNat < 256 ^ w.bytes := by
    have hv := v.isLt
    cases w <;> exact lt_of_lt_of_eq hv (by decide)
  rw [unle_le_of_lt h, BitVec.ofNat_toNat, BitVec.setWidth_eq]

/-! ## Strings (R244, R248) -/

/-- No element of a cut string is zero. -/
theorem ne_zero_of_mem_untilNul {w : Nat} {xs : List (BitVec w)} {x : BitVec w} (h : x ∈ untilNul xs) : x ≠ 0#w := by
  have hx := (List.mem_takeWhile_imp h)
  simpa using hx

/-- A string without a zero is its own cut. -/
theorem untilNul_eq_self {w : Nat} {xs : List (BitVec w)} (h : ∀ x ∈ xs, x ≠ 0#w) : untilNul xs = xs := by
  induction xs with
  | nil => rfl
  | cons x xs ih =>
    have hx : (x != 0#w) = true := by simpa using h x (by simp)
    have ht := ih (fun y hy => h y (by simp [hy]))
    simp only [untilNul] at ht ⊢
    rw [List.takeWhile_cons, if_pos hx, ht]

/-- A cut string followed by a zero is cut to itself, whatever comes after. -/
theorem untilNul_append_zero {w : Nat} {xs : List (BitVec w)} (h : ∀ x ∈ xs, x ≠ 0#w) (ys : List (BitVec w)) :
    untilNul (xs ++ 0#w :: ys) = xs := by
  induction xs with
  | nil => simp [untilNul]
  | cons x xs ih =>
    have hx : (x != 0#w) = true := by simpa using h x (by simp)
    have ht := ih (fun y hy => h y (by simp [hy]))
    simp only [untilNul, List.cons_append] at ht ⊢
    rw [List.takeWhile_cons, if_pos hx, ht]

@[simp] theorem untilNul_untilNul {w : Nat} (xs : List (BitVec w)) : untilNul (untilNul xs) = untilNul xs :=
  untilNul_eq_self (fun _ hx => ne_zero_of_mem_untilNul hx)

/-- A padded field has its width. -/
theorem padTo_length {n : Nat} {s : List Byte} (h : s.length ≤ n) : (padTo n s).length = n := by
  simp only [padTo, List.length_append, List.length_replicate]
  omega

/-- Padding is cut off again. -/
theorem untilNul_padTo (n : Nat) (xs : List Byte) : untilNul (padTo n (untilNul xs)) = untilNul xs := by
  cases h : n - (untilNul xs).length with
  | zero => simp [padTo, h]
  | succ k =>
    rw [padTo, h, List.replicate_succ]
    exact untilNul_append_zero (fun _ hx => ne_zero_of_mem_untilNul hx) _

/-! ## Argument forms (R235) -/

@[simp] theorem argWord_word (w : Width) (v : BitVec w.bits) : argWord w (.data (.word w v)) = some v := by
  simp [argWord]

theorem argWord_eq_none {w : Width} {a : Arg} (h : ∀ v : BitVec w.bits, a ≠ .data (.word w v)) : argWord w a = none := by
  unfold argWord
  split
  · next w' v =>
    split
    · next hw => subst hw; exact absurd rfl (h v)
    · rfl
  · rfl

@[simp] theorem argBytes_bytes (bs : List Byte) : argBytes (.data (.bytes bs)) = some bs := rfl

theorem argBytes_eq_none {a : Arg} (h : ∀ bs, a ≠ .data (.bytes bs)) : argBytes a = none := by
  unfold argBytes
  split
  · next bs => exact absurd rfl (h bs)
  · rfl

@[simp] theorem argUnits_units (u : UnitWidth) (us : List (BitVec u.bits)) :
    argUnits u (.data (.units u us)) = some us := by
  simp only [argUnits, dite_true, Option.some.injEq]
  exact List.map_id' us

theorem argUnits_eq_none {u : UnitWidth} {a : Arg} (h : ∀ us : List (BitVec u.bits), a ≠ .data (.units u us)) :
    argUnits u a = none := by
  unfold argUnits
  split
  · next u' us =>
    split
    · next hu => subst hu; exact absurd rfl (h us)
    · rfl
  · rfl

@[simp] theorem argElems_elems (e : Width) (es : List (BitVec e.bits)) :
    argElems e (.data (.elems e es)) = some es := by
  simp only [argElems, dite_true, Option.some.injEq]
  exact List.map_id' es

theorem argElems_eq_none {e : Width} {a : Arg} (h : ∀ es : List (BitVec e.bits), a ≠ .data (.elems e es)) :
    argElems e a = none := by
  unfold argElems
  split
  · next e' es =>
    split
    · next he => subst he; exact absurd rfl (h es)
    · rfl
  · rfl

end Sys2Proof.Machine
end

