-- ==== Sys2Proof/Laws/Step.lean ====
section
/-! SUPPORT. The engine's turns, the two codec commands, the frame procedure and the step, each said once. -/

namespace Sys2Proof.Machine

/-- The multiplexer runs the same meanings as `exec`. -/
theorem mux_eq_exec {i : Instr} (h : isEntry i = true) (s : State) : mux i s = exec i s := by
  cases i <;> first | exact absurd (show false = true from h) Bool.false_ne_true | exact rfl

/-- No entry word decodes to a command (R111). -/
theorem decodeEntry_isEntry {e : Entry} {i : Instr} (h : decodeEntry e = .ok i) : isEntry i = true := by
  unfold decodeEntry at h
  split at h <;> first | cases h; rfl | cases h

/-- A step inside a message is one turn of the engine. -/
theorem stepMessage_eq_turn {m : Message} {s : State} (hm : s.msg = some m) :
    stepMessage m s = turn { st := s, msg := m } := by
  cases hn : m.nextEntry with
  | none => simp [stepMessage, turn, hn]
  | some e =>
    cases he : decodeEntry e with
    | error r => simp [stepMessage, turn, hn, he]
    | ok i =>
      simp only [stepMessage, turn, hn, he, Active.keep_of_msg hm, mux_eq_exec (decodeEntry_isEntry he)]

/-- The three cases of a step: a turn of an open message, idling on an empty port, or the oldest command. -/
theorem step_cases (s : State) :
    (∃ m, s.msg = some m ∧ step s = stepMessage m s) ∨
    (s.msg = none ∧ s.port = [] ∧ step s = .next s) ∨
    (s.msg = none ∧ ∃ c rest, s.port = c :: rest ∧ step s = takeCommand c { s with port := rest }) := by
  unfold step
  cases hm : s.msg with
  | some m => exact .inl ⟨m, rfl, rfl⟩
  | none =>
    cases hp : s.port with
    | nil => exact .inr (.inl ⟨rfl, rfl, rfl⟩)
    | cons c rest => exact .inr (.inr ⟨rfl, c, rest, rfl, rfl⟩)

/-- The two cases of taking a command: its meaning, or the response to an unknown opcode. -/
theorem takeCommand_cases (c : Issue) (s : State) :
    (∃ i, decodeCommand c = .ok i ∧ takeCommand c s = exec i s) ∨
    (∃ e, decodeCommand c = .error e ∧ takeCommand c s = .next (unknownOpcode s)) := by
  unfold takeCommand
  cases h : decodeCommand c with
  | ok i => exact .inl ⟨i, rfl, rfl⟩
  | error e => exact .inr ⟨e, rfl, rfl⟩

/-- The cases of a turn: an entry's meaning, a reserved tag, or the end of a range. -/
theorem turn_cases (a : Active) :
    (∃ e i, a.msg.nextEntry = some e ∧ decodeEntry e = .ok i ∧ turn a = mux i a.keep) ∨
    (∃ e r, a.msg.nextEntry = some e ∧ decodeEntry e = .error r ∧ turn a = .next (reservedTag a)) ∨
    (a.msg.nextEntry = none ∧
      turn a = onRing (a.st.cursorsInRing && decide (a.msg.cur < a.st.params.cap)) (.next a.close)) := by
  unfold turn
  cases hn : a.msg.nextEntry with
  | none => exact .inr (.inr ⟨rfl, rfl⟩)
  | some e =>
    cases he : decodeEntry e with
    | ok i => exact .inl ⟨e, i, rfl, he, by simp [he]⟩
    | error r => exact .inr (.inl ⟨e, r, rfl, he, by simp [he]⟩)

/-- A run of turns ends where the message has. -/
theorem runTurns_of_none (n : Nat) {s : State} (h : s.msg = none) : runTurns n s = .next s := by
  cases n <;> simp [runTurns, h]

/-- One turn of a run. -/
theorem runTurns_succ {n : Nat} {s t : State} {m : Message} (h : s.msg = some m)
    (ht : turn { st := s, msg := m } = .next t) : runTurns (n + 1) s = runTurns n t := by
  simp [runTurns, h, ht]

/-- What every turn keeps, a run of turns keeps. -/
theorem runTurns_induct {P : State → Prop}
    (hturn : ∀ s m t, P s → s.msg = some m → turn { st := s, msg := m } = .next t → P t) :
    ∀ n s t, P s → runTurns n s = .next t → P t := by
  intro n
  induction n with
  | zero => intro s t hs h; cases h; exact hs
  | succ n ih =>
    intro s t hs h
    cases hm : s.msg with
    | none => rw [runTurns_of_none _ hm] at h; cases h; exact hs
    | some m =>
      cases ht : turn { st := s, msg := m } with
      | next u => rw [runTurns_succ hm ht] at h; exact ih u t (hturn s m u hs hm ht) h
      | fault r => simp [runTurns, hm, ht] at h
      | refused r => simp [runTurns, hm, ht] at h

/-- An ENCODE whose pre-checks hold runs the engine from its seeded message. -/
theorem execEncode_ready {s : State} {desc : List Entry} {args : List Arg} (h : encReady s desc args)
    (hr : s.cursorsInRing = true) :
    execEncode desc args s = runTurns (turnsFor desc.length) (encOpened s desc args) := by
  obtain ⟨hl, hd, ha, hp⟩ := h
  simp [execEncode, hl, hd, ha, Nat.not_lt.2 hp, hr, encOpened]

/-- An ENCODE either fails a pre-check with only the error record written, or runs the engine. -/
theorem execEncode_next {s t : State} {desc : List Entry} {args : List Arg} (h : execEncode desc args s = .next t) :
    (¬ encReady s desc args ∧ ∃ k index, t = s.raise k index s.stop.toNat) ∨
    (encReady s desc args ∧ s.cursorsInRing = true ∧
      runTurns (turnsFor desc.length) (encOpened s desc args) = .next t) := by
  unfold execEncode at h
  split at h
  · next hl => cases h; exact .inl ⟨by simp [encReady, hl], _, _, rfl⟩
  · split at h
    · next hd => cases h; exact .inl ⟨by simp_all [encReady], _, _, rfl⟩
    · split at h
      · next ha => cases h; exact .inl ⟨by simp_all [encReady], _, _, rfl⟩
      · split at h
        · next hp => cases h; exact .inl ⟨fun hr => by obtain ⟨_, _, _, hq⟩ := hr; omega, _, _, rfl⟩
        · next hl hd ha hp =>
          obtain ⟨hr, hk⟩ := onRing_next h
          refine .inr ⟨⟨by simpa using hl, ?_, ?_, by omega⟩, hr, hk⟩
          · rintro rfl; simp at hd
          · rintro rfl; simp at ha

/-- A DECODE whose pre-checks hold runs the engine from its seeded message. -/
theorem execDecode_ready {s : State} {desc : List Entry} (h : decReady s desc) (hr : s.cursorsInRing = true) :
    execDecode desc s = runTurns (turnsFor desc.length) (decOpened s desc) := by
  obtain ⟨he, hl, hd, hp, ha⟩ := h
  have hadr : ¬ (s.dmode = true ∧ leadsWithAdr desc = false) := fun hx => by simp [ha hx.1] at hx
  simp only [execDecode, if_neg he, hl, Bool.false_eq_true, if_false, List.length_eq_zero_iff, if_neg hd,
    if_neg (Nat.not_lt.2 hp), if_neg hadr, hr, onRing_true]
  rfl

/-- A DECODE is refused in Error, fails a pre-check, or runs the engine. -/
theorem execDecode_next {s t : State} {desc : List Entry} (h : execDecode desc s = .next t) :
    (s.dstate = .error ∧ t = ({ s with trace := [] }).respond .invalidOperation .none) ∨
    (s.dstate ≠ .error ∧ ¬ decReady s desc ∧ ∃ d k index, (d = .locked ∨ d = .error) ∧
      t = (({ s with trace := [] }).enter d).raise k index s.start.toNat) ∨
    (decReady s desc ∧ s.cursorsInRing = true ∧
      runTurns (turnsFor desc.length) (decOpened s desc) = .next t) := by
  unfold execDecode decPrecheck at h
  simp only at h
  split at h
  · next he => cases h; exact .inl ⟨he, rfl⟩
  · next he =>
    split at h
    · next hl => cases h; exact .inr (.inl ⟨he, by simp [decReady, hl], .locked, _, _, .inl rfl, rfl⟩)
    · split at h
      · next hd => cases h; exact .inr (.inl ⟨he, by simp_all [decReady], .error, _, _, .inr rfl, rfl⟩)
      · split at h
        · next hp =>
          cases h
          exact .inr (.inl ⟨he, fun hr => by obtain ⟨_, _, _, hq, _⟩ := hr; omega, .error, _, _, .inr rfl, rfl⟩)
        · split at h
          · next ha =>
            cases h
            exact .inr (.inl ⟨he, fun hr => by
              obtain ⟨_, _, _, _, hq⟩ := hr; simp [hq ha.1] at ha, .error, _, _, .inr rfl, rfl⟩)
          · next hl hd hp ha =>
            obtain ⟨hr, hk⟩ := onRing_next h
            refine .inr (.inr ⟨⟨he, by simpa using hl, ?_, by omega, ?_⟩, hr, hk⟩)
            · rintro rfl; simp at hd
            · intro hm; by_contra hx; exact ha ⟨hm, by simpa using hx⟩

/-- A frame fails a check with only the error record written, or is written whole (R390). -/
theorem frame_next {c : Byte} {m : Word} {addr : List Byte} {s t : State} (h : frame c m addr s = .next t) :
    (¬ frameReady m addr s ∧ ∃ k, t = s.raise k 0 s.stop.toNat) ∨
    (frameReady m addr s ∧ s.cursorsInRing = true ∧ t = writeFrame s (frameBytes c m addr)) := by
  unfold frame at h
  split at h
  · next hl => cases h; exact .inl ⟨by simp [frameReady, hl], _, rfl⟩
  · split at h
    · next hn => cases h; exact .inl ⟨fun hr => by obtain ⟨_, hq, _⟩ := hr; omega, _, rfl⟩
    · split at h
      · next hs => cases h; exact .inl ⟨fun hr => by obtain ⟨_, _, hq⟩ := hr; omega, _, rfl⟩
      · next hl hn hs =>
        obtain ⟨hr, hk⟩ := onRing_next h
        cases hk
        exact .inr ⟨⟨by simpa using hl, by omega, by omega⟩, hr, rfl⟩

/-- The frame in terms of the run of bytes it writes. -/
theorem writeFrame_eq (s : State) (bs : List Byte) :
    writeFrame s bs =
      ({ s.writeRun s.stop.toNat bs with
        stop := BitVec.ofNat 32 (advN s.params.cap bs.length s.stop.toNat)
        hash := hashBytes s.params.hashMul s.params.hashSeed bs }).complete .none := by
  simp [writeFrame, Active.emitBytes_eq, frameMessage, Message.ran]

end Sys2Proof.Machine
end

