-- ==== Sys2Proof/Laws/PerInstr.lean ====
section
/-! SUPPORT. A statement per instruction: bits 7:0 of its encoding are the code its row of spec/opcode_table.json gives
(R102, R111). -/

namespace Sys2Proof.Laws

/-- Bits 7:0 of an encoded instruction: OPC of a command word, TAG of an entry (R100, R110). -/
def codeByte : Encoded → Byte
  | .command c => opcOf c.word
  | .entry e => tagOf e

/-- The match value of an instruction's row in spec/opcode_table.json. -/
def tableCode : Instr → Byte
  | .nop => 0x00#8
  | .encode _ _ => 0x01#8
  | .decode _ => 0x02#8
  | .bell _ _ => 0x03#8
  | .ack _ _ => 0x04#8
  | .setCursors _ _ => 0x05#8
  | .push _ => 0x06#8
  | .pop => 0x07#8
  | .peek _ => 0x08#8
  | .readReg _ => 0x09#8
  | .writeReg _ _ => 0x0a#8
  | .softReset => 0x0b#8
  | .nil => 0x00#8
  | .adr _ => 0x01#8
  | .str _ => 0x02#8
  | .st2 _ => 0x03#8
  | .st4 _ => 0x04#8
  | .si1 => 0x05#8
  | .ui1 => 0x06#8
  | .bol => 0x07#8
  | .si2 => 0x08#8
  | .ui2 => 0x09#8
  | .hlf => 0x0a#8
  | .si4 => 0x0b#8
  | .ui4 => 0x0c#8
  | .flt => 0x0d#8
  | .tms => 0x0e#8
  | .si8 => 0x0f#8
  | .ui8 => 0x10#8
  | .dbl => 0x11#8
  | .tmu => 0x12#8
  | .sv2 => 0x13#8
  | .uv2 => 0x14#8
  | .sv4 => 0x15#8
  | .uv4 => 0x16#8
  | .sv8 => 0x17#8
  | .uv8 => 0x18#8
  | .ar1 _ => 0x19#8
  | .ar2 _ => 0x1a#8
  | .ar4 _ => 0x1b#8
  | .ar8 _ => 0x1c#8
  | .bsc _ => 0x1d#8
  | .obj _ _ => 0x1e#8

/-- The code of an instruction's encoding is its row's. -/
def CodeByte.Statement (i : Instr) : Prop := codeByte (encode i) = tableCode i

theorem opcOf_commandWord (opc : Nat) (imm : Byte) : opcOf (commandWord opc imm) = BitVec.ofNat 8 opc := by
  apply BitVec.eq_of_getLsbD_eq
  intro k hk
  have h32 : k < 32 := by omega
  simp [opcOf, commandWord, hk]
  rw [← BitVec.getLsbD_eq_getElem, BitVec.getLsbD_ofNat, BitVec.getLsbD_ofNat, decide_eq_true hk, decide_eq_true h32]

theorem tagOf_entryWord (tag qual : Nat) : tagOf (entryWord tag qual) = BitVec.ofNat 8 tag := by
  apply BitVec.eq_of_getLsbD_eq
  intro k hk
  have h32 : k < 32 := by omega
  simp [tagOf, entryWord, hk]
  rw [← BitVec.getLsbD_eq_getElem, BitVec.getLsbD_ofNat, BitVec.getLsbD_ofNat, decide_eq_true hk, decide_eq_true h32]

theorem CodeByte.nop : CodeByte.Statement .nop := opcOf_commandWord _ _
theorem CodeByte.encode (desc : List Entry) (args : List Arg) : CodeByte.Statement (.encode desc args) := opcOf_commandWord _ _
theorem CodeByte.decode (desc : List Entry) : CodeByte.Statement (.decode desc) := opcOf_commandWord _ _
theorem CodeByte.bell (m : Word) (addr : List Byte) : CodeByte.Statement (.bell m addr) := opcOf_commandWord _ _
theorem CodeByte.ack (m : Word) (addr : List Byte) : CodeByte.Statement (.ack m addr) := opcOf_commandWord _ _
theorem CodeByte.setCursors (s t : Word) : CodeByte.Statement (.setCursors s t) := opcOf_commandWord _ _
theorem CodeByte.push (b : Byte) : CodeByte.Statement (.push b) := opcOf_commandWord _ _
theorem CodeByte.pop : CodeByte.Statement .pop := opcOf_commandWord _ _
theorem CodeByte.peek (ix : Word) : CodeByte.Statement (.peek ix) := opcOf_commandWord _ _
theorem CodeByte.readReg (r : Byte) : CodeByte.Statement (.readReg r) := opcOf_commandWord _ _
theorem CodeByte.writeReg (r : Byte) (v : Word) : CodeByte.Statement (.writeReg r v) := opcOf_commandWord _ _
theorem CodeByte.softReset : CodeByte.Statement .softReset := opcOf_commandWord _ _
theorem CodeByte.nil : CodeByte.Statement .nil := tagOf_entryWord _ _
theorem CodeByte.adr (maxlen : Nat) : CodeByte.Statement (.adr maxlen) := tagOf_entryWord _ _
theorem CodeByte.str (maxlen : Nat) : CodeByte.Statement (.str maxlen) := tagOf_entryWord _ _
theorem CodeByte.st2 (maxlen : Nat) : CodeByte.Statement (.st2 maxlen) := tagOf_entryWord _ _
theorem CodeByte.st4 (maxlen : Nat) : CodeByte.Statement (.st4 maxlen) := tagOf_entryWord _ _
theorem CodeByte.si1 : CodeByte.Statement .si1 := tagOf_entryWord _ _
theorem CodeByte.ui1 : CodeByte.Statement .ui1 := tagOf_entryWord _ _
theorem CodeByte.bol : CodeByte.Statement .bol := tagOf_entryWord _ _
theorem CodeByte.si2 : CodeByte.Statement .si2 := tagOf_entryWord _ _
theorem CodeByte.ui2 : CodeByte.Statement .ui2 := tagOf_entryWord _ _
theorem CodeByte.hlf : CodeByte.Statement .hlf := tagOf_entryWord _ _
theorem CodeByte.si4 : CodeByte.Statement .si4 := tagOf_entryWord _ _
theorem CodeByte.ui4 : CodeByte.Statement .ui4 := tagOf_entryWord _ _
theorem CodeByte.flt : CodeByte.Statement .flt := tagOf_entryWord _ _
theorem CodeByte.tms : CodeByte.Statement .tms := tagOf_entryWord _ _
theorem CodeByte.si8 : CodeByte.Statement .si8 := tagOf_entryWord _ _
theorem CodeByte.ui8 : CodeByte.Statement .ui8 := tagOf_entryWord _ _
theorem CodeByte.dbl : CodeByte.Statement .dbl := tagOf_entryWord _ _
theorem CodeByte.tmu : CodeByte.Statement .tmu := tagOf_entryWord _ _
theorem CodeByte.sv2 : CodeByte.Statement .sv2 := tagOf_entryWord _ _
theorem CodeByte.uv2 : CodeByte.Statement .uv2 := tagOf_entryWord _ _
theorem CodeByte.sv4 : CodeByte.Statement .sv4 := tagOf_entryWord _ _
theorem CodeByte.uv4 : CodeByte.Statement .uv4 := tagOf_entryWord _ _
theorem CodeByte.sv8 : CodeByte.Statement .sv8 := tagOf_entryWord _ _
theorem CodeByte.uv8 : CodeByte.Statement .uv8 := tagOf_entryWord _ _
theorem CodeByte.ar1 (count : Nat) : CodeByte.Statement (.ar1 count) := tagOf_entryWord _ _
theorem CodeByte.ar2 (count : Nat) : CodeByte.Statement (.ar2 count) := tagOf_entryWord _ _
theorem CodeByte.ar4 (count : Nat) : CodeByte.Statement (.ar4 count) := tagOf_entryWord _ _
theorem CodeByte.ar8 (count : Nat) : CodeByte.Statement (.ar8 count) := tagOf_entryWord _ _
theorem CodeByte.bsc (n : Nat) : CodeByte.Statement (.bsc n) := tagOf_entryWord _ _
theorem CodeByte.obj (pw : PrefixWidth) (omax : Nat) : CodeByte.Statement (.obj pw omax) := tagOf_entryWord _ _

end Sys2Proof.Laws
end

