-- ==== Sys2Proof/Machine/Text.lean ====
section
/-! DEFINITION. The text syntax of R120: what a written argument stands for under the tag of its entry, and the words a
written descriptor stands for. The block reads no text; the host's tools do (log entry 18). -/

namespace Sys2Proof.Machine

/-- A written argument (R120). A string literal is the list of its characters. -/
inductive TextArg where
  /-- A string literal. -/
  | str (cs : List Char)
  /-- `u"…"`: 16-bit code units. -/
  | str16 (us : List Nat)
  /-- `U"…"`: 32-bit code units. -/
  | str32 (us : List Nat)
  /-- An integer literal. -/
  | int (v : Int)
  /-- A braced list of integer literals. -/
  | set (vs : List Int)
  /-- `bytes(h h …)`. -/
  | bytes (bs : List Nat)
  /-- `_`. -/
  | blank
  deriving DecidableEq, Repr

/-- The width of an integer literal under a scalar or varint tag, or of an element under an array tag: the tag's own
(R111). -/
def textWidth : Instr → Option Width
  | .si1 | .ui1 | .bol | .ar1 _ => some .w8
  | .si2 | .ui2 | .hlf | .sv2 | .uv2 | .ar2 _ => some .w16
  | .si4 | .ui4 | .flt | .tms | .sv4 | .uv4 | .ar4 _ => some .w32
  | .si8 | .ui8 | .dbl | .tmu | .sv8 | .uv8 | .ar8 _ => some .w64
  | .nil | .adr _ | .str _ | .st2 _ | .st4 _ | .bsc _ | .obj _ _ => none
  | .nop | .encode _ _ | .decode _ | .bell _ _ | .ack _ _ | .setCursors _ _ | .push _ | .pop | .peek _
  | .readReg _ | .writeReg _ _ | .softReset => none

/-- The argument a text stands for under an entry (R120): `WORD(w, v mod 2^w)` for an integer, `ELEMS` for a set, with
w the tag's width. A text that the entry's tag gives no width stands for no argument. -/
def TextArg.arg (i : Instr) : TextArg → Option Arg
  | .str cs => some (.data (.bytes (cs.map (fun c => BitVec.ofNat 8 c.toNat))))
  | .str16 us => some (.data (.units .u16 (us.map (BitVec.ofNat 16))))
  | .str32 us => some (.data (.units .u32 (us.map (BitVec.ofNat 32))))
  | .int v => (textWidth i).map (fun w => .data (.word w (BitVec.ofInt w.bits v)))
  | .set vs => (textWidth i).map (fun e => .data (.elems e (vs.map (BitVec.ofInt e.bits))))
  | .bytes bs => some (.data (.bytes (bs.map (BitVec.ofNat 8))))
  | .blank => some .absent

/-- The entry word of a written entry: `TAG | QUAL << 8` (R110, R120); none for a command. -/
def textEntry (i : Instr) : Option Entry :=
  match encode i with
  | .entry e => some e
  | .command _ => none

/-- A written ENCODE: its descriptor and its argument list (R120). -/
def textEncode (fields : List (Instr × TextArg)) : Option Instr := do
  let desc ← fields.mapM (fun f => textEntry f.1)
  let args ← fields.mapM (fun f => f.2.arg f.1)
  pure (.encode desc args)

/-- A written DECODE: its descriptor (R120). -/
def textDecode (entries : List Instr) : Option Instr := do
  let desc ← entries.mapM textEntry
  pure (.decode desc)

end Sys2Proof.Machine
end

