-- ==== Sys2Proof/Tests/Slice0.lean ====
section
/-! SUPPORT. The model's own tests: ill-formed instructions, words written out from the spec's encodings, the spec's
worked examples, and for every statement with hypotheses a state that meets them. Expected values are the spec's. -/

namespace Sys2Proof.Tests

open Sys2Proof.Machine

/-! ## WellFormed: each check refuses an ill-formed instruction -/

theorem test_wf_adr : Instr.wf (.adr (2 ^ 24)) = false := by decide
theorem test_wf_str : Instr.wf (.str (2 ^ 24)) = false := by decide
theorem test_wf_st2 : Instr.wf (.st2 (2 ^ 24)) = false := by decide
theorem test_wf_st4 : Instr.wf (.st4 (2 ^ 24)) = false := by decide
theorem test_wf_arrays : (Instr.wf (.ar1 (2 ^ 24)) || Instr.wf (.ar2 (2 ^ 24)) || Instr.wf (.ar4 (2 ^ 24)) ||
    Instr.wf (.ar8 (2 ^ 24))) = false := by decide
theorem test_wf_bsc : Instr.wf (.bsc (2 ^ 24)) = false := by decide
theorem test_wf_obj : Instr.wf (.obj .p8 (2 ^ 22)) = false := by decide
theorem test_wf_accepts : (Instr.wf (.adr (2 ^ 24 - 1)) && Instr.wf (.obj .p8 (2 ^ 22 - 1)) && Instr.wf .nop) = true := by
  decide

/-! ## Decoding: words written out bit by bit from R100, R102, R110, R111 and R112 -/

/-- The lanes of a command, each with a value of its own. -/
def lanes : Operands where
  desc := [0x06#32]
  args := [.absent]
  m := 1
  addr := [2#8]
  s := 3
  t := 4
  ix := 5
  v := 6

/-- The instruction a command word reads as, on those lanes. -/
def reads (w : Word) : Except DecodeError Instr := decodeCommand { word := w, lanes := lanes }

theorem test_decode_nop : reads 0b00000000000000000000000000000000#32 = .ok .nop := by decide
theorem test_decode_encode : reads 0b00000000000000000000000000000001#32 = .ok (.encode [0x06#32] [.absent]) := by decide
theorem test_decode_decode : reads 0b00000000000000000000000000000010#32 = .ok (.decode [0x06#32]) := by decide
theorem test_decode_bell : reads 0b00000000000000000000000000000011#32 = .ok (.bell 1 [2#8]) := by decide
theorem test_decode_ack : reads 0b00000000000000000000000000000100#32 = .ok (.ack 1 [2#8]) := by decide
theorem test_decode_set_cursors : reads 0b00000000000000000000000000000101#32 = .ok (.setCursors 3 4) := by decide
/-- `PUSH 0x41`, with its reserved bits set (R103). -/
theorem test_decode_push : reads 0b11111111111111110100000100000110#32 = .ok (.push 0x41) := by decide
/-- POP ignores IMM8 (R103). -/
theorem test_decode_pop : reads 0b00000000000000001111111100000111#32 = .ok .pop := by decide
theorem test_decode_peek : reads 0b00000000000000000000000000001000#32 = .ok (.peek 5) := by decide
theorem test_decode_read_reg : reads 0b00000000000000000000010100001001#32 = .ok (.readReg 0x05) := by decide
theorem test_decode_write_reg : reads 0b00000000000000000000011100001010#32 = .ok (.writeReg 0x07 6) := by decide
theorem test_decode_soft_reset : reads 0b00000000000000000000000000001011#32 = .ok .softReset := by decide
theorem test_decode_unknown : reads 0b00000000000000000000000000001100#32 = .error (.unknownOpcode 0x0C) := by decide

/-- NIL and the scalars; a QUAL where none is read is ignored (R114). -/
theorem test_decode_scalars :
    decodeEntry 0b00000000000000000000000000000000#32 = .ok .nil ∧
    decodeEntry 0b00000000000000000000000000000101#32 = .ok .si1 ∧
    decodeEntry 0b11111111111111111111111100000110#32 = .ok .ui1 ∧
    decodeEntry 0b00000000000000000000000000000111#32 = .ok .bol ∧
    decodeEntry 0b00000000000000000000000000001000#32 = .ok .si2 ∧
    decodeEntry 0b00000000000000000000000000001001#32 = .ok .ui2 ∧
    decodeEntry 0b00000000000000000000000000001010#32 = .ok .hlf ∧
    decodeEntry 0b00000000000000000000000000001011#32 = .ok .si4 ∧
    decodeEntry 0b00000000000000000000000000001100#32 = .ok .ui4 ∧
    decodeEntry 0b00000000000000000000000000001101#32 = .ok .flt ∧
    decodeEntry 0b00000000000000000000000000001110#32 = .ok .tms ∧
    decodeEntry 0b00000000000000000000000000001111#32 = .ok .si8 ∧
    decodeEntry 0b00000000000000000000000000010000#32 = .ok .ui8 ∧
    decodeEntry 0b00000000000000000000000000010001#32 = .ok .dbl ∧
    decodeEntry 0b00000000000000000000000000010010#32 = .ok .tmu := by decide

theorem test_decode_varints :
    decodeEntry 0b00000000000000000000000000010011#32 = .ok .sv2 ∧
    decodeEntry 0b00000000000000000000000000010100#32 = .ok .uv2 ∧
    decodeEntry 0b00000000000000000000000000010101#32 = .ok .sv4 ∧
    decodeEntry 0b00000000000000000000000000010110#32 = .ok .uv4 ∧
    decodeEntry 0b00000000000000000000000000010111#32 = .ok .sv8 ∧
    decodeEntry 0b00000000000000000000000000011000#32 = .ok .uv8 := by decide

/-- `ADR(8)`, `STR(5)`, `ST2(3)`, `ST4(2^24 - 1)`. -/
theorem test_decode_strings :
    decodeEntry 0b00000000000000000000100000000001#32 = .ok (.adr 8) ∧
    decodeEntry 0b00000000000000000000010100000010#32 = .ok (.str 5) ∧
    decodeEntry 0b00000000000000000000001100000011#32 = .ok (.st2 3) ∧
    decodeEntry 0b11111111111111111111111100000100#32 = .ok (.st4 (2 ^ 24 - 1)) := by decide

/-- `AR1(3)`, `AR2(2)`, `AR4(1)`, `AR8(2^23)`. -/
theorem test_decode_arrays :
    decodeEntry 0b00000000000000000000001100011001#32 = .ok (.ar1 3) ∧
    decodeEntry 0b00000000000000000000001000011010#32 = .ok (.ar2 2) ∧
    decodeEntry 0b00000000000000000000000100011011#32 = .ok (.ar4 1) ∧
    decodeEntry 0b10000000000000000000000000011100#32 = .ok (.ar8 (2 ^ 23)) := by decide

/-- `BSC(2)`, `OBJ(pw=0, max=4)`, `OBJ(pw=1, max=4)`, `OBJ(pw=3, max=2^21)`, and the reserved tag 31. -/
theorem test_decode_bsc_obj :
    decodeEntry 0b00000000000000000000001000011101#32 = .ok (.bsc 2) ∧
    decodeEntry 0b00000000000000000001000000011110#32 = .ok (.obj .p1 4) ∧
    decodeEntry 0b00000000000000000001000100011110#32 = .ok (.obj .p2 4) ∧
    decodeEntry 0b10000000000000000000001100011110#32 = .ok (.obj .p8 (2 ^ 21)) ∧
    decodeEntry 0b00000000000000000000000000011111#32 = .error (.unknownTag 31) := by decide

/-! ## The worked examples of R250-R280 and R340-R370 -/

/-- Power-on of the examples' instance, with the ring capacity given. -/
def ring (cap : Nat) : State := State.powerOn { Config.params with cap := cap }

/-- The next state of an outcome. -/
def nextOf : Out → Option State
  | .next s => some s
  | .fault _ => none
  | .refused _ => none

/-- Bytes listed from ring index 0. -/
def bytes (bs : List Nat) : List Byte := bs.map (BitVec.ofNat 8)
def listed (bs : List Nat) : Memory := (List.range bs.length).zip (bytes bs)

/-- ENCODE of these fields into an empty ring leaves exactly this message, its length in STOP and its trailer in
HASH. -/
def encodes (fields : List (Instr × TextArg)) (message : List Nat) : Bool :=
  match textEncode fields with
  | none => false
  | some i =>
    match nextOf (exec i (ring 32)) with
    | none => false
    | some t =>
      t.buf == listed message && t.stop == BitVec.ofNat 32 message.length && t.start == 0 && t.errKind == .none &&
        le 2 t.hash.toNat == bytes (message.drop (message.length - 2))

/-- DECODE of these entries on this message gives these values, takes it all, and passes through these states. -/
def decodes (entries : List Instr) (message : List Nat) (vals : List Value) (trace : List DState) : Bool :=
  match textDecode entries with
  | none => false
  | some i =>
    match nextOf (exec i { ring 32 with buf := listed message, stop := BitVec.ofNat 32 message.length }) with
    | none => false
    | some t =>
      t.response == responded .none (.values vals) && t.start == BitVec.ofNat 32 message.length && t.trace == trace &&
        t.dstate == .args

/-- One field: its message, and back. -/
def example1 (i : Instr) (a : TextArg) (message : List Nat) (val : Value) (trace : List DState) : Bool :=
  encodes [(i, a)] message && decodes [i] message [val] trace

abbrev wordValue (w : Width) (v : BitVec w.bits) : Value := .data (.word w v)
abbrev podTrace : List DState := [.args, .pod, .args, .hash, .args]
abbrev varintTrace : List DState := [.args, .varint, .args, .hash, .args]

/-- R250, R340. -/
theorem test_nil : example1 .nil .blank [0xF1, 0xFF]
    .nil [.args, .args, .hash, .args] = true := by decide

/-- R251, R341. -/
theorem test_adr : example1 (.adr 4) (.str ['a', 'b']) [0x61, 0x62, 0x00, 0x00, 0x84, 0xF4]
    (.data (.bytes [0x61, 0x62])) [.args, .address, .args, .hash, .args] = true := by decide

/-- R252, R342. -/
theorem test_str : example1 (.str 4) (.str ['h', 'i']) [0x68, 0x69, 0x00, 0xB2, 0xF3]
    (.data (.bytes [0x68, 0x69])) [.args, .utf8, .args, .hash, .args] = true := by decide

/-- R253, R343. -/
theorem test_st2 : example1 (.st2 3) (.str16 [0x0041, 0x20AC]) [0x41, 0x00, 0xAC, 0x20, 0x00, 0x00, 0x2E, 0xF0]
    (.data (.units .u16 [0x0041, 0x20AC])) [.args, .utf16, .args, .hash, .args] = true := by decide

/-- R254, R344. -/
theorem test_st4 : example1 (.st4 2) (.str32 [0x0001F600]) [0x00, 0xF6, 0x01, 0x00, 0x00, 0x00, 0x00, 0x00, 0x78, 0xF1]
    (.data (.units .u32 [0x0001F600])) [.args, .utf32, .args, .hash, .args] = true := by decide

/-- R255, R345. -/
theorem test_si1 : example1 .si1 (.int (-1)) [0xFF, 0x00, 0xF1]
    (wordValue .w8 0xFF) podTrace = true := by decide

/-- R256, R346. -/
theorem test_ui1 : example1 .ui1 (.int (0x80)) [0x80, 0x71, 0xF8]
    (wordValue .w8 0x80) podTrace = true := by decide

/-- R257, R347. -/
theorem test_bol : example1 .bol (.int (1)) [0x01, 0xE2, 0xFF]
    (wordValue .w8 1) podTrace = true := by decide

/-- R258, R348. -/
theorem test_si2 : example1 .si2 (.int (-2)) [0xFE, 0xFF, 0x1E, 0xE2]
    (wordValue .w16 0xFFFE) podTrace = true := by decide

/-- R259, R349. -/
theorem test_ui2 : example1 .ui2 (.int (0x1234)) [0x34, 0x12, 0xD7, 0xFB]
    (wordValue .w16 0x1234) podTrace = true := by decide

/-- R260, R350. -/
theorem test_hlf : example1 .hlf (.int (0x3C00)) [0x00, 0x3C, 0x6D, 0xFC]
    (wordValue .w16 0x3C00) podTrace = true := by decide

/-- R261, R351. -/
theorem test_si4 : example1 .si4 (.int (-7)) [0xF9, 0xFF, 0xFF, 0xFF, 0x87, 0xC4]
    (wordValue .w32 0xFFFFFFF9) podTrace = true := by decide

/-- R262, R352. -/
theorem test_ui4 : example1 .ui4 (.int (0xDEADBEEF)) [0xEF, 0xBE, 0xAD, 0xDE, 0xA9, 0xCF]
    (wordValue .w32 0xDEADBEEF) podTrace = true := by decide

/-- R263, R353. -/
theorem test_flt : example1 .flt (.int (0x3F800000)) [0x00, 0x00, 0x80, 0x3F, 0xC0, 0xF4]
    (wordValue .w32 0x3F800000) podTrace = true := by decide

/-- R264, R354. -/
theorem test_tms : example1 .tms (.int (1000)) [0xE8, 0x03, 0x00, 0x00, 0x2C, 0xF2]
    (wordValue .w32 0x3E8) podTrace = true := by decide

/-- R265, R355. -/
theorem test_si8 : example1 .si8 (.int (-1)) [0xFF, 0xFF, 0xFF, 0xFF, 0xFF, 0xFF, 0xFF, 0xFF, 0x69, 0x88]
    (wordValue .w64 0xFFFFFFFFFFFFFFFF) podTrace = true := by decide

/-- R266, R356. -/
theorem test_ui8 : example1 .ui8 (.int (0x0102030405060708)) [0x08, 0x07, 0x06, 0x05, 0x04, 0x03, 0x02, 0x01, 0xD5, 0xFD]
    (wordValue .w64 0x0102030405060708) podTrace = true := by decide

/-- R267, R357. -/
theorem test_dbl : example1 .dbl (.int (0x3FF0000000000000)) [0x00, 0x00, 0x00, 0x00, 0x00, 0x00, 0xF0, 0x3F, 0x30, 0xEE]
    (wordValue .w64 0x3FF0000000000000) podTrace = true := by decide

/-- R268, R358. -/
theorem test_tmu : example1 .tmu (.int (1)) [0x01, 0x00, 0x00, 0x00, 0x00, 0x00, 0x00, 0x00, 0xE2, 0xFF]
    (wordValue .w64 1) podTrace = true := by decide

/-- R269, R359. -/
theorem test_sv2 : example1 .sv2 (.int (-32768)) [0x7F, 0x7F, 0x83, 0x62, 0xE9]
    (wordValue .w16 0x8000) varintTrace = true := by decide

/-- R270, R360. -/
theorem test_uv2 : example1 .uv2 (.int (300)) [0x2C, 0x82, 0xBF, 0xF5]
    (wordValue .w16 300) varintTrace = true := by decide

/-- R271, R361. -/
theorem test_sv4 : example1 .sv4 (.int (1073741824)) [0x00, 0x00, 0x00, 0x00, 0x88, 0xF9, 0xF7]
    (wordValue .w32 0x40000000) varintTrace = true := by decide

/-- R272, R362. -/
theorem test_uv4 : example1 .uv4 (.int (0xFFFFFFFF)) [0x7F, 0x7F, 0x7F, 0x7F, 0x8F, 0xCC, 0xD9]
    (wordValue .w32 0xFFFFFFFF) varintTrace = true := by decide

/-- R273, R363. -/
theorem test_sv8 : example1 .sv8 (.int (-1)) [0x81, 0x62, 0xF8]
    (wordValue .w64 0xFFFFFFFFFFFFFFFF) varintTrace = true := by decide

/-- R274, R364. -/
theorem test_uv8 : example1 .uv8 (.int (0xFFFFFFFFFFFFFFFF)) [0x7F, 0x7F, 0x7F, 0x7F, 0x7F, 0x7F, 0x7F, 0x7F, 0x7F, 0x01, 0xE9, 0xBC]
    (wordValue .w64 0xFFFFFFFFFFFFFFFF) varintTrace = true := by decide

/-- R275, R365. -/
theorem test_ar1 : example1 (.ar1 3) (.set [1, 2, 3]) [0x01, 0x02, 0x03, 0x97, 0xFF]
    (.data (.elems .w8 [1, 2, 3])) podTrace = true := by decide

/-- R276, R366. -/
theorem test_ar2 : example1 (.ar2 2) (.set [0x0102, 0xFFFF]) [0x02, 0x01, 0xFF, 0xFF, 0xE2, 0xE1]
    (.data (.elems .w16 [0x0102, 0xFFFF])) podTrace = true := by decide

/-- R277, R367. -/
theorem test_ar4 : example1 (.ar4 1) (.set [0x11223344]) [0x44, 0x33, 0x22, 0x11, 0xFB, 0xF5]
    (.data (.elems .w32 [0x11223344])) podTrace = true := by decide

/-- R278, R368. -/
theorem test_ar8 : example1 (.ar8 1) (.set [1]) [0x01, 0x00, 0x00, 0x00, 0x00, 0x00, 0x00, 0x00, 0xE2, 0xFF]
    (.data (.elems .w64 [1])) podTrace = true := by decide

/-- R280, R370. -/
theorem test_obj : example1 (.obj .p2 4) (.bytes [0x02, 0x00, 0x10, 0x20]) [0x02, 0x00, 0x10, 0x20, 0x03, 0xFD]
    (.data (.bytes [0x02, 0x00, 0x10, 0x20])) [.args, .object16, .args, .hash, .args] = true := by decide

/-- R279. -/
theorem test_bsc_encode : encodes [(.ui1, .int 1), (.bsc 2, .blank), (.ui1, .int 2), (.ui1, .int 3), (.ui1, .int 4)]
    [0x01, 0x02, 0x03, 0xA6, 0xFF, 0x04, 0xB0, 0xE6] = true := by decide
/-- R369. -/
theorem test_bsc_decode : decodes [.ui1, .bsc 2, .ui1, .ui1, .ui1] [0x01, 0x02, 0x03, 0xA6, 0xFF, 0x04, 0xB0, 0xE6]
    [wordValue .w8 1, .nil, wordValue .w8 2, wordValue .w8 3, wordValue .w8 4]
    [.args, .pod, .args, .pod, .args, .pod, .args, .hash, .args, .pod, .args, .hash, .args] = true := by decide

/-! ## Failures (R281, R371) -/

/-- A failing row's error record, its cursor (STOP of an ENCODE, START of a DECODE) and its HASH. -/
structure Row where
  kind : ErrKind
  index : Word
  addr : Word
  cursor : Word
  hash : Half
  deriving DecidableEq

/-- An ENCODE ends in this row with this storage. -/
def encodeEnds (s : State) (fields : List (Instr × TextArg)) (r : Row) (buf : Memory) : Bool :=
  match (textEncode fields).bind (fun i => nextOf (exec i s)) with
  | none => false
  | some t => decide (Row.mk t.errKind t.errIndex t.errAddr t.stop t.hash = r) && t.buf == buf

/-- A DECODE of this message, with CAP = 16, ends in this row with this trace. -/
def decodeEnds (entries : List Instr) (message : List Nat) (r : Row) (trace : List DState) : Bool :=
  let s := { ring 16 with buf := listed message, stop := BitVec.ofNat 32 message.length }
  match (textDecode entries).bind (fun i => nextOf (exec i s)) with
  | none => false
  | some t => decide (Row.mk t.errKind t.errIndex t.errAddr t.start t.hash = r) && t.trace == trace

/-- R281: a varint that does not fit leaves its first bytes in the free region. -/
theorem test_uv4_overflow : encodeEnds { ring 8 with stop := 4 } [(.uv4, .int 0xFFFFFFFF)]
    ⟨.bufferOverflow, 0, 7, 4, 0xE99E⟩ ([(4, 0x7F), (5, 0x7F), (6, 0x7F)]) = true := by decide
/-- R281. -/
theorem test_str_overflow : encodeEnds (ring 8) [(.str 8, .str ['a', 'b', 'c', 'd', 'e', 'f', 'g'])]
    ⟨.bufferOverflow, 0, 7, 0, 0xD6ED⟩ (listed [0x61, 0x62, 0x63, 0x64, 0x65, 0x66, 0x67]) = true := by decide
/-- R281: a fixed field without room writes nothing. -/
theorem test_si4_overflow : encodeEnds { ring 8 with stop := 4 } [(.si4, .int 1)]
    ⟨.bufferOverflow, 0, 4, 4, 0xFFF1⟩ ([]) = true := by decide
/-- R281: the top trailer does not fit. -/
theorem test_bsc_overflow : encodeEnds (ring 8) [(.bsc 1, .blank), (.ui4, .int 1)]
    ⟨.bufferOverflow, 2, 6, 6, 0xE3B3⟩ (listed [0x01, 0x00, 0x00, 0x00, 0xE2, 0xFF]) = true := by decide
/-- R371. -/
theorem test_decode_invalid_hash : decodeEnds [.ui1] [0x05, 0x00, 0x00]
    ⟨.invalidHash, 1, 1, 0, 0xFFA6⟩ [.args, .pod, .args, .hash, .error] = true := by decide
/-- R371. -/
theorem test_decode_varint_overflow : decodeEnds [.uv2] [0x00, 0x00, 0x84, 0x00, 0x00]
    ⟨.varintOverflow, 0, 2, 0, 0xF835⟩ [.args, .varint, .error] = true := by decide
/-- R371. -/
theorem test_decode_string_overflow : decodeEnds [.str 3] [0x61, 0x62, 0x63, 0x00, 0x00, 0x00]
    ⟨.stringOverflow, 0, 3, 0, 0xEEB7⟩ [.args, .utf8, .error] = true := by decide
/-- R371: the inner trailer of a BSC reports the BSC's own index. -/
theorem test_decode_inner_hash : decodeEnds [.bsc 1, .ui1] [0x05, 0x00, 0x00, 0x00, 0x00]
    ⟨.invalidHash, 0, 1, 0, 0xFFA6⟩ [.args, .pod, .args, .hash, .error] = true := by decide

/-! ## The units (R161, R192, R193, R219) -/

/-- R161, with CAP = 16. -/
theorem test_ring : (ringLen 16 14 3, ringSpace 16 14 3, adv 16 15, advN 16 4 14) = (5, 10, 0, 2) := by decide
/-- R192. -/
theorem test_pack : (pack .v64 0x8000000000000000#64, pack .v16 (zzEnc 0x8000#16), pack .v32 0x4000#32) =
    (bytes [0, 0, 0, 0, 0, 0, 0, 0, 0, 1], bytes [0x7F, 0x7F, 0x83], bytes [0x00, 0x00, 0x81]) := by decide
/-- R193. -/
theorem test_unpack : (unpack .v16 (bytes [0x00, 0x00, 0x84]), unpack .v16 (bytes [0x00, 0x80]),
    unpack .v16 (bytes [0x7F]), unpack .v64 (bytes [127, 127, 127, 127, 127, 127, 127, 127, 127, 2])) =
    (.fail .varintOverflow 2 3, .value 0 2, .fail .bufferUnderflow 1 1, .fail .varintOverflow 9 10) := by decide
/-- R219. -/
theorem test_hash16 : (hash16 0xFFF1 0x01 0xFFF1, hash16 0xFFF1 0xFF 0xFFF1, hash16 0xFFF1 0x80 0x0000) =
    (0xFFE2#16, 0xF100#16, 0xF880#16) := by decide

/-! ## The commands (R391, R392, R401-R409, 95_test_vectors.md section 2.7) -/

/-- The parts of the next state that a command's row gives. -/
def after (i : Instr) (s : State) {α : Type} (f : State → α) : Option α := (nextOf (exec i s)).map f

/-- R391. -/
theorem test_bell : after (.bell 8 (bytes [0x68, 0x6F, 0x73, 0x74, 0x31])) (ring 32) (fun t => (t.buf, t.stop, t.hash)) =
    some (listed [0x07, 0x68, 0x6F, 0x73, 0x74, 0x31, 0, 0, 0], 9, 0xE287) := by decide
/-- R392. -/
theorem test_ack : after (.ack 2 (bytes [0x70, 0x63])) (ring 32) (fun t => (t.buf, t.stop, t.hash)) =
    some (listed [0x06, 0x70, 0x63], 3, 0xF33A) := by decide
theorem test_nop : after .nop (ring 8) (fun t => (t.response, t.stop)) = some (responded .none .none, 0) := by decide
/-- Section 2.7: S = CAP is out of range. -/
theorem test_set_cursors : after (.setCursors 8 0) (ring 8) (fun t => (t.errKind, t.errIndex, t.errAddr, t.start)) =
    some (.invalidArgument, 0, 0, 0) := by decide
/-- R402's example. -/
theorem test_set_cursors_empty : after (.setCursors 6 6) (ring 8) (fun t => (t.start, t.stop, t.errKind)) =
    some (6, 6, .none) := by decide
/-- R403's example. -/
theorem test_push : after (.push 0x41) (ring 16) (fun t => (t.buf, t.stop)) = some ([(0, 0x41)], 1) := by decide
/-- R411 step 2: a full ring of CAP = 4. -/
theorem test_push_full : after (.push 0x0D) { ring 4 with stop := 3 } (fun t => (t.errKind, t.errAddr, t.stop)) =
    some (.bufferOverflow, 3, 3) := by decide
/-- R404's example. -/
theorem test_pop : after .pop { ring 16 with buf := [(0, 0x41)], stop := 1 } (fun t => (t.response, t.start)) =
    some (responded .none (.byte 0x41), 1) := by decide
theorem test_pop_empty : after .pop (ring 8) (fun t => (t.errKind, t.errIndex, t.errAddr)) =
    some (.bufferUnderflow, 0, 0) := by decide
/-- R411 steps 7 and 8. -/
theorem test_peek : after (.peek 3) { ring 4 with buf := [(3, 0x0D)] } (fun t => t.response) =
    some (responded .none (.byte 0x0D)) := by decide
theorem test_peek_outside : after (.peek 4) (ring 4) (fun t => (t.response, t.errKind)) =
    some (responded .invalidArgument .none, .none) := by decide
/-- SPACE of an empty ring of CAP = 8. -/
theorem test_read_reg : after (.readReg 0x04) (ring 8) (fun t => t.response) = some (responded .none (.word 7)) := by
  decide
theorem test_read_reg_outside : after (.readReg 0x0E) (ring 8) (fun t => t.response) =
    some (responded .invalidArgument .none) := by decide
theorem test_write_reg : after (.writeReg 0x07 0xFFFFFFFD) (ring 8) (fun t => (t.config, t.dstate, t.errKind)) =
    some (1, .address, .none) := by decide
theorem test_write_reg_read_only : after (.writeReg 0x00 5) (ring 8) (fun t => (t.response, t.config)) =
    some (responded .invalidArgument .none, 0) := by decide
theorem test_soft_reset :
    after .softReset { ring 8 with start := 3, stop := 5, config := 2, dstate := .error, buf := [(3, 1)] }
      (fun t => ((t.start, t.stop, t.config), t.dstate, t.buf)) = some ((0, 0, 0), .args, [(3, 1)]) := by decide

/-- A word placed by `withFetchWord` is what the next step runs: PUSH 0, and SI8 (tag 15). -/
theorem test_fetch_push : (nextOf (step (State.reset.withFetchWord 8 0x06))).map (fun t => (t.stop, t.buf, t.port)) =
    some (1, [(0, 0)], []) := by decide
theorem test_fetch_si8 : (nextOf (step (State.reset.withFetchWord 8 0x0F))).map (fun t => (t.stop, t.buf.length)) =
    some (8, 8) := by decide

/-! ## Witnesses: for each statement with hypotheses, states and operands that meet them -/

/-- An ENCODE of one entry open in an empty ring: its room is CAP - 1. -/
def encAt (cap : Nat) (desc : List Entry) (args : List Arg) : State :=
  { ring cap with msg := some (encMessage (ring cap) desc args) }
def encMsg (cap : Nat) (desc : List Entry) (args : List Arg) : Message := encMessage (ring cap) desc args

/-- A DECODE open on these bytes, the only ones available. -/
def decBase (bs : List Nat) : State := { ring 16 with buf := listed bs, stop := BitVec.ofNat 32 bs.length }
def decAt (desc : List Entry) (bs : List Nat) : State :=
  { decBase bs with msg := some (decMessage (decBase bs) desc) }
def decMsg (desc : List Entry) (bs : List Nat) : Message := decMessage (decBase bs) desc

theorem next_of_nextOf {o : Out} {t : State} (h : nextOf o = some t) : o = .next t := by
  cases o with
  | next s => simpa [nextOf] using h
  | fault r => cases h
  | refused r => cases h

theorem inv_powerOn {p : Params} (h : p.wf) : Inv (State.powerOn p) where
  params_wf := h
  start_lt := by have := h.1; simp [State.powerOn]; omega
  stop_lt := by have := h.1; simp [State.powerOn]; omega
  mem_wf := rfl
  mem_lt := by simp [State.powerOn]
  dstate_between := .inr (.inl rfl)
  dstate_idle := fun _ => by simp [State.powerOn, State.dmode, initialState]
  config_reserved := by simp [State.powerOn]
  err_kind := ⟨by simp [State.powerOn], by simp [State.powerOn]⟩
  err_index := by simp [State.powerOn]
  err_addr := by have := h.1; simp [State.powerOn]; omega
  no_message := rfl

theorem wit_DecodeEncodeAgree : Instr.wf (.obj .p8 (2 ^ 22 - 1)) = true ∧ Instr.wf (.adr (2 ^ 24 - 1)) = true := by
  decide

theorem wit_ReservedCommandBits :
    (opcOf 0xFFFF4106#32 = opcOf 0x00004106#32 ∧ imm8Of 0xFFFF4106#32 = imm8Of 0x00004106#32) ∧
    (opcOf 0x0000FF07#32 = opcOf 0x00000007#32 ∧ opcOf 0x0000FF07#32 ≠ 0x06#8 ∧ opcOf 0x0000FF07#32 ≠ 0x09#8 ∧
      opcOf 0x0000FF07#32 ≠ 0x0A#8) ∧
    ∃ (s : State) (c : Issue) (rest : List Issue), s.msg = none ∧ s.port = c :: rest ∧
      0x0C ≤ (opcOf c.word).toNat :=
  ⟨by decide, by decide, { ring 8 with port := [{ word := 0x0C#32 }] }, { word := 0x0C#32 }, [], by decide⟩

/-- Tag 30 has a qualifier, tag 24 has none: the two sides of the boundary. -/
theorem wit_EntryUnusedBits :
    (tagOf 0x0000101E#32 = tagOf 0x0000101E#32 ∧ (tagOf 0x0000101E#32).toNat = 30 ∧
      decodeEntry 0x0000101E#32 = decodeEntry 0x0000101E#32) ∧
    (tagOf 0xFFFFFF18#32 = tagOf 0x00000018#32 ∧ (tagOf 0xFFFFFF18#32).toNat = 24) := by decide

theorem wit_QualifierAssembly : tagOf 0x00000801#32 = 1#8 ∧ tagOf 0x00000502#32 = 2#8 ∧ tagOf 0x00000303#32 = 3#8 ∧
    tagOf 0x00000204#32 = 4#8 ∧ tagOf 0x00000319#32 = 25#8 ∧ tagOf 0x0000021A#32 = 26#8 ∧ tagOf 0x0000011B#32 = 27#8 ∧
    tagOf 0x0000011C#32 = 28#8 ∧ tagOf 0x0000021D#32 = 29#8 ∧ tagOf 0x0000111E#32 = 30#8 ∧
    tagOf 0xFFFFFF00#32 = 0#8 ∧ (tagOf 0x00000005#32).toNat = 5 ∧ (tagOf 0x00000018#32).toNat = 24 := by decide

theorem wit_StepRunsDecoded :
    (∃ (s : State) (c : Issue) (rest : List Issue), s.msg = none ∧ s.port = c :: rest ∧ decodeCommand c = .ok .pop) ∧
    (∃ (s : State) (m : Message) (e : Entry), s.msg = some m ∧ m.nextEntry = some e ∧ decodeEntry e = .ok .si8) ∧
    (∃ s : State, s.msg = none ∧ s.port = []) :=
  ⟨⟨{ ring 8 with port := [{ word := 0x07#32 }] }, { word := 0x07#32 }, [], by decide⟩,
    ⟨encAt 16 [0x0F#32] [], encMsg 16 [0x0F#32] [], 0x0F#32, by decide⟩, ⟨ring 8, by decide⟩⟩

theorem wit_CommandIsItsSteps : (ring 8).port = [] ∧ (ring 8).cursorsInRing = true ∧
    encReady (ring 8) [0x06#32] [.absent] ∧ decReady (ring 8) [0x06#32] := by decide

theorem wit_ReservedTagRaises :
    (∃ (s : State) (m : Message) (e : Entry), s.msg = some m ∧ s.cursorsInRing = true ∧ m.cur < s.params.cap ∧
      m.nextEntry = some e ∧ (tagOf e).toNat = 31) ∧
    (∃ (s : State) (m : Message) (e : Entry), s.msg = some m ∧ s.cursorsInRing = true ∧ m.cur < s.params.cap ∧
      m.nextEntry = some e ∧ tagOf e = 3#8 ∧ s.params.featUtf16 = false) ∧
    (∃ (s : State) (m : Message) (e : Entry), s.msg = some m ∧ s.cursorsInRing = true ∧ m.cur < s.params.cap ∧
      m.nextEntry = some e ∧ tagOf e = 4#8 ∧ s.params.featUtf32 = false) :=
  ⟨⟨encAt 8 [0x1F#32] [.absent], encMsg 8 [0x1F#32] [.absent], 0x1F#32, by decide⟩,
    ⟨{ encAt 8 [0x103#32] [] with params := { Config.params with featUtf16 := false } }, encMsg 8 [0x103#32] [], 0x103#32,
      by decide⟩,
    ⟨{ decAt [0x104#32] [1] with params := { Config.params with featUtf32 := false } }, decMsg [0x104#32] [1], 0x104#32,
      by decide⟩⟩

theorem wit_MissingSlotRaises : EncTurn (encAt 8 [0x06#32] []) (encMsg 8 [0x06#32] []) ∧ isEntry .ui1 = true ∧
    enabled (encAt 8 [0x06#32] []).params .ui1 = true ∧ (encMsg 8 [0x06#32] []).slot = none := by decide

theorem wit_EntryOutsideCommand : isEntry .ui1 = true ∧ (ring 8).msg = none := by decide

theorem wit_NilCompletes :
    (EncTurn (encAt 8 [0#32] [.absent]) (encMsg 8 [0#32] [.absent]) ∧ (encMsg 8 [0#32] [.absent]).slot = some .absent) ∧
    (EncTurn (encAt 8 [0#32] []) (encMsg 8 [0#32] []) ∧ (encMsg 8 [0#32] []).slot = none) ∧
    DecTurn (decAt [0#32] []) (decMsg [0#32] []) := by decide

/-- A two-byte scalar with exactly two bytes of room, with one, and with no argument. -/
theorem wit_ScalarEncodes :
    let word : Arg := .data (.word .w16 0x1234#16)
    (EncTurn (encAt 3 [0x09#32] [word]) (encMsg 3 [0x09#32] [word]) ∧ (encMsg 3 [0x09#32] [word]).slot = some word ∧
      (.ui2, .w16) ∈ scalarTags ∧ Width.bytes .w16 = (encAt 3 [0x09#32] [word]).roomAt 0) ∧
    (EncTurn (encAt 2 [0x09#32] [word]) (encMsg 2 [0x09#32] [word]) ∧
      (encAt 2 [0x09#32] [word]).roomAt 0 < Width.bytes .w16) ∧
    ((encMsg 3 [0x09#32] [.absent]).slot = some .absent ∧ ∀ v : BitVec 16, Arg.absent ≠ .data (.word .w16 v)) :=
  ⟨by decide, by decide, by decide, fun _ h => by cases h⟩

/-- A three-byte varint with exactly three bytes of room, with two, and with no argument. -/
theorem wit_VarintEncodes :
    let word : Arg := .data (.word .w16 0xFFFF#16)
    (EncTurn (encAt 4 [0x14#32] [word]) (encMsg 4 [0x14#32] [word]) ∧ (encMsg 4 [0x14#32] [word]).slot = some word ∧
      (.uv2, .v16, false) ∈ varintTags ∧ (pack .v16 0xFFFF#16).length = (encAt 4 [0x14#32] [word]).roomAt 0) ∧
    (EncTurn (encAt 3 [0x14#32] [word]) (encMsg 3 [0x14#32] [word]) ∧
      (encAt 3 [0x14#32] [word]).roomAt 0 < (pack .v16 0xFFFF#16).length) ∧
    ((encMsg 4 [0x14#32] [.absent]).slot = some .absent ∧ ∀ v : BitVec 16, Arg.absent ≠ .data (.word .w16 v)) :=
  ⟨by decide, by decide, by decide, fun _ h => by cases h⟩

/-- The address "ab" under ADR(2) with two bytes of room, under ADR(1), and with one byte of room. -/
theorem wit_AdrEncodes :
    let a : Arg := .data (.bytes [0x61#8, 0x62#8])
    (EncTurn (encAt 3 [0x201#32] [a]) (encMsg 3 [0x201#32] [a]) ∧ (encMsg 3 [0x201#32] [a]).slot = some a ∧
      (untilNul [0x61#8, 0x62#8]).length = 2 ∧ (encAt 3 [0x201#32] [a]).roomAt 0 = 2) ∧
    (EncTurn (encAt 2 [0x201#32] [a]) (encMsg 2 [0x201#32] [a]) ∧ (encAt 2 [0x201#32] [a]).roomAt 0 < 2) ∧
    ((encMsg 3 [0x201#32] [.absent]).slot = some .absent ∧ ∀ bs, Arg.absent ≠ .data (.bytes bs)) :=
  ⟨by decide, by decide, by decide, fun _ h => by cases h⟩

theorem wit_StringEncodes :
    let a : Arg := .data (.bytes [0x61#8])
    let u : Arg := .data (.units .u16 [0x61#16])
    let w : Arg := .data (.units .u32 [0x61#32])
    (EncTurn (encAt 8 [0x202#32] [a]) (encMsg 8 [0x202#32] [a]) ∧ (encMsg 8 [0x202#32] [a]).slot = some a) ∧
    ((encMsg 8 [0x202#32] [.absent]).slot = some .absent ∧ ∀ bs, Arg.absent ≠ .data (.bytes bs)) ∧
    (EncTurn (encAt 8 [0x203#32] [u]) (encMsg 8 [0x203#32] [u]) ∧ (encMsg 8 [0x203#32] [u]).slot = some u ∧
      (encAt 8 [0x203#32] [u]).params.featUtf16 = true) ∧
    (EncTurn (encAt 9 [0x204#32] [w]) (encMsg 9 [0x204#32] [w]) ∧ (encMsg 9 [0x204#32] [w]).slot = some w ∧
      (encAt 9 [0x204#32] [w]).params.featUtf32 = true) ∧
    (∀ us, Arg.absent ≠ .data (.units .u16 us)) ∧ (∀ us, Arg.absent ≠ .data (.units .u32 us)) :=
  ⟨by decide, ⟨by decide, fun _ h => by cases h⟩, by decide, by decide, (fun _ h => by cases h), fun _ h => by cases h⟩

/-- One unit and its terminator, under MAXLEN = 2, with exactly the room they need. -/
theorem wit_StringCompletes :
    let a : Arg := .data (.bytes [0x61#8])
    let u : Arg := .data (.units .u16 [0x61#16])
    let w : Arg := .data (.units .u32 [0x61#32])
    (EncTurn (encAt 3 [0x202#32] [a]) (encMsg 3 [0x202#32] [a]) ∧ (encMsg 3 [0x202#32] [a]).slot = some a ∧
      (untilNul [0x61#8]).length + 1 = 2 ∧ (encAt 3 [0x202#32] [a]).roomAt 0 = 2) ∧
    (EncTurn (encAt 5 [0x203#32] [u]) (encMsg 5 [0x203#32] [u]) ∧ (encMsg 5 [0x203#32] [u]).slot = some u ∧
      (encAt 5 [0x203#32] [u]).params.featUtf16 = true ∧ (encAt 5 [0x203#32] [u]).roomAt 0 = 4) ∧
    (EncTurn (encAt 9 [0x204#32] [w]) (encMsg 9 [0x204#32] [w]) ∧ (encMsg 9 [0x204#32] [w]).slot = some w ∧
      (encAt 9 [0x204#32] [w]).params.featUtf32 = true ∧ (encAt 9 [0x204#32] [w]).roomAt 0 = 8) := by decide

/-- AR2(1) on one element with two bytes of room and with one, on two elements, on none, and with no argument. -/
theorem wit_ArrayEncodes :
    let one : Arg := .data (.elems .w16 [7#16])
    (EncTurn (encAt 3 [0x11A#32] [one]) (encMsg 3 [0x11A#32] [one]) ∧ (encMsg 3 [0x11A#32] [one]).slot = some one ∧
      (.ar2 1, .w16) ∈ arrayTags 1 ∧ Width.bytes .w16 * 1 = (encAt 3 [0x11A#32] [one]).roomAt 0) ∧
    (EncTurn (encAt 2 [0x11A#32] [one]) (encMsg 2 [0x11A#32] [one]) ∧
      (encAt 2 [0x11A#32] [one]).roomAt 0 < Width.bytes .w16 * 1) ∧
    (encMsg 3 [0x11A#32] [.data (.elems .w16 [7#16, 8#16])]).slot = some (.data (.elems .w16 [7#16, 8#16])) ∧
    (encMsg 3 [0x11A#32] [.data (.elems .w16 [])]).slot = some (.data (.elems .w16 [])) ∧
    ((encMsg 3 [0x11A#32] [.absent]).slot = some .absent ∧ ∀ es, Arg.absent ≠ .data (.elems .w16 es)) :=
  ⟨by decide, by decide, by decide, by decide, by decide, fun _ h => by cases h⟩

/-- OBJ(pw=0): no prefix byte, L = 1 over OMAX = 0, L = 2 with one payload byte, and L = 1 with exactly two bytes of room
and with one. -/
theorem wit_ObjEncodes :
    let ok : Arg := .data (.bytes [1#8, 0xAA#8])
    (encMsg 8 [0x1E#32] [.data (.bytes [])]).slot = some (.data (.bytes [])) ∧
    (unle ([1#8, 0xAA#8].take (PrefixWidth.bytes .p1)) = 1 ∧
      unle ([2#8, 0xAA#8].take (PrefixWidth.bytes .p1)) = 2) ∧
    (EncTurn (encAt 3 [0x41E#32] [ok]) (encMsg 3 [0x41E#32] [ok]) ∧ (encMsg 3 [0x41E#32] [ok]).slot = some ok ∧
      (encAt 3 [0x41E#32] [ok]).roomAt 0 = 2) ∧
    (EncTurn (encAt 2 [0x41E#32] [ok]) (encMsg 2 [0x41E#32] [ok]) ∧ (encAt 2 [0x41E#32] [ok]).roomAt 0 = 1) ∧
    ((encMsg 8 [0x1E#32] [.absent]).slot = some .absent ∧ ∀ bs, Arg.absent ≠ .data (.bytes bs)) :=
  ⟨by decide, by decide, by decide, by decide, by decide, fun _ h => by cases h⟩

/-- BSC(1) with its one entry in range and with none, and the same at the nesting limit. -/
theorem wit_BscOpens :
    (EncTurn (encAt 8 [0x11D#32, 0#32] [.absent]) (encMsg 8 [0x11D#32, 0#32] [.absent]) ∧
      (encMsg 8 [0x11D#32, 0#32] [.absent]).slot ≠ none ∧ (encMsg 8 [0x11D#32, 0#32] [.absent]).hi = 0 + 1 + 1 ∧
      (encMsg 8 [0x11D#32, 0#32] [.absent]).inner.length + 1 ≤ (encAt 8 [0x11D#32, 0#32] [.absent]).params.nestMax) ∧
    (DecTurn (decAt [0x11D#32] []) (decMsg [0x11D#32] []) ∧ (decMsg [0x11D#32] []).hi < 0 + 1 + 1) ∧
    (∃ s : State, DecTurn s (decMsg [0x11D#32, 0#32] []) ∧ (decMsg [0x11D#32, 0#32] []).hi = 0 + 1 + 1 ∧
      s.params.nestMax < (decMsg [0x11D#32, 0#32] []).inner.length + 1) :=
  ⟨by decide, by decide,
    { decAt [0x11D#32, 0#32] [] with params := { Config.params with nestMax := 0 } }, by decide⟩

/-- Two bytes available to a two-byte scalar, and one. -/
theorem wit_ScalarDecodes :
    (DecTurn (decAt [0x09#32] [1, 2]) (decMsg [0x09#32] [1, 2]) ∧ (.ui2, .w16) ∈ scalarTags ∧
      (decAt [0x09#32] [1, 2]).availAt 0 = Width.bytes .w16) ∧
    (DecTurn (decAt [0x09#32] [1]) (decMsg [0x09#32] [1]) ∧ (decAt [0x09#32] [1]).availAt 0 < Width.bytes .w16) := by
  decide

theorem wit_VarintDecodes :
    (DecTurn (decAt [0x14#32] [0x80]) (decMsg [0x14#32] [0x80]) ∧ (.uv2, .v16, false) ∈ varintTags ∧
      unpack .v16 ((decAt [0x14#32] [0x80]).ringBytes ((decAt [0x14#32] [0x80]).availAt 0) 0) = .value 0 1) ∧
    (DecTurn (decAt [0x14#32] [0x7F]) (decMsg [0x14#32] [0x7F]) ∧
      unpack .v16 ((decAt [0x14#32] [0x7F]).ringBytes ((decAt [0x14#32] [0x7F]).availAt 0) 0) =
        .fail .bufferUnderflow 1 1) := by decide

theorem wit_AdrDecodes :
    (DecTurn (decAt [0x201#32] [1, 2]) (decMsg [0x201#32] [1, 2]) ∧ (decAt [0x201#32] [1, 2]).availAt 0 = 2) ∧
    (DecTurn (decAt [0x201#32] [1]) (decMsg [0x201#32] [1]) ∧ (decAt [0x201#32] [1]).availAt 0 < 2) := by decide

/-- "a" and its terminator under MAXLEN = 2; no terminator within MAXLEN = 1; no terminator before the bytes end. -/
theorem wit_StringDecodes :
    (DecTurn (decAt [0x202#32] [0x61, 0]) (decMsg [0x202#32] [0x61, 0]) ∧
      unitAt (decAt [0x202#32] [0x61, 0]) (decMsg [0x202#32] [0x61, 0]) 1 1 = 0 ∧
      unitAt (decAt [0x202#32] [0x61, 0]) (decMsg [0x202#32] [0x61, 0]) 1 0 ≠ 0 ∧
      (decAt [0x202#32] [0x61, 0]).availAt 0 / 1 = 2) ∧
    (DecTurn (decAt [0x202#32] [0x61]) (decMsg [0x202#32] [0x61]) ∧
      unitAt (decAt [0x202#32] [0x61]) (decMsg [0x202#32] [0x61]) 1 0 ≠ 0 ∧
      (decAt [0x202#32] [0x61]).availAt 0 / 1 = 1) ∧
    ((decAt [0x202#32] [0x61]).params.featUtf16 = true ∧ (decAt [0x202#32] [0x61]).params.featUtf32 = true) := by decide

theorem wit_ArrayDecodes :
    (DecTurn (decAt [0x11A#32] [1, 2]) (decMsg [0x11A#32] [1, 2]) ∧ (.ar2 1, .w16) ∈ arrayTags 1 ∧
      (decAt [0x11A#32] [1, 2]).availAt 0 = Width.bytes .w16 * 1) ∧
    (DecTurn (decAt [0x11A#32] [1]) (decMsg [0x11A#32] [1]) ∧
      (decAt [0x11A#32] [1]).availAt 0 < Width.bytes .w16 * 1) := by decide

/-- OBJ(pw=0, max=1): no prefix, L = 2, L = 1 without its byte, and L = 1 with it. -/
theorem wit_ObjDecodes :
    (DecTurn (decAt [0x41E#32] []) (decMsg [0x41E#32] []) ∧ (decAt [0x41E#32] []).availAt 0 = 0) ∧
    (DecTurn (decAt [0x41E#32] [2]) (decMsg [0x41E#32] [2]) ∧ unle ((decAt [0x41E#32] [2]).ringBytes 1 0) = 2) ∧
    (DecTurn (decAt [0x41E#32] [1]) (decMsg [0x41E#32] [1]) ∧ (decAt [0x41E#32] [1]).availAt 0 = 1 ∧
      unle ((decAt [0x41E#32] [1]).ringBytes 1 0) = 1) ∧
    (DecTurn (decAt [0x41E#32] [1, 7]) (decMsg [0x41E#32] [1, 7]) ∧ (decAt [0x41E#32] [1, 7]).availAt 0 = 2 ∧
      unle ((decAt [0x41E#32] [1, 7]).ringBytes 1 0) = 1) := by decide

/-- The end of a range at level 0 with two bytes of room and with one, and inside a BSC. -/
theorem wit_EncodeTrailer :
    (EncTurn (encAt 3 [] []) (encMsg 3 [] []) ∧ (encMsg 3 [] []).nextEntry = none ∧ (encMsg 3 [] []).inner = [] ∧
      (encAt 3 [] []).roomAt 0 = 2) ∧
    (EncTurn (encAt 2 [] []) (encMsg 2 [] []) ∧ (encAt 2 [] []).roomAt 0 < 2) ∧
    (∃ (s : State) (m : Message) (l : Level), EncTurn s m ∧ m.nextEntry = none ∧ m.inner = [l] ∧ 2 ≤ s.roomAt m.cur) :=
  ⟨by decide, by decide,
    { ring 8 with msg := some { encMsg 8 [0x11D#32] [] with inner := [{ hash := 0, hi := 0, index := 0 }] } },
    { encMsg 8 [0x11D#32] [] with inner := [{ hash := 0, hi := 0, index := 0 }] }, { hash := 0, hi := 0, index := 0 },
    by decide⟩

/-- The end of a range in a DECODE: one byte, a wrong trailer, the trailer of the empty body, and one inside a BSC. -/
theorem wit_DecodeTrailer :
    (DecTurn (decAt [] [0xF1]) (decMsg [] [0xF1]) ∧ (decMsg [] [0xF1]).nextEntry = none ∧
      (decAt [] [0xF1]).availAt 0 < 2) ∧
    (DecTurn (decAt [] [0, 0]) (decMsg [] [0, 0]) ∧
      unle ((decAt [] [0, 0]).ringBytes 2 0) ≠ (decMsg [] [0, 0]).top.toNat) ∧
    (DecTurn (decAt [] [0xF1, 0xFF]) (decMsg [] [0xF1, 0xFF]) ∧ (decMsg [] [0xF1, 0xFF]).inner = [] ∧
      (decAt [] [0xF1, 0xFF]).availAt 0 = 2 ∧
      unle ((decAt [] [0xF1, 0xFF]).ringBytes 2 0) = (decMsg [] [0xF1, 0xFF]).top.toNat) ∧
    (∃ (s : State) (m : Message) (l : Level), DecTurn s m ∧ m.nextEntry = none ∧ m.inner = [l] ∧
      2 ≤ s.availAt m.cur ∧ unle (s.ringBytes 2 m.cur) = m.top.toNat) :=
  ⟨by decide, by decide, by decide,
    { decBase [0, 0] with
      msg := some { decMsg [] [0, 0] with inner := [{ hash := 0, hi := 0, index := 0 }] } },
    { decMsg [] [0, 0] with inner := [{ hash := 0, hi := 0, index := 0 }] }, { hash := 0, hi := 0, index := 0 },
    by decide⟩

theorem wit_EncodePrechecks :
    ({ ring 8 with config := 2 } : State).lock = true ∧ (ring 8).lock = false ∧
    ({ ring 8 with params := { Config.params with paramMax := 1 } } : State).lock = false ∧
    ({ ring 8 with params := { Config.params with paramMax := 1 } } : State).params.paramMax < [0#32, 0#32].length := by
  decide

/-- `ENCODE [NIL], (_)` fits exactly a ring of CAP = 3. -/
theorem wit_EncodeWritesMessage : (ring 3).cursorsInRing = true ∧ (ring 3).msg = none ∧
    encReady (ring 3) [0#32] [.absent] ∧ messageBody (ring 3).params [0#32] [.absent] = some [] ∧
    ([] : List Byte).length + 2 = (ring 3).space := by decide

/-- The state after `ENCODE [SI1], (-1)` in an empty ring. -/
def sent : State := (nextOf (exec (.encode [0x05#32] [.data (.word .w8 0xFF#8)]) (ring 32))).getD (ring 32)

theorem sent_next : exec (.encode [0x05#32] [.data (.word .w8 0xFF#8)]) (ring 32) = .next sent :=
  next_of_nextOf (by decide)

theorem wit_EncodeSucceedsOnlyThen : (ring 32).msg = none ∧
    exec (.encode [0x05#32] [.data (.word .w8 0xFF#8)]) (ring 32) = .next sent ∧ sent.response = responded .none .none :=
  ⟨rfl, sent_next, by decide⟩

/-- An occupied index and one outside the ring. -/
theorem wit_EncodeFrame : (ring 32).msg = none ∧
    exec (.encode [0x05#32] [.data (.word .w8 0xFF#8)]) (ring 32) = .next sent ∧
    sent.isOccupied 0 ∧ (ring 32).params.cap ≤ 32 :=
  ⟨rfl, sent_next, by unfold State.isOccupied; decide, by decide⟩

theorem wit_DecodePrechecks :
    ({ ring 8 with dstate := .error } : State).dstate = .error ∧
    (({ ring 8 with config := 2 } : State).dstate ≠ .error ∧ ({ ring 8 with config := 2 } : State).lock = true) ∧
    ((ring 8).dstate ≠ .error ∧ (ring 8).lock = false) ∧
    ({ ring 8 with params := { Config.params with paramMax := 1 } } : State).params.paramMax < [0#32, 0#32].length ∧
    (({ ring 8 with config := 1, dstate := .address } : State).dmode = true ∧ leadsWithAdr [0x06#32] = false) := by decide

theorem wit_DecodeReadsMessage : sent.cursorsInRing = true ∧ sent.msg = none ∧ decReady sent [0x05#32] ∧
    messageBody sent.params [0x05#32] [.data (.word .w8 0xFF#8)] = some [0xFF#8] ∧
    sent.occupied = [0xFF#8] ++ trailerOf sent.params [0xFF#8] ++ [] := by decide

theorem wit_DecodeFrame : (ring 8).msg = none ∧ ∃ t, exec (.decode []) (ring 8) = .next t :=
  ⟨rfl, (nextOf (exec (.decode []) (ring 8))).getD (ring 8), next_of_nextOf (by decide)⟩

theorem inv_sent : Inv sent where
  params_wf := by decide
  start_lt := by decide
  stop_lt := by decide
  mem_wf := by decide
  mem_lt := by decide
  dstate_between := by decide
  dstate_idle := by decide
  config_reserved := by decide
  err_kind := by decide
  err_index := by decide
  err_addr := by decide
  no_message := by decide

theorem wit_RoundTrip : Inv (ring 32) ∧
    exec (.encode [0x05#32] [.data (.word .w8 0xFF#8)]) (ring 32) = .next sent ∧
    sent.response = responded .none .none ∧ Inv sent ∧ sent.params = (ring 32).params ∧ decReady sent [0x05#32] ∧
    sent.start = (ring 32).stop ∧
    ringLen (ring 32).params.cap (ring 32).stop.toNat sent.stop.toNat ≤ sent.len :=
  ⟨inv_powerOn (by decide), sent_next, by decide, inv_sent, by decide, by decide, by decide, by decide⟩

/-- A full ring and an empty one, and the smallest ring. -/
theorem wit_RingGuarantee : (adv 16 6 = 7 ∧ ringSpace 16 7 6 = 0) ∧ ringLen 16 7 7 = 0 ∧
    (adv 2 0 = 1 ∧ ringLen 2 1 0 = 1) := by decide

/-- A run over the end of the ring, one that fills it, and an index it misses. -/
theorem wit_RunsWrap : (3 < (ring 4).params.cap ∧ [1#8, 2#8].length ≤ (ring 4).params.cap) ∧
    [1#8, 2#8, 3#8, 4#8].length = (ring 4).params.cap ∧
    ∀ k < [1#8, 2#8].length, 1 ≠ (3 + k) % (ring 4).params.cap := by decide

theorem wit_PackStopBit : (pack .v64 0x8000000000000000#64).length = 10 ∧ (pack .v16 0#16).length = 1 ∧
    (pack .v32 0x4000#32).length = 3 := by decide

theorem wit_VarintEnds : unpack .v64 (bytes [127, 127, 127, 127, 127, 127, 127, 127, 127, 1]) =
      .value 0xFFFFFFFFFFFFFFFF 10 ∧
    unpack .v16 [0x80#8] = .value 0 1 ∧ unpack .v16 [] = .fail .bufferUnderflow 0 0 ∧
    unpack .v32 (bytes [0, 0, 0, 0, 0]) = .fail .varintOverflow 4 5 := by decide

theorem wit_HashClosedForm : [1#8, 2#8].Perm [2#8, 1#8] ∧ (0xFFF1#16).getLsbD 0 = true ∧ 2#8 ≠ [1#8][0] := by decide

/-- Both cursors at CAP - 1, and one at CAP. -/
theorem wit_SetCursorsLoads : (7#32).toNat < (ring 8).params.cap ∧ (ring 8).params.cap ≤ (8#32).toNat := by decide

/-- A ring with one free byte, a full one, one with one byte, and an empty one. -/
theorem wit_PushAndPop :
    (({ ring 4 with stop := 2 } : State).cursorsInRing = true ∧ ({ ring 4 with stop := 2 } : State).space = 1) ∧
    ({ ring 4 with stop := 3 } : State).space = 0 ∧ ({ ring 4 with stop := 1 } : State).len = 1 ∧
    (ring 4).len = 0 := by decide

theorem wit_OccupiedIsQueue : Inv (ring 4) ∧ (ring 4).space ≠ 0 ∧ Inv sent ∧ sent.len ≠ 0 ∧
    (1 : Nat) ≠ (ring 4).stop.toNat :=
  ⟨inv_powerOn (by decide), by decide, inv_sent, by decide, by decide⟩

theorem wit_PeekReads : (7#32).toNat < (ring 8).params.cap ∧ (ring 8).params.cap ≤ (8#32).toNat := by decide

theorem wit_ReadRegGives : 0x0D < (0x0E#8).toNat := by decide

theorem wit_WriteRegConfig : ((ring 8).dstate = .address ∨ (ring 8).dstate = .args) ∧
    (({ ring 8 with dstate := .locked } : State).dstate ≠ .address ∧
      ({ ring 8 with dstate := .locked } : State).dstate ≠ .args) ∧ (0x06#8 ≠ 0x07#8 ∧ 0x08#8 ≠ 0x07#8) := by decide

theorem wit_RecordUntouched : (∃ t, exec .nop (ring 8) = .next t) ∧ (∃ t, exec (.peek 8) (ring 8) = .next t) ∧
    (∃ t, exec (.readReg 0) (ring 8) = .next t) ∧ (∃ t, exec (.writeReg 0 0) (ring 8) = .next t) ∧
    (∃ s t : State, s.dstate = .error ∧ exec (.decode []) s = .next t) ∧
    (0x0C ≤ (opcOf 0x0C#32).toNat ∧ ∃ t, takeCommand { word := 0x0C#32 } (ring 8) = .next t) ∧
    ∃ t, exec .softReset (ring 8) = .next t :=
  ⟨⟨_, rfl⟩, ⟨_, next_of_nextOf (t := (nextOf (exec (.peek 8) (ring 8))).getD (ring 8)) (by decide)⟩, ⟨_, rfl⟩, ⟨_, rfl⟩,
    ⟨{ ring 8 with dstate := .error }, _, rfl, rfl⟩, ⟨by decide, ⟨_, rfl⟩⟩, ⟨_, rfl⟩⟩

/-- LOCK; an address longer than M; a field one byte too long for the room; and one that fits exactly. -/
theorem wit_ControlFrames : (ring 4).cursorsInRing = true ∧ ({ ring 4 with config := 2 } : State).lock = true ∧
    (ring 4).lock = false ∧ (0#32).toNat < (untilNul [0x61#8]).length ∧ (ring 4).space < 1 + (3#32).toNat ∧
    1 + (2#32).toNat = (ring 4).space ∧ (untilNul [0x61#8]).length ≤ (2#32).toNat := by decide

theorem wit_PseudoInstructions : (ring 8).cursorsInRing = true ∧ (ring 8).msg = none ∧ (ring 8).lock = false ∧
    2 ≤ (ring 8).params.paramMax ∧ (untilNul [0x61#8]).length ≤ 4 ∧ 4 + 3 = (ring 8).space := by decide

theorem wit_ResetInvariant : Config.params.wf ∧ ({ Config.params with cap := 2, nestMax := 255 } : Params).wf := by
  decide

theorem wit_StepKeepsInvariant : Inv (ring 32) ∧ (∃ t, step (ring 32) = .next t) ∧
    Inv { ring 32 with port := [{ word := 0x06#32 }] } ∧
    ∃ t, step { ring 32 with port := [{ word := 0x06#32 }] } = .next t :=
  ⟨inv_powerOn (by decide), ⟨_, rfl⟩, { inv_powerOn (p := (ring 32).params) (by decide) with no_message := rfl },
    ⟨(nextOf (step { ring 32 with port := [{ word := 0x06#32 }] })).getD (ring 32), next_of_nextOf (by decide)⟩⟩

theorem wit_StepAlwaysAnswers : Inv (ring 32) ∧ Inv State.reset :=
  ⟨inv_powerOn (by decide), inv_powerOn (by decide)⟩

theorem wit_ParametersConstant : ∃ t, step (ring 8) = .next t := ⟨_, rfl⟩

/-- A command that changes each register: STOP and BUF, START, HASH, DSTATE, CONFIG. -/
theorem wit_WritersOfRegisters :
    (after (.push 1) (ring 8) (fun t => (t.stop != (ring 8).stop, t.buf != (ring 8).buf)) = some (true, true)) ∧
    (after (.setCursors 3 3) (ring 8) (fun t => t.start != (ring 8).start) = some true) ∧
    (after (.bell 0 []) (ring 8) (fun t => t.hash != (ring 8).hash) = some true) ∧
    (after (.writeReg 0x07 1) (ring 8) (fun t => (t.dstate != (ring 8).dstate, t.config != (ring 8).config)) =
      some (true, true)) ∧ isEntry (.push 1) = false ∧ (ring 8).msg = none := by decide

end Sys2Proof.Tests
end

section
/-! PROOFS (00_scope.md). The reset state meets the invariant between commands, and the occupied region of R12 is a
queue under PUSH and POP. -/

namespace Sys2Proof.Machine

/-! ## The invariant at reset -/

/-- Power-on has both cursors at index 0, which every legal CAP has (R6, R46), an idle decoder that agrees with
DMODE = 0, and an error record of zeros. -/
theorem State.powerOn_inv {p : Params} (hp : p.wf) : Inv (State.powerOn p) := by
  have hcap : 0 < p.cap := by
    obtain ⟨htwo, -⟩ := hp
    omega
  exact {
    params_wf := hp
    start_lt := by simpa using hcap
    stop_lt := by simpa using hcap
    mem_wf := by simp
    mem_lt := by simp
    dstate_between := .inr (.inl (State.powerOn_dstate p))
    dstate_idle := fun _ => by simp [initialState, State.dmode]
    config_reserved := by simp
    err_kind := by simp
    err_index := by simp
    err_addr := by simpa using hcap
    no_message := by simp }

theorem Config.params_wf : Config.params.wf := by decide

/-! ## Walking from START to STOP -/

/-- `len(s, t)` steps from `s` lead to `t` (R150, R152). -/
theorem advN_ringLen {cap s t : Nat} (hs : s < cap) (ht : t < cap) : advN cap (ringLen cap s t) s = t := by
  induction hn : ringLen cap s t generalizing s with
  | zero =>
    have heq : s = t := by unfold ringLen at hn; split at hn <;> omega
    exact heq
  | succ n ih =>
    have hstep : ringLen cap (adv cap s) t = n := by
      rw [ringLen_adv_left ht (by omega)]; omega
    exact ih (adv_lt hs) hstep

/-- Fewer than `len(s, t)` steps from `s` do not reach `t`. -/
theorem advN_ne_of_lt_ringLen {cap s t k : Nat} (ht : t < cap) (hk : k < ringLen cap s t) : advN cap k s ≠ t := by
  induction k generalizing s with
  | zero =>
    rintro rfl
    simp [advN] at hk
  | succ k ih =>
    exact ih (by rw [ringLen_adv_left ht (by omega)]; omega)

/-- Two states that agree on the bytes a run of reads meets read the same run. -/
theorem State.ringBytes_congr_reads {s t : State} {n c : Nat} (hcap : t.params.cap = s.params.cap)
    (hread : ∀ k < n, t.bufRead (advN s.params.cap k c) = s.bufRead (advN s.params.cap k c)) :
    t.ringBytes n c = s.ringBytes n c := by
  induction n generalizing c with
  | zero => rfl
  | succ n ih =>
    have hhead : t.bufRead c = s.bufRead c := hread 0 (by omega)
    have htail := ih (c := adv s.params.cap c) fun k hk => hread (k + 1) (by omega)
    simp only [State.ringBytes, hcap, hhead, htail]

/-! ## PUSH and POP that succeed (R403, R404) -/

/-- The state a PUSH with space answers: the byte at STOP, and STOP one step on. -/
def State.pushed (s : State) (b : Byte) : State :=
  ({ s.bufWrite s.stop.toNat b with stop := BitVec.ofNat 32 (adv s.params.cap s.stop.toNat) }).complete .none

/-- The state a POP with a byte answers: START one step on, and the byte it left in the response. -/
def State.popped (s : State) : State :=
  ({ s with start := BitVec.ofNat 32 (adv s.params.cap s.start.toNat) }).complete (.byte (s.bufRead s.start.toNat))

theorem exec_push_of_space {s : State} (b : Byte) (hr : s.cursorsInRing = true) (h : s.space ≠ 0) :
    exec (.push b) s = .next (s.pushed b) := by
  change execPush b s = _
  simp [execPush, h, hr, State.pushed]

theorem exec_pop_of_len {s : State} (hr : s.cursorsInRing = true) (h : s.len ≠ 0) :
    exec .pop s = .next s.popped := by
  change execPop s = _
  simp [execPop, h, hr, State.popped]

section pushed
variable (s : State) (b : Byte)
@[simp] theorem State.pushed_params : (s.pushed b).params = s.params := rfl
@[simp] theorem State.pushed_start : (s.pushed b).start = s.start := rfl
theorem State.pushed_stop : (s.pushed b).stop = BitVec.ofNat 32 (adv s.params.cap s.stop.toNat) := rfl
theorem State.bufRead_pushed (c : Nat) : (s.pushed b).bufRead c = (s.bufWrite s.stop.toNat b).bufRead c := rfl
@[simp] theorem State.bufRead_pushed_stop : (s.pushed b).bufRead s.stop.toNat = b := by
  rw [State.bufRead_pushed, State.bufRead_bufWrite_same]
theorem State.bufRead_pushed_other {c : Nat} (h : c ≠ s.stop.toNat) : (s.pushed b).bufRead c = s.bufRead c := by
  rw [State.bufRead_pushed, State.bufRead_bufWrite_other _ _ h]
end pushed

section popped
variable (s : State)
@[simp] theorem State.popped_params : (s.popped).params = s.params := rfl
@[simp] theorem State.popped_buf : (s.popped).buf = s.buf := rfl
@[simp] theorem State.popped_stop : (s.popped).stop = s.stop := rfl
theorem State.popped_start : (s.popped).start = BitVec.ofNat 32 (adv s.params.cap s.start.toNat) := rfl
@[simp] theorem State.popped_response :
    (s.popped).response = responded .none (.byte (s.bufRead s.start.toNat)) := rfl
end popped

theorem Inv.cursorsInRing {s : State} (h : Inv s) : s.cursorsInRing = true := by
  simp [State.cursorsInRing, h.start_lt, h.stop_lt]

theorem Inv.pushed_stop_toNat {s : State} (h : Inv s) (b : Byte) :
    (s.pushed b).stop.toNat = adv s.params.cap s.stop.toNat := by
  obtain ⟨-, hmax, -⟩ := h.params_wf
  exact toNat_ofNat_cursor hmax (adv_lt h.stop_lt)

theorem Inv.popped_start_toNat {s : State} (h : Inv s) :
    s.popped.start.toNat = adv s.params.cap s.start.toNat := by
  obtain ⟨-, hmax, -⟩ := h.params_wf
  exact toNat_ofNat_cursor hmax (adv_lt h.start_lt)

theorem Inv.len_pushed {s : State} (h : Inv s) (b : Byte) (hspace : s.space ≠ 0) : (s.pushed b).len = s.len + 1 := by
  simp only [State.len, h.pushed_stop_toNat, State.pushed_params, State.pushed_start]
  exact ringLen_adv_right h.start_lt hspace

theorem Inv.len_popped {s : State} (h : Inv s) (hlen : s.len ≠ 0) : s.popped.len = s.len - 1 := by
  simp only [State.len, h.popped_start_toNat, State.popped_params, State.popped_stop]
  exact ringLen_adv_left h.stop_lt hlen

/-! ## The occupied region (R12) -/

/-- The region grows at its end: the reads up to the old STOP never meet the index written, and the last read is of
that index. -/
theorem Inv.occupied_pushed {s : State} (h : Inv s) (b : Byte) (hspace : s.space ≠ 0) :
    (s.pushed b).occupied = s.occupied ++ [b] := by
  have hend : advN s.params.cap s.len s.start.toNat = s.stop.toNat := advN_ringLen h.start_lt h.stop_lt
  have hold : (s.pushed b).ringBytes s.len s.start.toNat = s.ringBytes s.len s.start.toNat :=
    State.ringBytes_congr_reads rfl fun _ hk =>
      s.bufRead_pushed_other b (advN_ne_of_lt_ringLen h.stop_lt hk)
  have hnew : (s.pushed b).ringBytes 1 s.stop.toNat = [b] := by simp [State.ringBytes]
  calc (s.pushed b).occupied
      = (s.pushed b).ringBytes (s.len + 1) s.start.toNat := by
        rw [State.occupied, h.len_pushed b hspace, State.pushed_start]
    _ = s.occupied ++ [b] := by
        rw [State.ringBytes_add, State.pushed_params, hend, hold, hnew, State.occupied]

/-- The region shrinks at its head: what is left are the reads from the next index on. -/
theorem Inv.occupied_eq_cons_popped {s : State} (h : Inv s) (hlen : s.len ≠ 0) :
    s.occupied = s.bufRead s.start.toNat :: s.popped.occupied := by
  have hrest : s.popped.occupied = s.ringBytes (s.len - 1) (adv s.params.cap s.start.toNat) := by
    rw [State.occupied, h.len_popped hlen, h.popped_start_toNat]
    exact State.ringBytes_congr s.popped_buf rfl _ _
  obtain ⟨n, hn⟩ := Nat.exists_eq_succ_of_ne_zero hlen
  rw [hrest, State.occupied, hn]
  rfl

/-! ## The obligations -/

/-- Settles O49: PUSH and POP answer `State.pushed` and `State.popped`, whose occupied regions are the old one with a
byte more at its end and a byte less at its head. -/
theorem occupiedIsQueue : Obligations.OccupiedIsQueue := by
  intro s h
  refine ⟨fun b hspace => ?push, fun hlen => ?pop⟩
  case push =>
    exact ⟨s.pushed b, exec_push_of_space b h.cursorsInRing hspace, h.occupied_pushed b hspace, s.pushed_start b,
      fun _ hc => s.bufRead_pushed_other b hc⟩
  case pop =>
    exact ⟨s.popped, s.bufRead s.start.toNat, exec_pop_of_len h.cursorsInRing hlen, s.popped_response,
      h.occupied_eq_cons_popped hlen, s.popped_stop, State.bufRead_congr s.popped_buf⟩

/-- Settles O56: the invariant holds at power-on for every legal parameter choice, the model's own among them. -/
theorem resetInvariant : Obligations.ResetInvariant :=
  ⟨fun _ hp => State.powerOn_inv hp, State.powerOn_inv Config.params_wf⟩

end Sys2Proof.Machine
end

section
/-! PROOFS (10_state.md, support). What one turn of the engines can do, said once: the error kinds that the arms
raise, the common form of the thirty-one entries, and the states a turn leads to. -/

namespace Sys2Proof.Machine

/-! ## The kinds the arms raise (R430, R432) -/

/-- A kind that some command raises: all but the two reserved ones (R432). -/
abbrev ErrKind.raisable (k : ErrKind) : Prop := k ≠ .disconnected ∧ k ≠ .room

/-- The error of a plan, if it has one, is no reserved kind. -/
def Plan.ErrRaisable (p : Plan) : Prop := ∀ k, p.err = some k → k.raisable

theorem Plan.ErrRaisable.of_none {p : Plan} (h : p.err = none) : p.ErrRaisable := by
  intro k hk
  simp [h] at hk

theorem Plan.ErrRaisable.of_some {p : Plan} {k : ErrKind} (h : p.err = some k) (hk : k.raisable) : p.ErrRaisable := by
  intro k' hk'
  obtain rfl : k = k' := by simpa [h] using hk'
  exact hk

theorem fixedPlan_errRaisable (bs : List Byte) : (fixedPlan bs).ErrRaisable := .of_none rfl

theorem faultyPlan_errRaisable {k : ErrKind} (hk : k.raisable) : (faultyPlan k).ErrRaisable := .of_some rfl hk

theorem invalidArgument_errRaisable : (faultyPlan .invalidArgument).ErrRaisable := faultyPlan_errRaisable (by decide)

/-- The error of a parse, if it ends in one, is no reserved kind. -/
def Parsed.ErrRaisable (p : Parsed) : Prop := ∀ k offset used, p = .fail k offset used → k.raisable

theorem Parsed.ErrRaisable.value (v : Value) (used : Nat) : (Parsed.value v used).ErrRaisable := by
  intro k offset n h
  cases h

theorem Parsed.ErrRaisable.fail {k : ErrKind} (hk : k.raisable) (offset used : Nat) :
    (Parsed.fail k offset used).ErrRaisable := by
  intro k' offset' n h
  cases h
  exact hk

/-- The two arms of an entry raise no reserved kind, whatever the argument and the bytes are. -/
structure ArmsRaisable (enc : Arg → Plan) (dec : List Byte → Parsed) : Prop where
  enc_err : ∀ a, (enc a).ErrRaisable
  dec_err : ∀ bs, (dec bs).ErrRaisable

theorem armsRaisable_nil : ArmsRaisable encNil decNil where
  enc_err _ := .of_none rfl
  dec_err _ := .value _ _

theorem armsRaisable_scalar (w : Width) : ArmsRaisable (encScalar w) (decScalar w) where
  enc_err a := by
    unfold encScalar
    split
    · exact fixedPlan_errRaisable _
    · exact invalidArgument_errRaisable
  dec_err bs := by
    unfold decScalar
    split
    · exact .fail (by decide) _ _
    · exact .value _ _

/-- A varint's loop ends in VARINT_OVERFLOW or BUFFER_UNDERFLOW where it does not end in a value (R185, R186). -/
theorem unpackFrom_fail_raisable {vw : VWidth} {n v : Nat} {bs : List Byte} {k : ErrKind} {offset used : Nat}
    (h : unpackFrom vw n v bs = .fail k offset used) : k.raisable := by
  induction bs generalizing n v with
  | nil => cases h; decide
  | cons b rest ih =>
    simp only [unpackFrom] at h
    split_ifs at h
    case neg => exact ih h
    all_goals cases h; decide

theorem armsRaisable_varint (vw : VWidth) (signed : Bool) :
    ArmsRaisable (encVarint vw signed) (decVarint vw signed) where
  enc_err a := by
    unfold encVarint
    split
    · exact .of_none rfl
    · exact invalidArgument_errRaisable
  dec_err bs := by
    unfold decVarint
    split
    next h => exact .fail (unpackFrom_fail_raisable h) _ _
    next => exact .value _ _

theorem armsRaisable_adr (maxlen : Nat) : ArmsRaisable (encAdr maxlen) (decAdr maxlen) where
  enc_err a := by
    unfold encAdr
    split
    · dsimp only
      split
      · exact faultyPlan_errRaisable (by decide)
      · exact fixedPlan_errRaisable _
    · exact invalidArgument_errRaisable
  dec_err bs := by
    unfold decAdr
    split
    · exact .fail (by decide) _ _
    · exact .value _ _

theorem tstrPlan_errRaisable (u maxlen : Nat) (units : List Nat) : (tstrPlan u maxlen units).ErrRaisable := by
  by_cases h : units.length + 1 > maxlen
  · exact .of_some (if_pos h) (by decide)
  · exact .of_none (if_neg h)

/-- A string's loop ends in STRING_OVERFLOW or BUFFER_UNDERFLOW where it does not end in units (R335). -/
theorem tstrFrom_error_raisable {u left used : Nat} {out : List Nat} {bs : List Byte} {k : ErrKind}
    (h : (tstrFrom u left used out bs).1 = .error k) : k.raisable := by
  induction left generalizing used out bs with
  | zero => cases h; decide
  | succ left ih =>
    simp only [tstrFrom] at h
    split_ifs at h
    case pos => cases h; decide
    case neg => exact ih h

theorem tstrParsed_errRaisable (datum : List Nat → Datum) (u maxlen : Nat) (bs : List Byte) :
    (tstrParsed datum (tstrFrom u maxlen 0 [] bs)).ErrRaisable := by
  unfold tstrParsed
  split
  next => exact .value _ _
  next h => exact .fail (tstrFrom_error_raisable h) _ _

theorem armsRaisable_str (maxlen : Nat) : ArmsRaisable (encStr maxlen) (decStr maxlen) where
  enc_err a := by
    unfold encStr
    split
    · exact tstrPlan_errRaisable _ _ _
    · exact invalidArgument_errRaisable
  dec_err _ := tstrParsed_errRaisable _ _ _ _

theorem armsRaisable_units (u : UnitWidth) (maxlen : Nat) : ArmsRaisable (encUnits u maxlen) (decUnits u maxlen) where
  enc_err a := by
    unfold encUnits
    split
    · exact tstrPlan_errRaisable _ _ _
    · exact invalidArgument_errRaisable
  dec_err _ := tstrParsed_errRaisable _ _ _ _

theorem armsRaisable_array (e : Width) (count : Nat) : ArmsRaisable (encArray e count) (decArray e count) where
  enc_err a := by
    unfold encArray
    split
    · split_ifs
      · exact faultyPlan_errRaisable (by decide)
      · exact invalidArgument_errRaisable
      · exact fixedPlan_errRaisable _
    · exact invalidArgument_errRaisable
  dec_err bs := by
    unfold decArray
    split
    · exact .fail (by decide) _ _
    · exact .value _ _

theorem armsRaisable_obj (pw : PrefixWidth) (omax : Nat) : ArmsRaisable (encObj pw omax) (decObj pw omax) where
  enc_err a := by
    unfold encObj
    split
    · dsimp only
      split_ifs
      · exact invalidArgument_errRaisable
      · exact faultyPlan_errRaisable (by decide)
      · exact invalidArgument_errRaisable
      · exact fixedPlan_errRaisable _
    · exact invalidArgument_errRaisable
  dec_err bs := by
    unfold decObj
    dsimp only
    split_ifs
    · exact .fail (by decide) _ _
    · exact .fail (by decide) _ _
    · exact .fail (by decide) _ _
    · exact .value _ _

/-! ## The common form of the entries (R231, R323) -/

/-- `o` is what an entry that is no BSC answers in `s`: its two arms behind its feature gate, none of which raises a
reserved kind. An entry without a gate stands behind one that is on. -/
def LeafForm (s : State) (o : Out) : Prop :=
  ∃ (on : Bool) (k : ErrKind) (enc : Arg → Plan) (sub : Option DState) (dec : List Byte → Parsed),
    k.raisable ∧ ArmsRaisable enc dec ∧ o = gatedEntry s on k (leafEntry s enc sub dec)

theorem LeafForm.ungated {s : State} {enc : Arg → Plan} {sub : Option DState} {dec : List Byte → Parsed}
    (h : ArmsRaisable enc dec) : LeafForm s (leafEntry s enc sub dec) :=
  ⟨true, .none, enc, sub, dec, by decide, h, rfl⟩

theorem LeafForm.gated {s : State} {on : Bool} {k : ErrKind} {enc : Arg → Plan} {sub : Option DState}
    {dec : List Byte → Parsed} (hk : k.raisable) (h : ArmsRaisable enc dec) :
    LeafForm s (gatedEntry s on k (leafEntry s enc sub dec)) :=
  ⟨on, k, enc, sub, dec, hk, h, rfl⟩

/-- An entry is a BSC or has the leaf form. -/
theorem exec_entry_form {i : Instr} (hi : isEntry i = true) (s : State) :
    (∃ n, exec i s = execBsc n s) ∨ LeafForm s (exec i s) := by
  cases i with
  | nop | encode | decode | bell | ack | setCursors | push | pop | peek | readReg | writeReg | softReset => cases hi
  | bsc n => exact .inl ⟨n, rfl⟩
  | nil => exact .inr (.ungated armsRaisable_nil)
  | adr q => exact .inr (.ungated (armsRaisable_adr q))
  | str q => exact .inr (.ungated (armsRaisable_str q))
  | st2 q => exact .inr (.gated (by decide) (armsRaisable_units .u16 q))
  | st4 q => exact .inr (.gated (by decide) (armsRaisable_units .u32 q))
  | si1 | ui1 | bol => exact .inr (.ungated (armsRaisable_scalar .w8))
  | si2 | ui2 | hlf => exact .inr (.ungated (armsRaisable_scalar .w16))
  | si4 | ui4 | flt | tms => exact .inr (.ungated (armsRaisable_scalar .w32))
  | si8 | ui8 | dbl | tmu => exact .inr (.ungated (armsRaisable_scalar .w64))
  | sv2 => exact .inr (.ungated (armsRaisable_varint .v16 true))
  | uv2 => exact .inr (.ungated (armsRaisable_varint .v16 false))
  | sv4 => exact .inr (.ungated (armsRaisable_varint .v32 true))
  | uv4 => exact .inr (.ungated (armsRaisable_varint .v32 false))
  | sv8 => exact .inr (.ungated (armsRaisable_varint .v64 true))
  | uv8 => exact .inr (.ungated (armsRaisable_varint .v64 false))
  | ar1 q => exact .inr (.ungated (armsRaisable_array .w8 q))
  | ar2 q => exact .inr (.ungated (armsRaisable_array .w16 q))
  | ar4 q => exact .inr (.ungated (armsRaisable_array .w32 q))
  | ar8 q => exact .inr (.ungated (armsRaisable_array .w64 q))
  | obj pw omax => exact .inr (.ungated (armsRaisable_obj pw omax))

/-! ## Where a turn leads -/

/-- The descriptor indices an error inside a message reports: the entry's own, or the one a trailer reports. -/
def Message.Reports (m : Message) (index : Nat) : Prop :=
  (index = m.i ∧ m.i < m.desc.length) ∨ index = m.trailerIndex

/-- The states one turn on an open message leads to: a failure after some bytes, a field written or read, an inner
message opened or closed, or the whole message finished (R231, R237, R239, R323, R325 to R327). -/
inductive TurnTo (a : Active) : State → Prop
  | encFailed (bs : List Byte) (k : ErrKind) (index : Nat) (hd : a.msg.dir = .enc) (hk : k.raisable)
      (hi : a.msg.Reports index) : TurnTo a ((a.emitBytes bs).fail k index (a.emitBytes bs).msg.cur)
  | encWrote (bs : List Byte) (hd : a.msg.dir = .enc) (hi : a.msg.i < a.msg.desc.length) :
      TurnTo a (commitField (a.emitBytes bs))
  | encFinished (lo hi : Byte) (hd : a.msg.dir = .enc) :
      TurnTo a ((a.emitTrailer lo).emitTrailer hi).commitStop.finishEnc
  | encClosed (lo hi : Byte) (hd : a.msg.dir = .enc) (hin : a.msg.inner ≠ []) :
      TurnTo a ((a.emitTrailer lo).emitTrailer hi).commitStop.pop.keep
  | decFailed (sub : Option DState) (n : Nat) (k : ErrKind) (index offset : Nat) (hd : a.msg.dir = .dec)
      (hk : k.raisable) (hi : a.msg.Reports index) :
      TurnTo a ((Active.consumeN n (enterSub a sub)).fail k index (advN a.st.params.cap offset a.msg.cur))
  | decRead (sub : Option DState) (n : Nat) (v : Value) (hd : a.msg.dir = .dec) (hi : a.msg.i < a.msg.desc.length) :
      TurnTo a (storeValue (Active.consumeN n (enterSub a sub)) v)
  | decMismatched (hd : a.msg.dir = .dec) :
      TurnTo a ((a.enter .hash).consumeTrailer.consumeTrailer.fail .invalidHash a.msg.trailerIndex a.msg.cur)
  | decFinished (hd : a.msg.dir = .dec) : TurnTo a (a.enter .hash).consumeTrailer.consumeTrailer.finishDec
  | decClosed (hd : a.msg.dir = .dec) (hin : a.msg.inner ≠ []) :
      TurnTo a ((a.enter .hash).consumeTrailer.consumeTrailer.pop.enter .args).keep
  | opened (n : Nat) (hi : a.msg.i < a.msg.desc.length) : TurnTo a (openInner a n)

/-- A failure before the first byte, in either command. -/
theorem TurnTo.failed_here {a : Active} {k : ErrKind} {index : Nat} (hk : k.raisable) (hi : a.msg.Reports index) :
    TurnTo a (a.fail k index a.msg.cur) := by
  cases hd : a.msg.dir with
  | enc => exact .encFailed [] k index hd hk hi
  | dec => exact .decFailed none 0 k index 0 hd hk hi

/-- The entry a range takes next lies inside the descriptor. -/
theorem Message.i_lt_of_nextEntry {m : Message} {e : Entry} (h : m.nextEntry = some e) : m.i < m.desc.length := by
  unfold Message.nextEntry at h
  split at h
  · obtain ⟨hlt, -⟩ := List.getElem?_eq_some_iff.1 h
    exact hlt
  · cases h

section entry
variable {a : Active} (hi : a.msg.i < a.msg.desc.length)
include hi

theorem Message.reports_entry : a.msg.Reports a.msg.i := .inl ⟨rfl, hi⟩

theorem withSlot_turnTo {k : Arg → State} (h : ∀ slot, TurnTo a (k slot)) : TurnTo a (withSlot a k) := by
  obtain ⟨slot, -, heq⟩ | ⟨-, heq⟩ := withSlot_cases a k
  · exact heq ▸ h slot
  · exact heq ▸ .failed_here (by decide) (Message.reports_entry hi)

theorem runPlan_turnTo (hd : a.msg.dir = .enc) {p : Plan} (hp : p.ErrRaisable) : TurnTo a (runPlan a p) := by
  obtain ⟨chunks, -, -, hemit, -⟩ := emitChunks_spec p.chunks a
  obtain ⟨-, heq⟩ | ⟨k, -, hk, heq⟩ | ⟨-, -, heq⟩ := runPlan_cases a p <;> rw [heq, hemit]
  · exact .encFailed _ _ _ hd (by decide) (Message.reports_entry hi)
  · exact .encFailed _ _ _ hd (hp k hk) (Message.reports_entry hi)
  · exact .encWrote _ hd hi

theorem runParse_turnTo (hd : a.msg.dir = .dec) (sub : Option DState) {arm : List Byte → Parsed}
    (harm : ∀ bs, (arm bs).ErrRaisable) : TurnTo a (runParse a sub arm) := by
  obtain ⟨v, n, -, heq⟩ | ⟨k, offset, n, hfail, heq⟩ := runParse_cases a sub arm <;> rw [heq]
  · exact .decRead _ _ _ hd hi
  · exact .decFailed _ _ _ _ _ hd (harm _ _ _ _ hfail) (Message.reports_entry hi)

theorem checkInner_turnTo (n : Nat) : TurnTo a (checkInner a n) := by
  obtain ⟨-, heq⟩ | ⟨-, -, heq⟩ | ⟨-, -, heq⟩ := checkInner_cases a n <;> rw [heq]
  · exact .failed_here (by decide) (Message.reports_entry hi)
  · exact .failed_here (by decide) (Message.reports_entry hi)
  · exact .opened n hi

end entry

section message
variable {s t : State} {m : Message} (hm : s.msg = some m)
include hm

theorem leafEntry_turnTo (hi : m.i < m.desc.length) {enc : Arg → Plan} {sub : Option DState} {dec : List Byte → Parsed}
    (harms : ArmsRaisable enc dec) (h : leafEntry s enc sub dec = .next t) : TurnTo { st := s, msg := m } t := by
  obtain ⟨m', hm', -, -, harm⟩ := leafEntry_next h
  obtain rfl : m = m' := by simpa [hm] using hm'
  obtain ⟨hd, rfl⟩ | ⟨hd, rfl⟩ := harm
  · exact withSlot_turnTo hi fun slot => runPlan_turnTo hi hd (harms.enc_err slot)
  · exact runParse_turnTo hi hd sub harms.dec_err

theorem LeafForm.turnTo (hi : m.i < m.desc.length) {o : Out} (ho : LeafForm s o) (h : o = .next t) :
    TurnTo { st := s, msg := m } t := by
  obtain ⟨on, k, enc, sub, dec, hk, harms, rfl⟩ := ho
  cases on with
  | true => exact leafEntry_turnTo hm hi harms h
  | false =>
    simp only [gatedEntry, Bool.false_eq_true, if_false] at h
    obtain ⟨m', hm', -, -, hnext⟩ := withMessage_next h
    obtain rfl : m = m' := by simpa [hm] using hm'
    cases hnext
    exact .failed_here hk (Message.reports_entry (a := { st := s, msg := m }) hi)

theorem execBsc_turnTo (hi : m.i < m.desc.length) {n : Nat} (h : execBsc n s = .next t) :
    TurnTo { st := s, msg := m } t := by
  obtain ⟨m', hm', -, -, hnext⟩ := withMessage_next h
  obtain rfl : m = m' := by simpa [hm] using hm'
  dsimp only at hnext
  split at hnext <;> cases hnext
  · exact withSlot_turnTo hi fun _ => checkInner_turnTo hi n
  · exact checkInner_turnTo hi n

theorem exec_entry_turnTo (hi : m.i < m.desc.length) {i : Instr} (hentry : isEntry i = true) (h : exec i s = .next t) :
    TurnTo { st := s, msg := m } t := by
  obtain ⟨n, heq⟩ | hleaf := exec_entry_form hentry s
  · exact execBsc_turnTo hm hi (heq ▸ h)
  · exact hleaf.turnTo hm hi h

end message

theorem closeEnc_turnTo {a : Active} (hd : a.msg.dir = .enc) : TurnTo a a.closeEnc := by
  obtain ⟨-, heq⟩ | ⟨-, ⟨-, heq⟩ | ⟨l, ls, hin, heq⟩⟩ := closeEnc_cases a <;> rw [heq]
  · exact .failed_here (by decide) (.inr rfl)
  · exact .encFinished _ _ hd
  · exact .encClosed _ _ hd (by simp [hin])

theorem closeDec_turnTo {a : Active} (hd : a.msg.dir = .dec) : TurnTo a a.closeDec := by
  obtain ⟨-, heq⟩ | ⟨-, -, heq⟩ | ⟨-, -, -, heq⟩ | ⟨-, -, l, ls, hin, heq⟩ := closeDec_cases a <;> rw [heq]
  · exact .decFailed (some .hash) 0 _ _ 0 hd (by decide) (.inr rfl)
  · exact .decMismatched hd
  · exact .decFinished hd
  · exact .decClosed hd (by simp [hin])

theorem close_turnTo (a : Active) : TurnTo a a.close := by
  unfold Active.close
  split
  next hd => exact closeEnc_turnTo hd
  next hd => exact closeDec_turnTo hd

/-- A turn that answers a next state answers one of those of `TurnTo`. -/
theorem turn_turnTo {s t : State} {m : Message} (hm : s.msg = some m) (h : turn { st := s, msg := m } = .next t) :
    TurnTo { st := s, msg := m } t := by
  obtain ⟨e, i, hnext, hdec, heq⟩ | ⟨e, r, hnext, -, heq⟩ | ⟨-, heq⟩ := turn_cases { st := s, msg := m } <;>
    rw [heq] at h
  · have hentry := decodeEntry_isEntry hdec
    rw [Active.keep_of_msg hm, mux_eq_exec hentry] at h
    exact exec_entry_turnTo hm (Message.i_lt_of_nextEntry hnext) hentry h
  · cases h
    exact .failed_here (by decide) (.inl ⟨rfl, Message.i_lt_of_nextEntry hnext⟩)
  · obtain ⟨-, hclose⟩ := onRing_next h
    cases hclose
    exact close_turnTo _

/-! ## With its cursors in the ring a turn always answers -/

section answers
variable {s : State} {m : Message} (hm : s.msg = some m) (hr : s.cursorsInRing = true) (hc : m.cur < s.params.cap)
include hm hr hc

theorem leafEntry_answers (enc : Arg → Plan) (sub : Option DState) (dec : List Byte → Parsed) :
    ∃ t, leafEntry s enc sub dec = .next t := by
  cases hd : m.dir with
  | enc => exact ⟨_, leafEntry_enc hm hr hc hd⟩
  | dec => exact ⟨_, leafEntry_dec hm hr hc hd⟩

theorem LeafForm.answers {o : Out} (ho : LeafForm s o) : ∃ t, o = .next t := by
  obtain ⟨on, k, enc, sub, dec, -, -, rfl⟩ := ho
  cases on with
  | true => exact leafEntry_answers hm hr hc enc sub dec
  | false => exact ⟨_, gatedEntry_off hm hr hc⟩

theorem execBsc_answers (n : Nat) : ∃ t, execBsc n s = .next t := by
  unfold execBsc
  rw [withMessage_of_msg hm hr hc]
  dsimp only
  split <;> exact ⟨_, rfl⟩

theorem turn_answers : ∃ t, turn { st := s, msg := m } = .next t := by
  obtain ⟨e, i, -, hdec, heq⟩ | ⟨e, r, -, -, heq⟩ | ⟨-, heq⟩ := turn_cases { st := s, msg := m } <;> rw [heq]
  · have hentry := decodeEntry_isEntry hdec
    rw [Active.keep_of_msg hm, mux_eq_exec hentry]
    obtain ⟨n, hbsc⟩ | hleaf := exec_entry_form hentry s
    · exact hbsc ▸ execBsc_answers hm hr hc n
    · exact hleaf.answers hm hr hc
  · exact ⟨_, rfl⟩
  · simp [hr, hc]

end answers

end Sys2Proof.Machine
end

section
/-! PROOFS (10_state.md, support). What each command can do, said once, and what the engines never write: START,
DSTATE and CONFIG in an ENCODE, STOP, BUF and CONFIG in a DECODE, the parameters in either (R39, R70, R84, R313). -/

namespace Sys2Proof.Machine

/-! ## The commands, each by its cases -/

theorem execSetCursors_cases (sv tv : Word) (s : State) :
    ((s.params.cap ≤ sv.toNat ∨ s.params.cap ≤ tv.toNat) ∧
      execSetCursors sv tv s = .next (s.raise .invalidArgument 0 s.start.toNat)) ∨
    (sv.toNat < s.params.cap ∧ tv.toNat < s.params.cap ∧ execSetCursors sv tv s =
      .next (({ s with start := sv, stop := tv, dstate := initialState s.dmode }).complete .none)) := by
  unfold execSetCursors
  by_cases h : sv.toNat ≥ s.params.cap ∨ tv.toNat ≥ s.params.cap
  · exact .inl ⟨h, if_pos h⟩
  · exact .inr ⟨by omega, by omega, if_neg h⟩

theorem execPush_cases (b : Byte) (s : State) :
    execPush b s = .next (s.raise .bufferOverflow 0 s.stop.toNat) ∨
    execPush b s = onRing s.cursorsInRing (.next (s.pushed b)) := by
  unfold execPush
  split
  · exact .inl rfl
  · exact .inr rfl

theorem execPop_cases (s : State) :
    execPop s = .next (s.raise .bufferUnderflow 0 s.start.toNat) ∨
    execPop s = onRing s.cursorsInRing (.next s.popped) := by
  unfold execPop
  split
  · exact .inl rfl
  · exact .inr rfl

/-- PEEK only responds (R405). -/
theorem execPeek_responds (ix : Word) (s : State) : ∃ k r, execPeek ix s = .next (s.respond k r) := by
  unfold execPeek
  split <;> exact ⟨_, _, rfl⟩

/-- READ_REG only responds (R406). -/
theorem execReadReg_responds (r : Byte) (s : State) : ∃ k res, execReadReg r s = .next (s.respond k res) := by
  unfold execReadReg
  split <;> exact ⟨_, _, rfl⟩

theorem execWriteReg_cases (r : Byte) (v : Word) (s : State) :
    execWriteReg r v s = .next (s.respond .invalidArgument .none) ∨
    (r = 0x07 ∧ execWriteReg r v s = .next ((writeConfig v s).respond .none .none)) := by
  unfold execWriteReg
  by_cases h : r.toNat ≠ 0x07
  · exact .inl (if_pos h)
  · exact .inr ⟨BitVec.eq_of_toNat_eq (not_not.1 h), if_neg h⟩

/-- A frame raises at STOP, or is written whole where the cursors lie in the ring (R390). -/
theorem frame_cases (c : Byte) (m : Word) (addr : List Byte) (s : State) :
    (∃ k : ErrKind, k.raisable ∧ frame c m addr s = .next (s.raise k 0 s.stop.toNat)) ∨
    frame c m addr s = onRing s.cursorsInRing (.next (writeFrame s (frameBytes c m addr))) := by
  unfold frame
  split_ifs
  · exact .inl ⟨_, by decide, rfl⟩
  · exact .inl ⟨_, by decide, rfl⟩
  · exact .inl ⟨_, by decide, rfl⟩
  · exact .inr rfl

/-- An ENCODE raises at STOP, or runs the engine where the cursors lie in the ring (R230). -/
theorem execEncode_cases (desc : List Entry) (args : List Arg) (s : State) :
    (∃ (k : ErrKind) (index : Nat), k.raisable ∧ index ≤ s.params.paramMax ∧
      execEncode desc args s = .next (s.raise k index s.stop.toNat)) ∨
    (desc.length ≤ s.params.paramMax ∧ execEncode desc args s =
      onRing s.cursorsInRing (runTurns (turnsFor desc.length) (encOpened s desc args))) := by
  unfold execEncode
  split_ifs
  · exact .inl ⟨_, _, by decide, Nat.zero_le _, rfl⟩
  · exact .inl ⟨_, _, by decide, Nat.zero_le _, rfl⟩
  · exact .inl ⟨_, _, by decide, Nat.zero_le _, rfl⟩
  · exact .inl ⟨_, _, by decide, Nat.le_refl _, rfl⟩
  · exact .inr ⟨by omega, rfl⟩

/-- A DECODE only responds in Error, raises at START into Locked or Error, or runs the engine where the cursors lie in
the ring (R316, R317, R320). -/
theorem execDecode_cases (desc : List Entry) (s : State) :
    execDecode desc s = .next (({ s with trace := [] }).respond .invalidOperation .none) ∨
    (∃ (d : DState) (k : ErrKind) (index : Nat), (d = .locked ∨ d = .error) ∧ k.raisable ∧ index ≤ s.params.paramMax ∧
      execDecode desc s = .next ((({ s with trace := [] }).enter d).raise k index s.start.toNat)) ∨
    (desc.length ≤ s.params.paramMax ∧ execDecode desc s =
      onRing s.cursorsInRing (runTurns (turnsFor desc.length) (decOpened s desc))) := by
  unfold execDecode
  dsimp only
  split_ifs
  · exact .inl rfl
  · exact .inr (.inl ⟨.locked, _, _, .inl rfl, by decide, Nat.zero_le _, rfl⟩)
  · exact .inr (.inl ⟨.error, _, _, .inr rfl, by decide, Nat.zero_le _, rfl⟩)
  · exact .inr (.inl ⟨.error, _, _, .inr rfl, by decide, Nat.le_refl _, rfl⟩)
  · exact .inr (.inl ⟨.error, _, _, .inr rfl, by decide, Nat.zero_le _, rfl⟩)
  · exact .inr (.inr ⟨by omega, rfl⟩)

/-- The command port issues no entry (R102). -/
theorem decodeCommand_isEntry {c : Issue} {i : Instr} (h : decodeCommand c = .ok i) : isEntry i = false := by
  unfold decodeCommand at h
  split at h <;> cases h <;> rfl

/-! ## The byte steps and the message (R214, R232, R321) -/

section trailer
variable (mul : Half) (b : Byte) (m : Message)
@[simp] theorem Message.foldTrailer_dir : (m.foldTrailer mul b).dir = m.dir := by
  unfold Message.foldTrailer; split <;> rfl
@[simp] theorem Message.foldTrailer_desc : (m.foldTrailer mul b).desc = m.desc := by
  unfold Message.foldTrailer; split <;> rfl
@[simp] theorem Message.foldTrailer_i : (m.foldTrailer mul b).i = m.i := by unfold Message.foldTrailer; split <;> rfl
@[simp] theorem Message.foldTrailer_cur : (m.foldTrailer mul b).cur = m.cur := by
  unfold Message.foldTrailer; split <;> rfl

/-- Folding changes no open level but its accumulator. -/
@[simp] theorem Message.foldTrailer_inner_index :
    (m.foldTrailer mul b).inner.map Level.index = m.inner.map Level.index := by
  unfold Message.foldTrailer
  split
  next => rfl
  next l outer hin => simp [hin, Level.fold, Function.comp_def]
end trailer

section advance
variable (cap : Nat) (m : Message)
@[simp] theorem Message.advance_dir : (m.advance cap).dir = m.dir := rfl
@[simp] theorem Message.advance_desc : (m.advance cap).desc = m.desc := rfl
@[simp] theorem Message.advance_i : (m.advance cap).i = m.i := rfl
@[simp] theorem Message.advance_cur : (m.advance cap).cur = adv cap m.cur := rfl
@[simp] theorem Message.advance_inner : (m.advance cap).inner = m.inner := rfl
end advance

@[simp] theorem Message.ran_inner_index (p : Params) (m : Message) (bs : List Byte) :
    (m.ran p bs).inner.map Level.index = m.inner.map Level.index := by
  simp [Message.ran, Function.comp_def]

@[simp] theorem Active.emitTrailer_msg (a : Active) (b : Byte) :
    (a.emitTrailer b).msg = (a.msg.foldTrailer a.st.params.hashMul b).advance a.st.params.cap := rfl

@[simp] theorem Active.consumeTrailer_msg (a : Active) : a.consumeTrailer.msg =
    (a.msg.foldTrailer a.st.params.hashMul (a.st.bufRead a.msg.cur)).advance a.st.params.cap := rfl

@[simp] theorem Active.consumeN_st (n : Nat) (a : Active) : (Active.consumeN n a).st = a.st := by
  rw [Active.consumeN_eq]

@[simp] theorem Active.consumeN_msg (n : Nat) (a : Active) :
    (Active.consumeN n a).msg = a.msg.ran a.st.params (a.st.ringBytes n a.msg.cur) := by
  rw [Active.consumeN_eq]

@[simp] theorem Active.emitBytes_st (a : Active) (bs : List Byte) :
    (a.emitBytes bs).st = a.st.writeRun a.msg.cur bs := by
  rw [Active.emitBytes_eq]

@[simp] theorem Active.emitBytes_msg (a : Active) (bs : List Byte) :
    (a.emitBytes bs).msg = a.msg.ran a.st.params bs := by
  rw [Active.emitBytes_eq]

/-! ## What an engine leaves alone -/

/-- What ENCODE's engine leaves alone from `s` to `t` (R84, R313). -/
structure EncFrame (s t : State) : Prop where
  params : t.params = s.params
  start : t.start = s.start
  dstate : t.dstate = s.dstate
  config : t.config = s.config

/-- What DECODE's engine leaves alone from `s` to `t` (R70, R84). -/
structure DecFrame (s t : State) : Prop where
  params : t.params = s.params
  buf : t.buf = s.buf
  stop : t.stop = s.stop
  config : t.config = s.config

theorem EncFrame.trans {s t u : State} (h : EncFrame s t) (g : EncFrame t u) : EncFrame s u where
  params := g.params.trans h.params
  start := g.start.trans h.start
  dstate := g.dstate.trans h.dstate
  config := g.config.trans h.config

theorem DecFrame.trans {s t u : State} (h : DecFrame s t) (g : DecFrame t u) : DecFrame s u where
  params := g.params.trans h.params
  buf := g.buf.trans h.buf
  stop := g.stop.trans h.stop
  config := g.config.trans h.config

theorem Active.emitBytes_encFrame (a : Active) (bs : List Byte) : EncFrame a.st (a.emitBytes bs).st where
  params := by simp
  start := by simp
  dstate := by simp
  config := by simp

/-- A failing ENCODE leaves DSTATE alone too (R239). -/
theorem Active.fail_encFrame {a : Active} (hd : a.msg.dir = .enc) (k : ErrKind) (index addr : Nat) :
    EncFrame a.st (a.fail k index addr) := by
  rw [Active.fail_enc _ _ _ _ hd]
  exact ⟨rfl, rfl, rfl, rfl⟩

theorem Active.fail_decFrame (a : Active) (k : ErrKind) (index addr : Nat) : DecFrame a.st (a.fail k index addr) where
  params := by simp
  buf := by simp
  stop := by simp
  config := by simp

theorem enterSub_decFrame (a : Active) (sub : Option DState) : DecFrame a.st (enterSub a sub).st := by
  cases sub <;> exact ⟨rfl, rfl, rfl, rfl⟩

theorem Active.consumeN_decFrame (a : Active) (sub : Option DState) (n : Nat) :
    DecFrame a.st (Active.consumeN n (enterSub a sub)).st := by
  rw [Active.consumeN_st]
  exact enterSub_decFrame a sub

theorem TurnTo.encFrame {a : Active} {t : State} (h : TurnTo a t) (hd : a.msg.dir = .enc) : EncFrame a.st t := by
  cases h with
  | encFailed bs k index _ _ _ => exact (a.emitBytes_encFrame bs).trans (Active.fail_encFrame (by simpa using hd) _ _ _)
  | encWrote bs _ _ =>
    have hkept : EncFrame (a.emitBytes bs).st (commitField (a.emitBytes bs)) := ⟨rfl, rfl, rfl, rfl⟩
    exact (a.emitBytes_encFrame bs).trans hkept
  | encFinished | encClosed | opened => exact ⟨rfl, rfl, rfl, rfl⟩
  | decFailed _ _ _ _ _ hd' | decRead _ _ _ hd' | decMismatched hd' | decFinished hd' | decClosed hd' =>
    simp [hd] at hd'

theorem TurnTo.decFrame {a : Active} {t : State} (h : TurnTo a t) (hd : a.msg.dir = .dec) : DecFrame a.st t := by
  cases h with
  | decFailed sub n _ _ _ _ _ _ => exact (a.consumeN_decFrame sub n).trans (Active.fail_decFrame _ _ _ _)
  | decRead sub n v _ _ =>
    have hkept : DecFrame (Active.consumeN n (enterSub a sub)).st (storeValue (Active.consumeN n (enterSub a sub)) v) :=
      ⟨rfl, rfl, rfl, rfl⟩
    exact (a.consumeN_decFrame sub n).trans hkept
  | decMismatched _ =>
    have hread : DecFrame a.st (a.enter .hash).consumeTrailer.consumeTrailer.st := ⟨rfl, rfl, rfl, rfl⟩
    exact hread.trans (Active.fail_decFrame _ _ _ _)
  | decFinished | decClosed | opened => exact ⟨rfl, rfl, rfl, rfl⟩
  | encFailed _ _ _ hd' | encWrote _ hd' | encFinished _ _ hd' | encClosed _ _ hd' => simp [hd] at hd'

theorem TurnTo.params {a : Active} {t : State} (h : TurnTo a t) : t.params = a.st.params := by
  cases hd : a.msg.dir with
  | enc => exact (h.encFrame hd).params
  | dec => exact (h.decFrame hd).params

/-- A message that stays open stays in its engine. -/
theorem TurnTo.dir {a : Active} {t : State} {m : Message} (h : TurnTo a t) (hm : t.msg = some m) :
    m.dir = a.msg.dir := by
  cases h with
  | encFailed | decFailed | decMismatched => simp at hm
  | encFinished | decFinished => cases hm
  | encWrote | decRead => cases hm; simp
  | encClosed | decClosed => cases hm; simp [Active.pop, Active.commitStop, Active.enter]
  | opened => cases hm; rfl

/-- A run of ENCODE's engine keeps what each of its turns keeps. -/
theorem runTurns_encFrame {n : Nat} {s t : State} (hdir : ∀ m, s.msg = some m → m.dir = .enc)
    (h : runTurns n s = .next t) : EncFrame s t := by
  refine (runTurns_induct (P := fun u => EncFrame s u ∧ ∀ m, u.msg = some m → m.dir = .enc) ?turn n s t ?start h).1
  case start => exact ⟨⟨rfl, rfl, rfl, rfl⟩, hdir⟩
  case turn =>
    rintro u m v ⟨hframe, hdir⟩ hm hturn
    have hto := turn_turnTo hm hturn
    exact ⟨hframe.trans (hto.encFrame (hdir m hm)), fun _ hm' => (hto.dir hm').trans (hdir m hm)⟩

/-- A run of DECODE's engine keeps what each of its turns keeps. -/
theorem runTurns_decFrame {n : Nat} {s t : State} (hdir : ∀ m, s.msg = some m → m.dir = .dec)
    (h : runTurns n s = .next t) : DecFrame s t := by
  refine (runTurns_induct (P := fun u => DecFrame s u ∧ ∀ m, u.msg = some m → m.dir = .dec) ?turn n s t ?start h).1
  case start => exact ⟨⟨rfl, rfl, rfl, rfl⟩, hdir⟩
  case turn =>
    rintro u m v ⟨hframe, hdir⟩ hm hturn
    have hto := turn_turnTo hm hturn
    exact ⟨hframe.trans (hto.decFrame (hdir m hm)), fun _ hm' => (hto.dir hm').trans (hdir m hm)⟩

/-! ## A write of CONFIG (R407) -/

section writeConfig
variable (v : Word) (s : State)

/-- A write of CONFIG changes CONFIG and DSTATE alone (R407). -/
theorem writeConfig_eq : ∃ d, writeConfig v s = { s with config := v &&& configMask, dstate := d } := by
  unfold writeConfig
  dsimp only
  split <;> exact ⟨_, rfl⟩

/-- A write of CONFIG leaves an idle DSTATE at `initial(DMODE)` of the new DMODE, and any other as it was (R407). -/
theorem writeConfig_dstate_cases :
    ((writeConfig v s).dstate = initialState (writeConfig v s).dmode) ∨
    (¬ (s.dstate = .address ∨ s.dstate = .args) ∧ (writeConfig v s).dstate = s.dstate) := by
  unfold writeConfig
  dsimp only
  split
  next => exact .inl rfl
  next h => exact .inr ⟨h, rfl⟩

end writeConfig

end Sys2Proof.Machine
end

section
/-! PROOFS (10_state.md). The registers: what power-on leaves in them, where a command leads, which commands write which
register, and that the parameters never change. -/

namespace Sys2Proof.Machine

/-! ## Power-on -/

/-- A byte that nothing has written reads as its free value (R46). -/
theorem State.bufRead_powerOn (p : Params) (c : Nat) : (State.powerOn p).bufRead c = Config.powerOnByte c := rfl

/-- Settles O44: every register by its power-on value, and no byte of BUF written. -/
theorem powerOnState : Obligations.PowerOnState := by
  intro p
  exact ⟨State.powerOn_params p, State.powerOn_start p, State.powerOn_stop p, State.powerOn_hash p,
    State.powerOn_dstate p, State.powerOn_config p, State.powerOn_errKind p, State.powerOn_errIndex p,
    State.powerOn_errAddr p, State.powerOn_msg p, State.bufRead_powerOn p⟩

/-! ## Where a command leads -/

/-- The states a command leads to. Any command may only respond, or raise at START or STOP; beyond that ENCODE and
DECODE run their engine, and each other command has one way to succeed. -/
inductive CommandTo (s : State) : Instr → State → Prop
  | onlyResponded (i : Instr) (k : ErrKind) (r : Result) : CommandTo s i (s.respond k r)
  | raised (i : Instr) (k : ErrKind) (index addr : Nat) (hk : k.raisable) (hi : index ≤ s.params.paramMax)
      (ha : addr = s.start.toNat ∨ addr = s.stop.toNat) : CommandTo s i (s.raise k index addr)
  | encoded (desc : List Entry) (args : List Arg) (t : State) (hr : s.cursorsInRing = true)
      (hdesc : desc.length ≤ s.params.paramMax)
      (hrun : runTurns (turnsFor desc.length) (encOpened s desc args) = .next t) : CommandTo s (.encode desc args) t
  | decodeRefused (desc : List Entry) :
      CommandTo s (.decode desc) (({ s with trace := [] }).respond .invalidOperation .none)
  | decodeRaised (desc : List Entry) (d : DState) (k : ErrKind) (index : Nat) (hd : d = .locked ∨ d = .error)
      (hk : k.raisable) (hi : index ≤ s.params.paramMax) :
      CommandTo s (.decode desc) ((({ s with trace := [] }).enter d).raise k index s.start.toNat)
  | decoded (desc : List Entry) (t : State) (hr : s.cursorsInRing = true) (hdesc : desc.length ≤ s.params.paramMax)
      (hrun : runTurns (turnsFor desc.length) (decOpened s desc) = .next t) : CommandTo s (.decode desc) t
  | belled (m : Word) (addr bs : List Byte) (hr : s.cursorsInRing = true) :
      CommandTo s (.bell m addr) (writeFrame s bs)
  | acked (m : Word) (addr bs : List Byte) (hr : s.cursorsInRing = true) : CommandTo s (.ack m addr) (writeFrame s bs)
  | cursorsSet (sv tv : Word) (hs : sv.toNat < s.params.cap) (ht : tv.toNat < s.params.cap) :
      CommandTo s (.setCursors sv tv)
        (({ s with start := sv, stop := tv, dstate := initialState s.dmode }).complete .none)
  | pushed (b : Byte) (hr : s.cursorsInRing = true) : CommandTo s (.push b) (s.pushed b)
  | popped (hr : s.cursorsInRing = true) : CommandTo s .pop s.popped
  | configWritten (v : Word) : CommandTo s (.writeReg 0x07 v) ((writeConfig v s).respond .none .none)
  | wasReset : CommandTo s .softReset ((softResetState s).respond .none .none)

section next
variable {s t : State}

theorem execSetCursors_commandTo {sv tv : Word} (h : execSetCursors sv tv s = .next t) :
    CommandTo s (.setCursors sv tv) t := by
  obtain ⟨-, heq⟩ | ⟨hs, ht, heq⟩ := execSetCursors_cases sv tv s <;> rw [heq] at h <;> cases h
  · exact .raised _ _ _ _ (by decide) (Nat.zero_le _) (.inl rfl)
  · exact .cursorsSet sv tv hs ht

theorem execPush_commandTo {b : Byte} (h : execPush b s = .next t) : CommandTo s (.push b) t := by
  obtain heq | heq := execPush_cases b s <;> rw [heq] at h
  · cases h
    exact .raised _ _ _ _ (by decide) (Nat.zero_le _) (.inr rfl)
  · obtain ⟨hr, hnext⟩ := onRing_next h
    cases hnext
    exact .pushed b hr

theorem execPop_commandTo (h : execPop s = .next t) : CommandTo s .pop t := by
  obtain heq | heq := execPop_cases s <;> rw [heq] at h
  · cases h
    exact .raised _ _ _ _ (by decide) (Nat.zero_le _) (.inl rfl)
  · obtain ⟨hr, hnext⟩ := onRing_next h
    cases hnext
    exact .popped hr

theorem execWriteReg_commandTo {r : Byte} {v : Word} (h : execWriteReg r v s = .next t) :
    CommandTo s (.writeReg r v) t := by
  obtain heq | ⟨rfl, heq⟩ := execWriteReg_cases r v s <;> rw [heq] at h <;> cases h
  · exact .onlyResponded _ _ _
  · exact .configWritten v

theorem frame_commandTo {c : Byte} {m : Word} {addr : List Byte} {i : Instr}
    (hwhole : ∀ bs, s.cursorsInRing = true → CommandTo s i (writeFrame s bs)) (h : frame c m addr s = .next t) :
    CommandTo s i t := by
  obtain ⟨k, hk, heq⟩ | heq := frame_cases c m addr s <;> rw [heq] at h
  · cases h
    exact .raised _ _ _ _ hk (Nat.zero_le _) (.inr rfl)
  · obtain ⟨hr, hnext⟩ := onRing_next h
    cases hnext
    exact hwhole _ hr

theorem execEncode_commandTo {desc : List Entry} {args : List Arg} (h : execEncode desc args s = .next t) :
    CommandTo s (.encode desc args) t := by
  obtain ⟨k, index, hk, hi, heq⟩ | ⟨hdesc, heq⟩ := execEncode_cases desc args s <;> rw [heq] at h
  · cases h
    exact .raised _ _ _ _ hk hi (.inr rfl)
  · obtain ⟨hr, hrun⟩ := onRing_next h
    exact .encoded desc args t hr hdesc hrun

theorem execDecode_commandTo {desc : List Entry} (h : execDecode desc s = .next t) : CommandTo s (.decode desc) t := by
  obtain heq | ⟨d, k, index, hd, hk, hi, heq⟩ | ⟨hdesc, heq⟩ := execDecode_cases desc s <;> rw [heq] at h
  · cases h
    exact .decodeRefused desc
  · cases h
    exact .decodeRaised desc d k index hd hk hi
  · obtain ⟨hr, hrun⟩ := onRing_next h
    exact .decoded desc t hr hdesc hrun

/-- A command that answers a next state answers one of those of `CommandTo`. -/
theorem exec_commandTo {i : Instr} (hi : isEntry i = false) (h : exec i s = .next t) : CommandTo s i t := by
  cases i with
  | nop => cases h; exact .onlyResponded _ _ _
  | encode desc args => exact execEncode_commandTo h
  | decode desc => exact execDecode_commandTo h
  | bell m addr => exact frame_commandTo (fun bs => .belled m addr bs) h
  | ack m addr => exact frame_commandTo (fun bs => .acked m addr bs) h
  | setCursors sv tv => exact execSetCursors_commandTo h
  | push b => exact execPush_commandTo h
  | pop => exact execPop_commandTo h
  | peek ix =>
    obtain ⟨k, r, heq⟩ := execPeek_responds ix s
    cases heq.symm.trans h
    exact .onlyResponded _ _ _
  | readReg r =>
    obtain ⟨k, res, heq⟩ := execReadReg_responds r s
    cases heq.symm.trans h
    exact .onlyResponded _ _ _
  | writeReg r v => exact execWriteReg_commandTo h
  | softReset => cases h; exact .wasReset
  | _ => cases hi

end next

/-! ## Frames of the commands that write bytes -/

/-- An ENCODE's run leaves START, DSTATE, CONFIG and the parameters alone. -/
theorem encOpened_run_encFrame {n : Nat} {desc : List Entry} {args : List Arg} {s t : State}
    (hrun : runTurns n (encOpened s desc args) = .next t) : EncFrame s t := by
  have hopen : EncFrame s (encOpened s desc args) := ⟨rfl, rfl, rfl, rfl⟩
  exact hopen.trans (runTurns_encFrame (by rintro m ⟨⟩; rfl) hrun)

/-- A DECODE's run leaves BUF, STOP, CONFIG and the parameters alone. -/
theorem decOpened_run_decFrame {n : Nat} {desc : List Entry} {s t : State}
    (hrun : runTurns n (decOpened s desc) = .next t) : DecFrame s t := by
  have hopen : DecFrame s (decOpened s desc) := ⟨rfl, rfl, rfl, rfl⟩
  exact hopen.trans (runTurns_decFrame (by rintro m ⟨⟩; rfl) hrun)

theorem writeFrame_encFrame (s : State) (bs : List Byte) : EncFrame s (writeFrame s bs) := by
  rw [writeFrame_eq]
  exact ⟨by simp, by simp, by simp, by simp⟩

/-! ## The writers of each register (R31, R33, R70, R84, R313) -/

/-- Settles O60: a command that only responds or raises writes no register but the error record; ENCODE, BELL and ACK
have `EncFrame`, DECODE has `DecFrame`, and the other commands name the registers they write. -/
theorem writersOfRegisters : Obligations.WritersOfRegisters := by
  intro i s t hi _ h
  cases exec_commandTo hi h with
  | onlyResponded | raised | decodeRefused | decodeRaised | cursorsSet | wasReset => simp
  | encoded desc args _ _ _ hrun =>
    obtain ⟨-, hstart, hdstate, hconfig⟩ := encOpened_run_encFrame hrun
    simp [hstart, hdstate, hconfig]
  | decoded desc _ _ _ hrun =>
    obtain ⟨-, hbuf, hstop, hconfig⟩ := decOpened_run_decFrame hrun
    simp [hbuf, hstop, hconfig]
  | belled m addr bs _ | acked m addr bs _ =>
    obtain ⟨-, hstart, hdstate, hconfig⟩ := writeFrame_encFrame s bs
    simp [hstart, hdstate, hconfig]
  | pushed b _ => simp [State.pushed]
  | popped _ => simp [State.popped]
  | configWritten v =>
    obtain ⟨d, heq⟩ := writeConfig_eq v s
    simp [heq]

/-! ## The parameters (R39) -/

theorem CommandTo.params {i : Instr} {s t : State} (h : CommandTo s i t) : t.params = s.params := by
  cases h with
  | onlyResponded | raised | decodeRefused | decodeRaised | cursorsSet | pushed | popped | wasReset => rfl
  | encoded _ _ _ _ _ hrun => exact (encOpened_run_encFrame hrun).params
  | decoded _ _ _ _ hrun => exact (decOpened_run_decFrame hrun).params
  | belled _ _ bs | acked _ _ bs => exact (writeFrame_encFrame s bs).params
  | configWritten v =>
    obtain ⟨d, heq⟩ := writeConfig_eq v s
    simp [heq]

/-- No step changes the parameters, be it a turn, a command or idling. -/
theorem step_params {s t : State} (h : step s = .next t) : t.params = s.params := by
  obtain ⟨m, hm, heq⟩ | ⟨-, -, heq⟩ | ⟨-, c, rest, -, heq⟩ := step_cases s <;> rw [heq] at h
  · rw [stepMessage_eq_turn hm] at h
    exact (turn_turnTo hm h).params
  · cases h; rfl
  · obtain ⟨i, hdec, hcmd⟩ | ⟨e, -, hcmd⟩ := takeCommand_cases c { s with port := rest } <;> rw [hcmd] at h
    · exact (exec_commandTo (decodeCommand_isEntry hdec) h).params
    · cases h; rfl

/-- FEATURES holds its two feature bits and no other (R39). -/
theorem featuresWord_bits (p : Params) : (featuresWord p).getLsbD 0 = p.featUtf16 ∧
    (featuresWord p).getLsbD 1 = p.featUtf32 ∧ featuresWord p >>> 2 = 0 := by
  unfold featuresWord
  cases p.featUtf16 <;> cases p.featUtf32 <;> decide

/-- Settles O59: no step changes the parameters, and READ_REG computes the four registers from them. -/
theorem parametersConstant : Obligations.ParametersConstant :=
  ⟨fun _ _ => step_params, fun s => ⟨rfl, rfl, rfl, featuresWord s.params, rfl, featuresWord_bits s.params⟩⟩

end Sys2Proof.Machine
end

section
/-! PROOFS (10_state.md). The invariant between commands: the rules by which an update of a register keeps it, what
takes its place while a message is open, and that every step keeps it and answers. -/

namespace Sys2Proof.Machine

/-! ## Updates that keep the invariant -/

theorem ErrKind.raisable_none : ErrKind.none.raisable := by decide

/-- A number put in a 32-bit register does not grow. -/
theorem toNat_ofNat_le (n : Nat) : (BitVec.ofNat 32 n).toNat ≤ n :=
  (BitVec.toNat_ofNat n 32).trans_le (Nat.mod_le _ _)

/-- A cursor below CAP, put in a register, names storage that exists. -/
theorem ofNat_cursor_lt {cap c : Nat} (hc : c < cap) : (BitVec.ofNat 32 c).toNat < cap := (toNat_ofNat_le c).trans_lt hc

theorem initialState_cases (dmode : Bool) : initialState dmode = .address ∨ initialState dmode = .args := by
  cases dmode <;> simp [initialState]

section updates
variable {s : State} (h : Inv s)
include h

theorem Inv.respond (k : ErrKind) (r : Result) : Inv (s.respond k r) := { h with no_message := h.no_message }

theorem Inv.raise {k : ErrKind} {index addr : Nat} (hk : k.raisable) (hi : index ≤ s.params.paramMax)
    (ha : addr < s.params.cap) : Inv (s.raise k index addr) :=
  { h with
    err_kind := hk
    err_index := (toNat_ofNat_le index).trans hi
    err_addr := ofNat_cursor_lt ha }

theorem Inv.cap_pos : 0 < s.params.cap := Nat.zero_lt_of_lt h.start_lt

theorem Inv.complete (r : Result) : Inv (s.complete r) :=
  { h with err_kind := ErrKind.raisable_none, err_index := Nat.zero_le _, err_addr := h.cap_pos }

theorem Inv.setStart {w : Word} (hw : w.toNat < s.params.cap) : Inv { s with start := w } := { h with start_lt := hw }

theorem Inv.setStop {w : Word} (hw : w.toNat < s.params.cap) : Inv { s with stop := w } := { h with stop_lt := hw }

theorem Inv.setHash (x : Half) : Inv { s with hash := x } := { h with no_message := h.no_message }

theorem Inv.setTrace (ds : List DState) : Inv { s with trace := ds } := { h with no_message := h.no_message }

theorem Inv.setPort (cs : List Issue) : Inv { s with port := cs } := { h with no_message := h.no_message }

theorem Inv.bufWrite {c : Nat} (hc : c < s.params.cap) (b : Byte) : Inv (s.bufWrite c b) :=
  { h with mem_wf := memWf_memWrite c b h.mem_wf, mem_lt := memBelow_memWrite b hc h.mem_lt }

/-- DSTATE may become Error or Locked at any time: neither says anything of DMODE. -/
theorem Inv.setDstate_stopped {d : DState} (hd : d = .locked ∨ d = .error) : Inv { s with dstate := d } :=
  { h with
    dstate_between := by obtain rfl | rfl := hd <;> simp
    dstate_idle := by obtain rfl | rfl := hd <;> simp }

/-- DSTATE may become `initial(DMODE)` at any time (R313). -/
theorem Inv.setDstate_initial : Inv { s with dstate := initialState s.dmode } :=
  { h with
    dstate_between := (initialState_cases s.dmode).elim .inl fun hargs => .inr (.inl hargs)
    dstate_idle := fun _ => rfl }

theorem Inv.writeConfig (v : Word) : Inv (writeConfig v s) := by
  obtain ⟨d, heq⟩ := writeConfig_eq v s
  have hcases := writeConfig_dstate_cases v s
  rw [heq] at hcases ⊢
  refine { h with dstate_between := ?between, dstate_idle := ?idle, config_reserved := ?reserved }
  case between =>
    obtain hinit | ⟨-, hsame⟩ := hcases
    · exact hinit ▸ (initialState_cases _).elim .inl fun hargs => .inr (.inl hargs)
    · rw [hsame]; exact h.dstate_between
  case idle =>
    obtain hinit | ⟨hstopped, hsame⟩ := hcases
    · exact fun _ => hinit
    · rw [hsame]; exact fun hidle => absurd hidle hstopped
  case reserved =>
    change v &&& configMask &&& ~~~configMask = 0
    simp [BitVec.and_assoc]

theorem Inv.softReset : Inv (softResetState s) :=
  { h with
    start_lt := h.cap_pos
    stop_lt := h.cap_pos
    dstate_between := .inr (.inl rfl)
    dstate_idle := fun _ => by simp [initialState, State.dmode]
    config_reserved := BitVec.zero_and
    err_kind := ErrKind.raisable_none
    err_index := Nat.zero_le _
    err_addr := h.cap_pos }

theorem Inv.pushed (b : Byte) : Inv (s.pushed b) :=
  ((h.bufWrite h.stop_lt b).setStop (ofNat_cursor_lt (adv_lt h.stop_lt))).complete .none

theorem Inv.popped : Inv s.popped := (h.setStart (ofNat_cursor_lt (adv_lt h.start_lt))).complete _

end updates

/-! ## While a message is open -/

/-- The state a message in progress would leave behind if it were given up as it stands: no transient state, and in a
DECODE DSTATE in Error (R239, R327). -/
def Active.settled (a : Active) : State :=
  { a.st with msg := none, dstate := if a.msg.dir = .enc then a.st.dstate else .error }

/-- What holds while a message is open: given up as it stands it would leave the invariant, its cursor is in the ring,
and every index it can report is at most PARAM_MAX. -/
structure OpenInv (a : Active) : Prop where
  settled : Inv a.settled
  cur_lt : a.msg.cur < a.st.params.cap
  desc_le : a.msg.desc.length ≤ a.st.params.paramMax
  index_le : ∀ x ∈ a.msg.inner.map Level.index, x ≤ a.st.params.paramMax

section settled
variable (a : Active)

theorem Active.emitTrailer_settled (b : Byte) : (a.emitTrailer b).settled = a.settled.bufWrite a.msg.cur b := by
  simp [Active.settled, State.bufWrite]

theorem Active.consumeTrailer_settled : a.consumeTrailer.settled = a.settled := by
  simp [Active.settled]

theorem Active.consumeN_settled (n : Nat) : (Active.consumeN n a).settled = a.settled := by
  simp [Active.settled]

theorem Active.enter_settled {d : DState} (hd : a.msg.dir = .dec) :
    (a.enter d).settled = { a.settled with trace := a.st.trace ++ [d] } := by
  simp [Active.settled, State.enter, hd]

theorem Active.settled_of_enc {a : Active} (hd : a.msg.dir = .enc) : a.settled = { a.st with msg := none } := by
  simp [Active.settled, hd]

end settled

section steps
variable {a : Active} (h : OpenInv a)
include h

theorem OpenInv.emit (b : Byte) : OpenInv (a.emit b) where
  settled := h.settled.bufWrite h.cur_lt b
  cur_lt := adv_lt h.cur_lt
  desc_le := h.desc_le
  index_le := by
    have hindex : (a.emit b).msg.inner.map Level.index = a.msg.inner.map Level.index := by
      simp [Active.emit, Message.foldBody, Level.fold, Function.comp_def]
    rw [hindex]
    exact h.index_le

theorem OpenInv.emitBytes (bs : List Byte) : OpenInv (a.emitBytes bs) := by
  induction bs generalizing a with
  | nil => exact h
  | cons b bs ih => exact ih (h.emit b)

theorem OpenInv.emitTrailer (b : Byte) : OpenInv (a.emitTrailer b) where
  settled := a.emitTrailer_settled b ▸ h.settled.bufWrite h.cur_lt b
  cur_lt := by simpa using adv_lt h.cur_lt
  desc_le := by simpa using h.desc_le
  index_le := by simpa using h.index_le

theorem OpenInv.consumeTrailer : OpenInv a.consumeTrailer where
  settled := a.consumeTrailer_settled ▸ h.settled
  cur_lt := by simpa using adv_lt h.cur_lt
  desc_le := by simpa using h.desc_le
  index_le := by simpa using h.index_le

theorem OpenInv.consumeN (n : Nat) : OpenInv (Active.consumeN n a) where
  settled := a.consumeN_settled n ▸ h.settled
  cur_lt := by simpa using advN_lt n h.cur_lt
  desc_le := by simpa using h.desc_le
  index_le := by
    rw [Active.consumeN_msg, Message.ran_inner_index, Active.consumeN_st]
    exact h.index_le

theorem OpenInv.enter (hd : a.msg.dir = .dec) (d : DState) : OpenInv (a.enter d) where
  settled := a.enter_settled hd ▸ h.settled.setTrace _
  cur_lt := h.cur_lt
  desc_le := h.desc_le
  index_le := h.index_le

theorem OpenInv.enterSub (hd : a.msg.dir = .dec) (sub : Option DState) : OpenInv (enterSub a sub) := by
  cases sub with
  | none => exact h
  | some d => exact h.enter hd d

theorem OpenInv.commitStop : OpenInv a.commitStop where
  settled := h.settled.setStop (ofNat_cursor_lt h.cur_lt)
  cur_lt := h.cur_lt
  desc_le := h.desc_le
  index_le := h.index_le

theorem OpenInv.pop : OpenInv a.pop where
  settled := h.settled
  cur_lt := h.cur_lt
  desc_le := h.desc_le
  index_le x hx := by
    have hmem : x ∈ (a.msg.inner.map Level.index).tail := by simpa [Active.pop, List.map_tail] using hx
    exact h.index_le x (List.mem_of_mem_tail hmem)

/-- The values and the descriptor index of a message have no part in `OpenInv`. -/
theorem OpenInv.setEntry (vals : List Value) (i : Nat) :
    OpenInv { a with msg := { a.msg with vals := vals, i := i } } :=
  { h with settled := h.settled }

/-- Opening an inner message at an entry of the descriptor. -/
theorem OpenInv.push {l : Level} (hl : l.index ≤ a.st.params.paramMax) :
    OpenInv { a with msg := { a.msg with inner := l :: a.msg.inner } } :=
  { h with
    settled := h.settled
    index_le := by
      intro x hx
      obtain rfl | hx := List.mem_cons.1 hx
      · exact hl
      · exact h.index_le x hx }

/-- Whatever index an error inside a message reports is at most PARAM_MAX (R38). -/
theorem OpenInv.reports_le {index : Nat} (hi : a.msg.Reports index) : index ≤ a.st.params.paramMax := by
  obtain ⟨rfl, hlt⟩ | rfl := hi
  · exact hlt.le.trans h.desc_le
  · unfold Message.trailerIndex
    split
    next => exact h.desc_le
    next l ls hin => exact h.index_le _ (by simp [hin])

/-! ## Ends of a message -/

theorem OpenInv.fail {k : ErrKind} {index addr : Nat} (hk : k.raisable) (hi : index ≤ a.st.params.paramMax)
    (ha : addr < a.st.params.cap) : Inv (a.fail k index addr) := by
  cases hd : a.msg.dir with
  | enc =>
    rw [Active.fail_enc _ _ _ _ hd]
    exact (Active.settled_of_enc hd ▸ h.settled).setHash a.msg.hash0 |>.raise hk hi ha
  | dec =>
    rw [Active.fail_dec _ _ _ _ hd]
    have herror : Inv { a.settled with hash := a.msg.hash0, dstate := .error, trace := a.st.trace ++ [.error] } :=
      ((h.settled.setHash _).setDstate_stopped (.inr rfl)).setTrace _
    exact herror.raise hk hi ha

theorem OpenInv.finishEnc (hd : a.msg.dir = .enc) : Inv a.finishEnc :=
  ((Active.settled_of_enc hd ▸ h.settled).setHash a.msg.hash0).complete .none

theorem OpenInv.finishDec : Inv a.finishDec := by
  have hidle : Inv { a.settled with
      start := BitVec.ofNat 32 a.msg.cur, hash := a.msg.hash0, dstate := initialState a.st.dmode,
      trace := a.st.trace ++ [initialState a.st.dmode] } :=
    (((h.settled.setStart (ofNat_cursor_lt h.cur_lt)).setHash _).setDstate_initial).setTrace _
  exact hidle.complete _

end steps

/-! ## A turn keeps `OpenInv` or ends in the invariant -/

/-- The turns a message can still take: one an entry, one for each open inner message's trailer, and one for its own;
a BSC's entry pays for its trailer too. -/
def Message.turnsLeft (m : Message) : Nat := 2 * (m.desc.length - m.i) + m.inner.length + 1

/-- A message is open in `t` under `OpenInv`, with fewer than `n` turns left. -/
def OpenBelow (n : Nat) (t : State) : Prop :=
  ∃ m, t.msg = some m ∧ OpenInv { st := t, msg := m } ∧ m.turnsLeft < n

/-- Keeping a message in the state changes nothing of `OpenInv`. -/
theorem OpenInv.keep {a : Active} (h : OpenInv a) {n : Nat} (hn : a.msg.turnsLeft < n) : OpenBelow n a.keep :=
  ⟨a.msg, rfl, { h with settled := h.settled }, hn⟩

/-- Byte steps change neither the entry a message is at nor how many inner messages are open. -/
theorem Message.turnsLeft_congr {m m' : Message} (hdesc : m'.desc = m.desc) (hi : m'.i = m.i)
    (hin : m'.inner.map Level.index = m.inner.map Level.index) : m'.turnsLeft = m.turnsLeft := by
  have hlen : m'.inner.length = m.inner.length := by simpa using congrArg List.length hin
  simp [Message.turnsLeft, hdesc, hi, hlen]

section turnsLeft
variable (a : Active)

theorem Active.emitBytes_turnsLeft (bs : List Byte) : (a.emitBytes bs).msg.turnsLeft = a.msg.turnsLeft :=
  Message.turnsLeft_congr (by simp) (by simp) (by simp)

theorem Active.emitTrailer_turnsLeft (b : Byte) : (a.emitTrailer b).msg.turnsLeft = a.msg.turnsLeft :=
  Message.turnsLeft_congr (by simp) (by simp) (by simp)

theorem Active.consumeTrailer_turnsLeft : a.consumeTrailer.msg.turnsLeft = a.msg.turnsLeft :=
  Message.turnsLeft_congr (by simp) (by simp) (by simp)

theorem Active.consumeN_turnsLeft (n : Nat) : (Active.consumeN n a).msg.turnsLeft = a.msg.turnsLeft :=
  Message.turnsLeft_congr (by simp) (by simp) (by simp)

end turnsLeft

/-- Passing an entry takes two turns off, and may put one back as an open inner message. -/
theorem Message.turnsLeft_next_lt {m : Message} (hi : m.i < m.desc.length) (vals : List Value) (inner : List Level)
    (hin : inner.length ≤ m.inner.length + 1) :
    ({ m with vals := vals, i := m.i + 1, inner := inner } : Message).turnsLeft < m.turnsLeft := by
  simp only [Message.turnsLeft]
  omega

/-- Closing an inner message takes one turn off. -/
theorem Message.turnsLeft_tail_lt {m : Message} (hin : m.inner ≠ []) :
    ({ m with inner := m.inner.tail } : Message).turnsLeft < m.turnsLeft := by
  have hpos := List.length_pos_of_ne_nil hin
  simp only [Message.turnsLeft, List.length_tail]
  omega

/-- An inner message that is open stays open while its trailer is folded. -/
theorem Message.inner_ne_nil_congr {m m' : Message} (hin : m'.inner.map Level.index = m.inner.map Level.index)
    (hne : m.inner ≠ []) : m'.inner ≠ [] := by
  intro hnil
  rw [hnil, List.map_nil] at hin
  exact hne (List.map_eq_nil_iff.1 hin.symm)

/-- Committing a written field passes its entry (R231). -/
theorem OpenInv.commitField {a : Active} (h : OpenInv a) (hi : a.msg.i < a.msg.desc.length) :
    OpenBelow a.msg.turnsLeft (commitField a) :=
  (h.setEntry a.msg.vals (a.msg.i + 1)).commitStop.keep
    (Message.turnsLeft_next_lt hi a.msg.vals a.msg.inner (Nat.le_succ _))

/-- Storing a field's value passes its entry (R323). -/
theorem OpenInv.storeValue {a : Active} (h : OpenInv a) (hd : a.msg.dir = .dec) (hi : a.msg.i < a.msg.desc.length)
    (v : Value) : OpenBelow a.msg.turnsLeft (storeValue a v) :=
  ((h.setEntry (a.msg.vals.set a.msg.i v) (a.msg.i + 1)).enter hd .args).keep
    (Message.turnsLeft_next_lt hi (a.msg.vals.set a.msg.i v) a.msg.inner (Nat.le_succ _))

/-- Opening an inner message passes its BSC (R240, R330). -/
theorem OpenInv.openInner {a : Active} (h : OpenInv a) (hi : a.msg.i < a.msg.desc.length) (n : Nat) :
    OpenBelow a.msg.turnsLeft (openInner a n) :=
  ((h.push (hi.le.trans h.desc_le)).setEntry a.msg.vals (a.msg.i + 1)).keep
    (Message.turnsLeft_next_lt hi a.msg.vals
      ({ hash := a.st.params.hashSeed, hi := a.msg.i + 1 + n, index := a.msg.i } :: a.msg.inner) (Nat.le_refl _))

/-- A turn under `OpenInv` ends its message in the invariant, or leaves it open with fewer turns left. -/
theorem TurnTo.inv_or_openBelow {a : Active} {t : State} (ht : TurnTo a t) (h : OpenInv a) :
    Inv t ∨ OpenBelow a.msg.turnsLeft t := by
  cases ht with
  | encFailed bs k index hd hk hi =>
    have hbytes := h.emitBytes bs
    exact .inl (hbytes.fail hk (by simpa using h.reports_le hi) hbytes.cur_lt)
  | encWrote bs hd hi =>
    have hwrote := (h.emitBytes bs).commitField (by simpa using hi)
    exact .inr (a.emitBytes_turnsLeft bs ▸ hwrote)
  | encFinished lo hi hd => exact .inl (((h.emitTrailer lo).emitTrailer hi).commitStop.finishEnc (by simpa using hd))
  | encClosed lo hi hd hin =>
    have hleft := Message.turnsLeft_tail_lt (m := ((a.emitTrailer lo).emitTrailer hi).msg)
      (Message.inner_ne_nil_congr (by simp) hin)
    rw [Active.emitTrailer_turnsLeft, Active.emitTrailer_turnsLeft] at hleft
    exact .inr (((h.emitTrailer lo).emitTrailer hi).commitStop.pop.keep hleft)
  | decFailed sub n k index offset hd hk hi =>
    have hbytes := (h.enterSub hd sub).consumeN n
    have hparams := (a.consumeN_decFrame sub n).params
    exact .inl (hbytes.fail hk (by rw [hparams]; exact h.reports_le hi)
      (by rw [hparams]; exact advN_lt offset h.cur_lt))
  | decRead sub n v hd hi =>
    have hbytes := (h.enterSub hd sub).consumeN n
    have hread := hbytes.storeValue (by simpa using hd) (by simpa using hi) v
    rw [Active.consumeN_turnsLeft, enterSub_msg] at hread
    exact .inr hread
  | decMismatched hd =>
    exact .inl ((h.enter hd .hash).consumeTrailer.consumeTrailer.fail (by decide) (h.reports_le (.inr rfl)) h.cur_lt)
  | decFinished hd => exact .inl (h.enter hd .hash).consumeTrailer.consumeTrailer.finishDec
  | decClosed hd hin =>
    have hleft := Message.turnsLeft_tail_lt (m := (a.enter .hash).consumeTrailer.consumeTrailer.msg)
      (Message.inner_ne_nil_congr (by simp) hin)
    rw [Active.consumeTrailer_turnsLeft, Active.consumeTrailer_turnsLeft, Active.enter_msg] at hleft
    have hclosed := (h.enter hd .hash).consumeTrailer.consumeTrailer.pop
    exact .inr ((hclosed.enter (by simpa [Active.pop] using hd) .args).keep hleft)
  | opened n hi => exact .inr (h.openInner hi n)

/-! ## The engine run to the end of its message -/

/-- The engine's cursors are in the ring. -/
theorem OpenInv.cursorsInRing {a : Active} (h : OpenInv a) : a.st.cursorsInRing = true := h.settled.cursorsInRing

/-- With as many turns allowed as the message can take, the engine answers, and what it answers meets the invariant. -/
theorem runTurns_inv {n : Nat} {s : State} (h : OpenBelow (n + 1) s) : ∃ t, runTurns n s = .next t ∧ Inv t := by
  induction n generalizing s with
  | zero =>
    obtain ⟨m, -, -, hleft⟩ := h
    simp [Message.turnsLeft] at hleft
  | succ n ih =>
    obtain ⟨m, hm, hopen, hleft⟩ := h
    obtain ⟨t, ht⟩ := turn_answers hm hopen.cursorsInRing hopen.cur_lt
    rw [runTurns_succ hm ht]
    obtain hinv | ⟨m', hm', hopen', hless⟩ := (turn_turnTo hm ht).inv_or_openBelow hopen
    · exact ⟨t, runTurns_of_none n hinv.no_message, hinv⟩
    · exact ih ⟨m', hm', hopen', hless.trans_le (Nat.le_of_lt_succ hleft)⟩

section commands
variable {s : State} (h : Inv s)
include h

/-- A seeded ENCODE has at most `turnsFor` turns to take. -/
theorem Inv.encOpened {desc : List Entry} (args : List Arg) (hdesc : desc.length ≤ s.params.paramMax) :
    OpenBelow (turnsFor desc.length + 1) (encOpened s desc args) :=
  ⟨encMessage s desc args, rfl,
    { settled := { h with no_message := rfl }, cur_lt := h.stop_lt, desc_le := hdesc,
      index_le := by simp [encMessage] },
    by simp [Message.turnsLeft, encMessage, turnsFor]⟩

/-- A seeded DECODE has at most `turnsFor` turns to take. -/
theorem Inv.decOpened {desc : List Entry} (hdesc : desc.length ≤ s.params.paramMax) :
    OpenBelow (turnsFor desc.length + 1) (decOpened s desc) :=
  ⟨decMessage s desc, rfl,
    { settled := { h.setDstate_stopped (.inr rfl) with no_message := rfl }, cur_lt := h.start_lt, desc_le := hdesc,
      index_le := by simp [decMessage] },
    by simp [Message.turnsLeft, decMessage, turnsFor]⟩

/-- A frame ends as an ENCODE without a trailer does (R390). -/
theorem Inv.writeFrame (bs : List Byte) : Inv (writeFrame s bs) := by
  have hopen : OpenInv { st := s, msg := frameMessage s } :=
    { settled := { h with no_message := rfl }, cur_lt := h.stop_lt, desc_le := Nat.zero_le _,
      index_le := by simp [frameMessage] }
  have heq : Machine.writeFrame s bs =
      (Active.emitBytes { st := s, msg := frameMessage s } bs).commitStop.finishEnc := by
    simp [Machine.writeFrame, Active.finishEnc, Active.commitStop, h.no_message]
  rw [heq]
  exact (hopen.emitBytes bs).commitStop.finishEnc (by simp [frameMessage])

/-- Where a command leads from a state that meets the invariant, the invariant holds. -/
theorem Inv.commandTo {i : Instr} {t : State} (ht : CommandTo s i t) : Inv t := by
  cases ht with
  | onlyResponded _ k r => exact h.respond k r
  | raised _ k index addr hk hi ha =>
    refine h.raise hk hi ?_
    obtain rfl | rfl := ha
    · exact h.start_lt
    · exact h.stop_lt
  | encoded desc args _ _ hdesc hrun =>
    obtain ⟨u, hu, hinv⟩ := runTurns_inv (h.encOpened args hdesc)
    cases hu.symm.trans hrun
    exact hinv
  | decodeRefused => exact (h.setTrace []).respond _ _
  | decodeRaised desc d k index hd hk hi =>
    exact ((h.setDstate_stopped hd).setTrace ([] ++ [d])).raise hk hi h.start_lt
  | decoded desc _ _ hdesc hrun =>
    obtain ⟨u, hu, hinv⟩ := runTurns_inv (h.decOpened hdesc)
    cases hu.symm.trans hrun
    exact hinv
  | belled _ _ bs | acked _ _ bs => exact h.writeFrame bs
  | cursorsSet sv tv hs ht => exact (((h.setStart hs).setStop ht).setDstate_initial).complete .none
  | pushed b => exact h.pushed b
  | popped => exact h.popped
  | configWritten v => exact (h.writeConfig v).respond _ _
  | wasReset => exact h.softReset.respond _ _

theorem Inv.onRing_answers (t : State) : ∃ u, onRing s.cursorsInRing (.next t) = .next u :=
  ⟨t, by rw [h.cursorsInRing, onRing_true]⟩

theorem Inv.runTurns_answers {n : Nat} {u : State} (hu : OpenBelow (n + 1) u) :
    ∃ t, onRing s.cursorsInRing (runTurns n u) = .next t := by
  obtain ⟨t, ht, -⟩ := runTurns_inv hu
  exact ⟨t, by rw [h.cursorsInRing, onRing_true, ht]⟩

theorem Inv.frame_answers (c : Byte) (m : Word) (addr : List Byte) : ∃ t, frame c m addr s = .next t := by
  obtain ⟨k, -, heq⟩ | heq := frame_cases c m addr s <;> rw [heq]
  · exact ⟨_, rfl⟩
  · exact h.onRing_answers _

/-- From a state that meets the invariant every command answers. -/
theorem Inv.exec_answers {i : Instr} (hi : isEntry i = false) : ∃ t, exec i s = .next t := by
  cases i with
  | nop | softReset => exact ⟨_, rfl⟩
  | encode desc args =>
    change ∃ t, execEncode desc args s = .next t
    obtain ⟨k, index, -, -, heq⟩ | ⟨hdesc, heq⟩ := execEncode_cases desc args s <;> rw [heq]
    · exact ⟨_, rfl⟩
    · exact h.runTurns_answers (h.encOpened args hdesc)
  | decode desc =>
    change ∃ t, execDecode desc s = .next t
    obtain heq | ⟨d, k, index, -, -, -, heq⟩ | ⟨hdesc, heq⟩ := execDecode_cases desc s <;> rw [heq]
    · exact ⟨_, rfl⟩
    · exact ⟨_, rfl⟩
    · exact h.runTurns_answers (h.decOpened hdesc)
  | bell m addr => exact h.frame_answers 7 m addr
  | ack m addr => exact h.frame_answers 6 m addr
  | setCursors sv tv =>
    change ∃ t, execSetCursors sv tv s = .next t
    obtain ⟨-, heq⟩ | ⟨-, -, heq⟩ := execSetCursors_cases sv tv s <;> exact ⟨_, heq⟩
  | push b =>
    change ∃ t, execPush b s = .next t
    obtain heq | heq := execPush_cases b s <;> rw [heq]
    · exact ⟨_, rfl⟩
    · exact h.onRing_answers _
  | pop =>
    change ∃ t, execPop s = .next t
    obtain heq | heq := execPop_cases s <;> rw [heq]
    · exact ⟨_, rfl⟩
    · exact h.onRing_answers _
  | peek ix =>
    obtain ⟨k, r, heq⟩ := execPeek_responds ix s
    exact ⟨_, heq⟩
  | readReg r =>
    obtain ⟨k, res, heq⟩ := execReadReg_responds r s
    exact ⟨_, heq⟩
  | writeReg r v =>
    change ∃ t, execWriteReg r v s = .next t
    obtain heq | ⟨-, heq⟩ := execWriteReg_cases r v s <;> exact ⟨_, heq⟩
  | _ => cases hi

end commands

/-! ## The step -/

/-- Settles O57: a step idles, only responds to an unknown opcode, or runs a command, which `Inv.commandTo` covers. -/
theorem stepKeepsInvariant : Obligations.StepKeepsInvariant := by
  intro s t h hstep
  obtain ⟨m, hm, -⟩ | ⟨-, -, heq⟩ | ⟨-, c, rest, -, heq⟩ := step_cases s
  · simp [h.no_message] at hm
  · cases heq.symm.trans hstep
    exact h
  · rw [heq] at hstep
    obtain ⟨i, hdec, hcmd⟩ | ⟨e, -, hcmd⟩ := takeCommand_cases c { s with port := rest } <;> rw [hcmd] at hstep
    · exact (h.setPort rest).commandTo (exec_commandTo (decodeCommand_isEntry hdec) hstep)
    · cases hstep
      exact (h.setPort rest).respond _ _

/-- Settles O58: the command a step takes answers, an unknown opcode and an empty port too; an open message, which the
invariant excludes, is the only other thing a step could meet. -/
theorem stepAlwaysAnswers : Obligations.StepAlwaysAnswers := by
  intro s h
  obtain ⟨m, hm, -⟩ | ⟨-, -, heq⟩ | ⟨-, c, rest, -, heq⟩ := step_cases s
  · simp [h.no_message] at hm
  · exact ⟨s, heq⟩
  · rw [heq]
    obtain ⟨i, hdec, hcmd⟩ | ⟨e, -, hcmd⟩ := takeCommand_cases c { s with port := rest } <;> rw [hcmd]
    · exact (h.setPort rest).exec_answers (decodeCommand_isEntry hdec)
    · exact ⟨_, rfl⟩

end Sys2Proof.Machine
end

section
/-! PROOFS (20_memory.md). What a step takes and runs, the commands ENCODE and DECODE as the steps of their entries and
trailers (R75), and their pre-checks, which are over before anything is seeded (R84, R230, R320, R441). -/

namespace Sys2Proof.Machine

/-! ## What a step takes (R410, log entries 4 and 5) -/

section step
variable {s : State}

/-- With a message open a step is one turn of its engine (R231, R323). -/
theorem step_of_message {m : Message} (hm : s.msg = some m) : step s = turn { st := s, msg := m } := by
  simp only [step, hm, stepMessage_eq_turn hm]

theorem step_of_idle (hm : s.msg = none) (hp : s.port = []) : step s = .next s := by
  simp only [step, hm, hp]

theorem step_of_command {c : Issue} {rest : List Issue} {i : Instr} (hm : s.msg = none) (hp : s.port = c :: rest)
    (hdec : decodeCommand c = .ok i) : step s = exec i { s with port := rest } := by
  simp only [step, hm, hp, takeCommand, hdec]

/-- The turn of an entry is the entry's own meaning, on the state that holds the message (R115). -/
theorem step_of_entry {m : Message} {e : Entry} {i : Instr} (hm : s.msg = some m) (hnext : m.nextEntry = some e)
    (hdec : decodeEntry e = .ok i) : step s = exec i s := by
  simp only [step, hm, stepMessage, hnext, hdec]

end step

/-- Settles O6, one clause for each thing a step can meet. -/
theorem stepRunsDecoded : Obligations.StepRunsDecoded :=
  ⟨fun _ _ _ _ => step_of_command, fun _ _ _ _ => step_of_entry, fun _ => step_of_idle⟩

/-! ## No turn touches the port -/

@[simp] theorem State.writeRun_port (s : State) (c : Nat) (bs : List Byte) : (s.writeRun c bs).port = s.port := by
  obtain ⟨m, h⟩ := s.writeRun_eq_buf c bs; simp [h]

@[simp] theorem enterSub_port (a : Active) (sub : Option DState) : (enterSub a sub).st.port = a.st.port := by
  cases sub <;> rfl

/-- The commands still pending wait until the message has ended (R3, R410). -/
theorem TurnTo.port {a : Active} {t : State} (h : TurnTo a t) : t.port = a.st.port := by
  cases h with
  | encFailed | decFailed | decMismatched => simp
  | encWrote bs =>
    have hkept : (commitField (a.emitBytes bs)).port = (a.emitBytes bs).st.port := rfl
    simp [hkept]
  | decRead sub n v =>
    have hkept (b : Active) : (storeValue b v).port = b.st.port := rfl
    simp [hkept]
  | encFinished | encClosed | decFinished | decClosed | opened => rfl

/-! ## The machine run on an empty port is the engine run -/

section run
variable {n : Nat} {s : State}

theorem core_run_of_next {t : State} (h : step s = .next t) :
    Host.Core.run Sys2Proof.core (n + 1) s = Host.Core.run Sys2Proof.core n t := by
  have hcore : Sys2Proof.core.step s = .next t := h
  simp only [Host.Core.run, hcore]

theorem core_run_of_fault {r : Fault} (h : step s = .fault r) :
    Host.Core.run Sys2Proof.core (n + 1) s = .fault r := by
  have hcore : Sys2Proof.core.step s = .fault r := h
  simp only [Host.Core.run, hcore]

theorem core_run_of_refused {r : Refusal} (h : step s = .refused r) :
    Host.Core.run Sys2Proof.core (n + 1) s = .refused r := by
  have hcore : Sys2Proof.core.step s = .refused r := h
  simp only [Host.Core.run, hcore]

/-- Once the message has ended, an empty port leaves nothing to run (R410, log entry 5). -/
theorem core_run_of_idle (hm : s.msg = none) (hp : s.port = []) : Host.Core.run Sys2Proof.core n s = .next s := by
  induction n with
  | zero => rfl
  | succ n ih => rw [core_run_of_next (step_of_idle hm hp), ih]

end run

/-- On an empty port the machine's steps are the engine's turns, stops included: a step with a message open is a turn
and leaves the port empty, and where the message has ended the one idles and the other stops. -/
theorem core_run_eq_runTurns (n : Nat) {s : State} (hp : s.port = []) :
    Host.Core.run Sys2Proof.core n s = runTurns n s := by
  induction n generalizing s with
  | zero => rfl
  | succ n ih =>
    cases hm : s.msg with
    | none => exact (core_run_of_idle hm hp).trans (runTurns_of_none _ hm).symm
    | some m =>
      have hstep := step_of_message hm
      cases ht : turn { st := s, msg := m } with
      | next t =>
        have hport : t.port = [] := (turn_turnTo hm ht).port.trans hp
        rw [core_run_of_next (hstep.trans ht), runTurns_succ hm ht, ih hport]
      | fault r =>
        have hturns : runTurns (n + 1) s = .fault r := by simp only [runTurns, hm, ht]
        exact (core_run_of_fault (hstep.trans ht)).trans hturns.symm
      | refused r =>
        have hturns : runTurns (n + 1) s = .refused r := by simp only [runTurns, hm, ht]
        exact (core_run_of_refused (hstep.trans ht)).trans hturns.symm

/-! ## ENCODE and DECODE as their steps -/

theorem exec_encode (desc : List Entry) (args : List Arg) (s : State) :
    exec (.encode desc args) s = execEncode desc args s := rfl

theorem exec_decode (desc : List Entry) (s : State) : exec (.decode desc) s = execDecode desc s := rfl

/-- Settles O7: past its pre-checks each command is the engine run from its seeded message, which is the machine run
from there, as seeding leaves the port empty. -/
theorem commandIsItsSteps : Obligations.CommandIsItsSteps := by
  refine fun s desc hp hr => ⟨fun args hready => ?encode, fun hready => ?decode⟩
  case encode =>
    have hport : (encOpened s desc args).port = [] := hp
    rw [exec_encode, execEncode_ready hready hr]
    exact (core_run_eq_runTurns _ hport).symm
  case decode =>
    have hport : (decOpened s desc).port = [] := hp
    rw [exec_decode, execDecode_ready hready hr]
    exact (core_run_eq_runTurns _ hport).symm

/-! ## The pre-checks of ENCODE, in their order (R230) -/

/-- An error at a cursor reports the cursor as it stands (R440). -/
theorem State.raise_at (s : State) (k : ErrKind) (index : Nat) (cursor : Word) :
    s.raise k index cursor.toNat = { s with
      errKind := k, errIndex := BitVec.ofNat 32 index, errAddr := cursor, response := responded k .none } := by
  simp only [State.raise, State.record, State.respond, BitVec.ofNat_toNat, BitVec.setWidth_eq]

section encode
variable {s : State} {desc : List Entry} {args : List Arg}

theorem execEncode_of_lock (hl : s.lock = true) :
    execEncode desc args s = .next (s.raise .locked 0 s.stop.toNat) := if_pos hl

theorem execEncode_of_empty (hl : s.lock = false) (hempty : desc = [] ∨ args = []) :
    execEncode desc args s = .next (s.raise .invalidOperation 0 s.stop.toNat) := by
  obtain rfl | rfl := hempty <;> simp [execEncode, hl]

theorem execEncode_of_tooMany (hl : s.lock = false) (hdesc : desc ≠ []) (hargs : args ≠ [])
    (hmany : s.params.paramMax < desc.length) :
    execEncode desc args s = .next (s.raise .tooManyParams s.params.paramMax s.stop.toNat) := by
  simp [execEncode, hl, hdesc, hargs, hmany]

end encode

/-- Settles O28: each pre-check that fails raises its kind at STOP. -/
theorem encodePrechecks : Obligations.EncodePrechecks := by
  intro s desc args
  simp only [exec_encode, ← State.raise_at]
  exact ⟨execEncode_of_lock, execEncode_of_empty, execEncode_of_tooMany⟩

/-! ## The pre-checks of DECODE, in their order (R316, R317, R320) -/

/-- A failed pre-check is the first state of its command's trace, which starts empty (R310). -/
theorem decPrecheck_at (s : State) (d : DState) (k : ErrKind) (index : Nat) :
    decPrecheck { s with trace := [] } d k index = .next { s with
      dstate := d, trace := [d], errKind := k, errIndex := BitVec.ofNat 32 index, errAddr := s.start,
      response := responded k .none } :=
  congrArg Host.Outcome.next (State.raise_at _ k index s.start)

section decode
variable {s : State} {desc : List Entry}

theorem execDecode_of_error (he : s.dstate = .error) :
    execDecode desc s = .next (({ s with trace := [] }).respond .invalidOperation .none) := if_pos he

theorem execDecode_of_lock (he : s.dstate ≠ .error) (hl : s.lock = true) :
    execDecode desc s = decPrecheck { s with trace := [] } .locked .locked 0 := by
  simp [execDecode, he, hl]

theorem execDecode_of_empty (he : s.dstate ≠ .error) (hl : s.lock = false) (hempty : desc = []) :
    execDecode desc s = decPrecheck { s with trace := [] } .error .invalidOperation 0 := by
  simp [execDecode, he, hl, hempty]

theorem execDecode_of_tooMany (he : s.dstate ≠ .error) (hl : s.lock = false)
    (hmany : s.params.paramMax < desc.length) (hdesc : desc ≠ []) :
    execDecode desc s = decPrecheck { s with trace := [] } .error .tooManyParams s.params.paramMax := by
  simp [execDecode, he, hl, hdesc, hmany]

theorem execDecode_of_notAdr (he : s.dstate ≠ .error) (hl : s.lock = false) (hdesc : desc ≠ [])
    (hfits : desc.length ≤ s.params.paramMax) (hdmode : s.dmode = true) (hadr : leadsWithAdr desc = false) :
    execDecode desc s = decPrecheck { s with trace := [] } .error .invalidType 0 := by
  simp [execDecode, he, hl, hdesc, Nat.not_lt.2 hfits, hdmode, hadr]

end decode

/-- Settles O32: refused in Error, else each pre-check that fails goes to its state and raises its kind at START. -/
theorem decodePrechecks : Obligations.DecodePrechecks := by
  intro s desc
  simp only [exec_decode, ← decPrecheck_at]
  exact ⟨execDecode_of_error, execDecode_of_lock, execDecode_of_empty, execDecode_of_tooMany, execDecode_of_notAdr⟩

end Sys2Proof.Machine
end

section
/-! PROOFS (30_encoding.md). The fields of command words and entries, each read back from the word it was put in, and
what the decoder makes of them: every well-formed instruction comes back, and which bits mean nothing. -/

namespace Sys2Proof.Machine

open Sys2Proof.Laws

/-! ## The fields of a word (R100, R110, R112) -/

theorem toNat_field (w : Word) (start len : Nat) :
    (w.extractLsb' start len).toNat = w.toNat / 2 ^ start % 2 ^ len := by
  rw [BitVec.extractLsb'_toNat, Nat.shiftRight_eq_div_pow]

theorem imm8Of_commandWord {opc : Nat} (hopc : opc < 256) (imm : Byte) : imm8Of (commandWord opc imm) = imm := by
  have hlow : (BitVec.ofNat 32 opc).extractLsb' 8 8 = 0#8 := by
    apply BitVec.eq_of_toNat_eq
    simp only [toNat_field, BitVec.toNat_ofNat]
    omega
  have hhigh : (imm.setWidth 32 <<< 8).extractLsb' 8 8 = imm := by
    apply BitVec.eq_of_toNat_eq
    simp only [toNat_field, BitVec.toNat_shiftLeft, BitVec.toNat_setWidth, Nat.shiftLeft_eq]
    omega
  rw [imm8Of, commandWord, BitVec.extractLsb'_or, hlow, hhigh, BitVec.zero_or]

theorem qualOf_entryWord {tag qual : Nat} (htag : tag < 256) (hqual : qual < 2 ^ 24) :
    qualOf (entryWord tag qual) = qual := by
  have hlow : (BitVec.ofNat 32 tag).extractLsb' 8 24 = 0#24 := by
    apply BitVec.eq_of_toNat_eq
    simp only [toNat_field, BitVec.toNat_ofNat]
    omega
  have hhigh : (BitVec.ofNat 32 qual <<< 8).extractLsb' 8 24 = BitVec.ofNat 24 qual := by
    apply BitVec.eq_of_toNat_eq
    simp only [toNat_field, BitVec.toNat_shiftLeft, BitVec.toNat_ofNat, Nat.shiftLeft_eq]
    omega
  rw [qualOf, entryWord, BitVec.extractLsb'_or, hlow, hhigh, BitVec.zero_or, BitVec.toNat_ofNat,
    Nat.mod_eq_of_lt hqual]

theorem qualOf_eq_div (e : Entry) : qualOf e = e.toNat / 256 := by
  have hlt := e.isLt
  rw [qualOf, toNat_field]
  omega

/-- OMAX is what an OBJ qualifier holds above its two bits of PW. -/
theorem omaxOf_eq_qual (e : Entry) : omaxOf e = qualOf e / 4 := by
  have hlt := e.isLt
  rw [omaxOf, toNat_field, qualOf_eq_div]
  omega

theorem qualOf_eq_shift (e : Entry) : qualOf e = (e >>> 8).toNat := by
  rw [qualOf_eq_div, BitVec.toNat_ushiftRight, Nat.shiftRight_eq_div_pow]

theorem omaxOf_eq_shift (e : Entry) : omaxOf e = (e >>> 10).toNat := by
  rw [omaxOf_eq_qual, qualOf_eq_div, BitVec.toNat_ushiftRight, Nat.shiftRight_eq_div_pow, Nat.div_div_eq_div_mul]

/-- PW is the low two bits of an OBJ qualifier. -/
theorem pwCode_pwOf (e : Entry) : pwCode (pwOf e) = qualOf e % 4 := by
  have hbits : (e.extractLsb' 8 2).toNat = qualOf e % 4 := by
    rw [toNat_field, qualOf_eq_div]
    omega
  have hlt := Nat.mod_lt (qualOf e) (show 0 < 4 by decide)
  unfold pwOf
  rw [hbits]
  interval_cases qualOf e % 4 <;> rfl

theorem pwCode_injective : Function.Injective pwCode := by
  intro p q
  cases p <;> cases q <;> decide

theorem pwCode_lt (pw : PrefixWidth) : pwCode pw < 4 := by
  cases pw <;> decide

/-- P = 2^PW (R112). -/
theorem bytes_eq_two_pow_pwCode (pw : PrefixWidth) : pw.bytes = 2 ^ pwCode pw := by
  cases pw <;> rfl

/-- An entry is its tag and its qualifier. -/
theorem entry_ext {e e' : Entry} (htag : tagOf e = tagOf e') (hqual : qualOf e = qualOf e') : e = e' := by
  have hsplit (x : Entry) : x.toNat = (tagOf x).toNat + 256 * qualOf x := by
    rw [tagOf, toNat_field, qualOf_eq_div]
    omega
  exact BitVec.eq_of_toNat_eq (by rw [hsplit e, hsplit e', htag, hqual])

section obj
variable {pw : PrefixWidth} {omax : Nat} (h : omax < 2 ^ 22)
include h

theorem qualOf_objWord : qualOf (entryWord 30 (pwCode pw + 4 * omax)) = pwCode pw + 4 * omax := by
  have := pwCode_lt pw
  exact qualOf_entryWord (by decide) (by omega)

theorem pwOf_objWord : pwOf (entryWord 30 (pwCode pw + 4 * omax)) = pw := by
  have := pwCode_lt pw
  refine pwCode_injective ?_
  rw [pwCode_pwOf, qualOf_objWord h]
  omega

theorem omaxOf_objWord : omaxOf (entryWord 30 (pwCode pw + 4 * omax)) = omax := by
  have := pwCode_lt pw
  rw [omaxOf_eq_qual, qualOf_objWord h]
  omega

end obj

/-! ## Decoding what was encoded (R102, R111) -/

/-- Settles O2: the decoder finds the instruction's row by the code in bits 7:0, and its operands in IMM8, in the lanes
or in QUAL, each as the encoder put it there. -/
theorem decodeEncodeAgree : Obligations.DecodeEncodeAgree := by
  intro i hwf
  cases i with
  | nop | encode | decode | bell | ack | setCursors | pop | peek | softReset =>
    simp [encode, plainCommand, decode, decodeCommand, opcOf_commandWord]
  | push | readReg | writeReg =>
    simp [encode, decode, decodeCommand, opcOf_commandWord, imm8Of_commandWord]
  | adr q | str q | st2 q | st4 q | ar1 q | ar2 q | ar4 q | ar8 q | bsc q =>
    have hq : q < 2 ^ 24 := by simpa [Instr.wf] using hwf
    simp [encode, decode, decodeEntry, tagOf_entryWord, qualOf_entryWord _ hq]
  | obj pw omax =>
    have ho : omax < 2 ^ 22 := by simpa [Instr.wf] using hwf
    simp [encode, decode, decodeEntry, tagOf_entryWord, pwOf_objWord ho, omaxOf_objWord ho]
  | _ => simp [encode, decode, decodeEntry, tagOf_entryWord]

/-- Settles O1: the decoder evaluated on each word. -/
theorem specWordsDecode : Obligations.SpecWordsDecode := by
  unfold Obligations.SpecWordsDecode
  decide

/-! ## The bits that mean nothing (R103, R114, R409) -/

/-- The decoder reads a command word through OPC and IMM8, and IMM8 for PUSH, READ_REG and WRITE_REG only (R103). -/
theorem decodeCommand_congr {w w' : Word} (ops : Operands) (hopc : opcOf w = opcOf w')
    (himm : opcOf w = 0x06#8 ∨ opcOf w = 0x09#8 ∨ opcOf w = 0x0A#8 → imm8Of w = imm8Of w') :
    decodeCommand { word := w, lanes := ops } = decodeCommand { word := w', lanes := ops } := by
  by_cases hread : opcOf w = 0x06#8 ∨ opcOf w = 0x09#8 ∨ opcOf w = 0x0A#8
  · simp only [decodeCommand, hopc, himm hread]
  · have hne : (opcOf w').toNat ≠ 6 ∧ (opcOf w').toNat ≠ 9 ∧ (opcOf w').toNat ≠ 10 := by
      simpa [hopc, BitVec.toNat_eq] using hread
    unfold decodeCommand
    simp only [hopc]
    split
    case h_7 | h_10 | h_11 => omega
    all_goals rfl

/-- An opcode of 0x0C..0xFF stands for no command (R103). -/
theorem decodeCommand_of_unknown {c : Issue} (h : 0x0C ≤ (opcOf c.word).toNat) :
    decodeCommand c = .error (.unknownOpcode (opcOf c.word)) := by
  unfold decodeCommand
  split
  case h_13 => rfl
  all_goals omega

/-- Settles O3: the decoder reads OPC and, for three opcodes, IMM8; an opcode outside the map only gets a response. -/
theorem reservedCommandBits : Obligations.ReservedCommandBits := by
  refine ⟨fun w w' ops hopc himm => decodeCommand_congr ops hopc fun _ => himm,
    fun w w' ops hopc hpush hread hwrite => decodeCommand_congr ops hopc fun h => ?_, fun s c rest hm hp h => ?_⟩
  · obtain h | h | h := h
    · exact absurd h hpush
    · exact absurd h hread
    · exact absurd h hwrite
  · simp only [step, hm, hp, takeCommand, decodeCommand_of_unknown h]
    rfl

/-- A tag of 31..255 stands for no entry (R113). -/
theorem decodeEntry_of_reserved {e : Entry} (h : 31 ≤ (tagOf e).toNat) :
    decodeEntry e = .error (.unknownTag (tagOf e)) := by
  unfold decodeEntry
  split
  case h_32 => rfl
  all_goals omega

/-- The tags that have a qualifier: ADR, STR, ST2, ST4, the arrays, BSC and OBJ (R112). -/
abbrev tagQualified (tag : Nat) : Prop := (1 ≤ tag ∧ tag ≤ 4) ∨ (25 ≤ tag ∧ tag ≤ 30)

/-- A tag without a qualifier is all that is read of its entry (R114). -/
theorem decodeEntry_congr {e e' : Entry} (htag : tagOf e = tagOf e') (h : ¬ tagQualified (tagOf e).toNat) :
    decodeEntry e = decodeEntry e' := by
  rw [htag] at h
  unfold decodeEntry
  rw [htag]
  split
  case h_2 | h_3 | h_4 | h_5 | h_26 | h_27 | h_28 | h_29 | h_30 | h_31 => omega
  all_goals rfl

/-- A tag with a qualifier has the whole of it read: OBJ as PW and OMAX, the others as it is. -/
theorem qualOf_eq_of_decodeEntry_eq {e e' : Entry} (htag : tagOf e = tagOf e') (h : tagQualified (tagOf e).toNat)
    (hdec : decodeEntry e = decodeEntry e') : qualOf e = qualOf e' := by
  unfold decodeEntry at hdec
  rw [htag] at h hdec
  by_cases hobj : (tagOf e').toNat = 30
  · rw [hobj] at hdec
    obtain ⟨hpw, homax⟩ : pwOf e = pwOf e' ∧ omaxOf e = omaxOf e' := by simpa using hdec
    have hlow : qualOf e % 4 = qualOf e' % 4 := by rw [← pwCode_pwOf, ← pwCode_pwOf, hpw]
    rw [omaxOf_eq_qual, omaxOf_eq_qual] at homax
    omega
  · obtain ⟨hlo, hhi⟩ | ⟨hlo, hhi⟩ : (1 ≤ (tagOf e').toNat ∧ (tagOf e').toNat ≤ 4) ∨
        (25 ≤ (tagOf e').toNat ∧ (tagOf e').toNat ≤ 29) := by omega
    · interval_cases (tagOf e').toNat <;> simpa using hdec
    · interval_cases (tagOf e').toNat <;> simpa using hdec

/-- Settles O4: an entry is its tag and its qualifier, and the decoder reads the qualifier of just the tags that have
one. -/
theorem entryUnusedBits : Obligations.EntryUnusedBits :=
  fun _ _ htag => ⟨decodeEntry_congr htag, fun h hdec => entry_ext htag (qualOf_eq_of_decodeEntry_eq htag h hdec)⟩

/-! ## Qualifiers (R112) -/

/-- Settles O5: QUAL is the entry's bits 31:8 and OBJ splits it at bit 2 of it; the tags without one read alike by
`decodeEntry_congr`. -/
theorem qualifierAssembly : Obligations.QualifierAssembly := by
  intro e
  refine ⟨fun h => ?_, fun h => ?_, fun h => ?_, fun h => ?_, fun h => ?_, fun h => ?_, fun h => ?_, fun h => ?_,
    fun h => ?_, fun h => ⟨pwOf e, ?_, ?pw⟩, fun h e' htag => ?plain⟩
  case pw =>
    rw [bytes_eq_two_pow_pwCode, pwCode_pwOf, qualOf_eq_shift]
  case plain =>
    refine decodeEntry_congr htag ?_
    rw [htag]
    obtain h | h := h
    · simp [h]
    · omega
  all_goals simp [decodeEntry, h, qualOf_eq_shift, omaxOf_eq_shift]

/-! ## Entries that no arm runs (R113, R115) -/

/-- A failure before the first byte, as the layout states it (R239, R327). -/
theorem Active.fail_here (s : State) (m : Message) (k : ErrKind) :
    Active.fail { st := s, msg := m } k m.i m.cur = entryFailed s m k := by
  unfold entryFailed
  cases hd : m.dir with
  | enc =>
    rw [Active.fail_enc _ _ _ _ hd]
    simp [fieldFailed, State.writeRun, advN, State.raise, State.record, State.respond]
  | dec =>
    rw [Active.fail_dec _ _ _ _ hd]
    simp [readFailed, State.ringBytes, State.enter, State.raise, State.record, State.respond]

theorem step_of_reserved {s : State} {m : Message} {e : Entry} (hm : s.msg = some m) (hnext : m.nextEntry = some e)
    (h : 31 ≤ (tagOf e).toNat) : step s = .next (entryFailed s m .invalidType) := by
  simp only [step, hm, stepMessage, hnext, decodeEntry_of_reserved h, reservedTag, Active.fail_here]

/-- Settles O8: a reserved tag has no arm to run, and a gate that is off fails before its entry's arm. -/
theorem reservedTagRaises : Obligations.ReservedTagRaises := by
  intro s m e hm hr hc hnext
  refine ⟨step_of_reserved hm hnext, fun htag hoff => ?utf16, fun htag hoff => ?utf32⟩
  case utf16 =>
    have hdec : decodeEntry e = .ok (.st2 (qualOf e)) := by simp [decodeEntry, htag]
    rw [step_of_entry hm hnext hdec, ← Active.fail_here]
    change gatedEntry s s.params.featUtf16 _ _ = _
    rw [hoff, gatedEntry_off hm hr hc]
  case utf32 =>
    have hdec : decodeEntry e = .ok (.st4 (qualOf e)) := by simp [decodeEntry, htag]
    rw [step_of_entry hm hnext hdec, ← Active.fail_here]
    change gatedEntry s s.params.featUtf32 _ _ = _
    rw [hoff, gatedEntry_off hm hr hc]

/-- Every entry looks for its message first. -/
theorem withMessage_of_none {s : State} (hm : s.msg = none) (k : Active → Out) :
    withMessage s k = .refused .noMessageOpen := by
  simp [withMessage, hm]

/-- Settles O10: an entry is a BSC or two arms behind a gate, and none of them runs without a message. -/
theorem entryOutsideCommand : Obligations.EntryOutsideCommand := by
  intro s i hi hm
  obtain ⟨n, hbsc⟩ | ⟨on, k, enc, sub, dec, -, -, hleaf⟩ := exec_entry_form hi s
  · rw [hbsc]
    exact withMessage_of_none hm _
  · simp only [hleaf, gatedEntry, leafEntry, withMessage_of_none hm, ite_self]

end Sys2Proof.Machine
end

section
/-! PROOFS (30_encoding.md, support). What an ENCODE's entry writes where it succeeds: each arm's plan writes exactly
the field of the layout (R117), and with room for the field the entry writes and commits it (R231, R233). -/

namespace Sys2Proof.Machine

/-! ## Room for a run of bytes (R151, R233) -/

/-- Writing bytes where there is room for them takes as many off the room. -/
theorem ringSpace_advN {cap s t k : Nat} (hs : s < cap) (h : k ≤ ringSpace cap s t) :
    ringSpace cap s (advN cap k t) = ringSpace cap s t - k := by
  induction k generalizing t with
  | zero => rfl
  | succ k ih =>
    have hstep := ringSpace_adv_right hs (t := t) (by omega)
    rw [advN, ih (by omega), hstep]
    omega

theorem State.start_lt_of_cursorsInRing {s : State} (h : s.cursorsInRing = true) : s.start.toNat < s.params.cap := by
  simp only [State.cursorsInRing, Bool.and_eq_true, decide_eq_true_eq] at h
  exact h.1

theorem State.stop_lt_of_cursorsInRing {s : State} (h : s.cursorsInRing = true) : s.stop.toNat < s.params.cap := by
  simp only [State.cursorsInRing, Bool.and_eq_true, decide_eq_true_eq] at h
  exact h.2

section room
variable {a : Active} (hs : a.st.start.toNat < a.st.params.cap)
include hs

theorem Active.emitBytes_room {bs : List Byte} (h : bs.length ≤ a.room) :
    (a.emitBytes bs).room = a.room - bs.length := by
  simpa [Active.room] using ringSpace_advN hs h

/-- Chunks that fit together are all emitted. -/
theorem emitChunks_all {cs : List (List Byte)} (h : cs.flatten.length ≤ a.room) :
    emitChunks cs a = (true, a.emitBytes cs.flatten) := by
  induction cs generalizing a with
  | nil => rfl
  | cons c cs ih =>
    have hlen : (c :: cs).flatten.length = c.length + cs.flatten.length := by simp
    have hroom := Active.emitBytes_room hs (bs := c) (by omega)
    have hrest := ih (a := a.emitBytes c) (by simpa using hs) (by omega)
    rw [emitChunks, if_neg (by omega), hrest]
    simp [Active.emitBytes_eq, State.writeRun_append, Message.ran_append]

end room

/-! ## Plans that write a field -/

/-- The plan ends in no error, and its chunks make up `bs`. -/
def Plan.Writes (p : Plan) (bs : List Byte) : Prop := p.err = none ∧ p.chunks.flatten = bs

theorem fixedPlan_writes (bs : List Byte) : (fixedPlan bs).Writes bs := ⟨rfl, by simp [fixedPlan]⟩

theorem encNil_writes (a : Arg) : (encNil a).Writes [] := ⟨rfl, rfl⟩

section arms
variable {a : Arg} {bs : List Byte}

theorem encScalar_writes {w : Width} (h : scalarBytes w a = some bs) : (encScalar w a).Writes bs := by
  obtain ⟨v, hv, rfl⟩ := Option.map_eq_some_iff.1 h
  simpa only [encScalar, hv] using fixedPlan_writes _

theorem encVarint_writes {vw : VWidth} {signed : Bool} (h : varintBytes vw signed a = some bs) :
    (encVarint vw signed a).Writes bs := by
  obtain ⟨v, hv, rfl⟩ := Option.map_eq_some_iff.1 h
  simp only [encVarint, hv]
  exact ⟨rfl, by simp [← List.flatMap_def]⟩

theorem encAdr_writes {maxlen : Nat} (h : addressBytes maxlen a = some bs) : (encAdr maxlen a).Writes bs := by
  obtain ⟨addr, haddr, hfits⟩ := Option.bind_eq_some_iff.1 h
  obtain ⟨hle, ⟨⟩⟩ := Option.ite_none_right_eq_some.1 hfits
  simpa only [encAdr, haddr, Nat.not_lt.2 hle, if_false] using fixedPlan_writes _

/-- The zero unit that ends a string is as many zero bytes. -/
theorem le_zero_eq_replicate (u : Nat) : le u 0 = List.replicate u 0#8 := by
  induction u with
  | zero => rfl
  | succ u ih => simp [le, ih, List.replicate_succ]

theorem tstrPlan_writes {u maxlen : Nat} {units : List Nat} (h : stringBytes u maxlen units = some bs) :
    (tstrPlan u maxlen units).Writes bs := by
  obtain ⟨hle, ⟨⟩⟩ := Option.ite_none_right_eq_some.1 h
  refine ⟨if_neg (Nat.not_lt.2 hle), ?_⟩
  have hall : (units ++ [0]).take maxlen = units ++ [0] := List.take_of_length_le (by simpa using hle)
  simp [tstrPlan, hall, List.flatMap_def, le_zero_eq_replicate]

theorem encStr_writes {maxlen : Nat}
    (h : (argBytes a).bind (fun cs => stringBytes 1 maxlen ((untilNul cs).map BitVec.toNat)) = some bs) :
    (encStr maxlen a).Writes bs := by
  obtain ⟨cs, hcs, hstring⟩ := Option.bind_eq_some_iff.1 h
  simpa only [encStr, hcs] using tstrPlan_writes hstring

theorem encUnits_writes {u : UnitWidth} {maxlen : Nat}
    (h : (argUnits u a).bind (fun us => stringBytes u.bytes maxlen ((untilNul us).map BitVec.toNat)) = some bs) :
    (encUnits u maxlen a).Writes bs := by
  obtain ⟨us, hus, hstring⟩ := Option.bind_eq_some_iff.1 h
  simpa only [encUnits, hus] using tstrPlan_writes hstring

theorem encArray_writes {e : Width} {count : Nat} (h : arrayBytes e count a = some bs) :
    (encArray e count a).Writes bs := by
  obtain ⟨es, hes, hfits⟩ := Option.bind_eq_some_iff.1 h
  obtain ⟨rfl, ⟨⟩⟩ := Option.ite_none_right_eq_some.1 hfits
  simpa only [encArray, hes, gt_iff_lt, Nat.lt_irrefl, if_false] using fixedPlan_writes _

theorem encObj_writes {pw : PrefixWidth} {omax : Nat} (h : objectBytes pw omax a = some bs) :
    (encObj pw omax a).Writes bs := by
  obtain ⟨cs, hcs, hfits⟩ := Option.bind_eq_some_iff.1 h
  obtain ⟨⟨hprefix, hmax, hpayload⟩, ⟨⟩⟩ := Option.ite_none_right_eq_some.1 hfits
  simpa only [encObj, hcs, gt_iff_lt, Nat.not_lt.2 hprefix, Nat.not_lt.2 hmax, Nat.not_lt.2 hpayload, if_false]
    using fixedPlan_writes _

end arms

/-! ## Entries that write a field -/

section entries
variable {s : State} {m : Message} {a : Arg} {bs : List Byte}

theorem runPlan_writes {p : Plan} (hp : p.Writes bs) (hs : s.start.toNat < s.params.cap)
    (hroom : bs.length ≤ s.roomAt m.cur) : runPlan { st := s, msg := m } p = fieldWritten s m bs := by
  obtain ⟨herr, rfl⟩ := hp
  have hemit := emitChunks_all (a := { st := s, msg := m }) hs hroom
  simp only [runPlan, hemit, herr, commitField_emitBytes]

variable (ht : EncTurn s m) (hslot : m.slot = some a) (hroom : bs.length ≤ s.roomAt m.cur)
include ht hslot hroom

theorem leafEntry_writes {enc : Arg → Plan} (hw : (enc a).Writes bs) (sub : Option DState)
    (dec : List Byte → Parsed) : leafEntry s enc sub dec = .next (fieldWritten s m bs) := by
  obtain ⟨hm, hd, hr, hc⟩ := ht
  rw [leafEntry_enc hm hr hc hd, withSlot_of_slot hslot,
    runPlan_writes hw (State.start_lt_of_cursorsInRing hr) hroom]

/-- An entry that has a field for its argument, and room for it, writes and commits it (R117, R231). -/
theorem exec_entry_writes {i : Instr} (hfield : fieldBytes s.params i a = some bs) :
    exec i s = .next (fieldWritten s m bs) := by
  have hleaf {enc : Arg → Plan} (hw : (enc a).Writes bs) (sub : Option DState) (dec : List Byte → Parsed) :
      leafEntry s enc sub dec = .next (fieldWritten s m bs) := leafEntry_writes ht hslot hroom hw sub dec
  cases i with
  | nop | encode | decode | bell | ack | setCursors | push | pop | peek | readReg | writeReg | softReset | bsc =>
    cases hfield
  | nil => cases hfield; exact hleaf (encNil_writes a) _ _
  | adr q => exact hleaf (encAdr_writes hfield) _ _
  | str q => exact hleaf (encStr_writes hfield) _ _
  | st2 q =>
    obtain ⟨hon, hunits⟩ := Option.ite_none_right_eq_some.1 hfield
    change gatedEntry s s.params.featUtf16 _ _ = _
    rw [hon, gatedEntry_on]
    exact hleaf (encUnits_writes hunits) _ _
  | st4 q =>
    obtain ⟨hon, hunits⟩ := Option.ite_none_right_eq_some.1 hfield
    change gatedEntry s s.params.featUtf32 _ _ = _
    rw [hon, gatedEntry_on]
    exact hleaf (encUnits_writes hunits) _ _
  | si1 | ui1 | bol | si2 | ui2 | hlf | si4 | ui4 | flt | tms | si8 | ui8 | dbl | tmu =>
    exact hleaf (encScalar_writes hfield) _ _
  | sv2 | uv2 | sv4 | uv4 | sv8 | uv8 => exact hleaf (encVarint_writes hfield) _ _
  | ar1 q | ar2 q | ar4 q | ar8 q => exact hleaf (encArray_writes hfield) _ _
  | obj pw omax => exact hleaf (encObj_writes hfield) _ _

end entries

end Sys2Proof.Machine
end

section
/-! PROOFS (30_encoding.md). ENCODE writes the layout (R116): by induction over the descriptor a range of entries writes
the bytes that `bodyBytes` gives it, an inner message closing with its own trailer, and the level-0 trailer ends the
command (R231, R237, R238). -/

namespace Sys2Proof.Machine

/-! ## A run of writes as a change of BUF alone -/

/-- BUF after a run of writes at successive ring indices from `c` (R159). -/
def memWriteRun (cap : Nat) : Memory → Nat → List Byte → Memory
  | mem, _, [] => mem
  | mem, c, b :: bs => memWriteRun cap (memWrite mem c b) (adv cap c) bs

theorem State.writeRun_eq (s : State) (c : Nat) (bs : List Byte) :
    s.writeRun c bs = { s with buf := memWriteRun s.params.cap s.buf c bs } := by
  induction bs generalizing s c with
  | nil => rfl
  | cons b bs ih => exact ih (s.bufWrite c b) _

theorem memWriteRun_append (cap : Nat) (mem : Memory) (c : Nat) (bs cs : List Byte) :
    memWriteRun cap mem c (bs ++ cs) = memWriteRun cap (memWriteRun cap mem c bs) (advN cap bs.length c) cs := by
  induction bs generalizing mem c with
  | nil => rfl
  | cons b bs ih => exact ih (memWrite mem c b) _

/-! ## Turns in a row -/

/-- At most `k` turns of the engine lead from `s` to `t`. -/
def Reaches (k : Nat) (s t : State) : Prop := ∃ j ≤ k, ∀ n, runTurns (j + n) s = runTurns n t

theorem Reaches.refl (s : State) : Reaches 0 s s := ⟨0, Nat.le_refl 0, fun n => by rw [Nat.zero_add]⟩

theorem Reaches.trans {j k : Nat} {s t u : State} (h : Reaches j s t) (g : Reaches k t u) : Reaches (j + k) s u := by
  obtain ⟨j', hj, hst⟩ := h
  obtain ⟨k', hk, htu⟩ := g
  exact ⟨j' + k', by omega, fun n => by rw [Nat.add_assoc, hst, htu]⟩

theorem Reaches.of_turn {s t : State} {m : Message} (hm : s.msg = some m)
    (h : turn { st := s, msg := m } = .next t) : Reaches 1 s t :=
  ⟨1, Nat.le_refl 1, fun n => by rw [Nat.add_comm, runTurns_succ hm h]⟩

/-- The turn of an entry is the entry's own meaning. -/
theorem Reaches.of_entry {s t : State} {m : Message} {e : Entry} {i : Instr} (hm : s.msg = some m)
    (hnext : m.nextEntry = some e) (hdec : decodeEntry e = .ok i) (h : exec i s = .next t) : Reaches 1 s t :=
  .of_turn hm (by rw [← step_of_message hm, step_of_entry hm hnext hdec, h])

theorem Reaches.mono {j k : Nat} {s t : State} (h : Reaches j s t) (hjk : j ≤ k) : Reaches k s t := by
  obtain ⟨j', hj, hrun⟩ := h
  exact ⟨j', hj.trans hjk, hrun⟩

/-- A message that ends within the turns allowed ends the run. -/
theorem Reaches.runTurns {k n : Nat} {s t : State} (h : Reaches k s t) (hk : k ≤ n) (ht : t.msg = none) :
    runTurns n s = .next t := by
  obtain ⟨j, hj, hrun⟩ := h
  obtain ⟨d, rfl⟩ := Nat.exists_eq_add_of_le (hj.trans hk)
  rw [hrun, runTurns_of_none d ht]

/-! ## A range of entries written and committed -/

/-- A message after its next `k` entries, whose fields and nested messages are `bs`. -/
def Message.past (p : Params) (m : Message) (k : Nat) (bs : List Byte) : Message := { m.ran p bs with i := m.i + k }

/-- The state after an ENCODE has written and committed its next `k` entries: `fieldWritten` for a range. -/
def rangeWritten (s : State) (m : Message) (k : Nat) (bs : List Byte) : State :=
  { s.writeRun m.cur bs with
    stop := BitVec.ofNat 32 (advN s.params.cap bs.length m.cur)
    msg := some (m.past s.params k bs) }

theorem fieldWritten_eq_rangeWritten (s : State) (m : Message) (bs : List Byte) :
    fieldWritten s m bs = rangeWritten s m 1 bs := rfl

section past
variable (p : Params) (m : Message) (k : Nat) (bs : List Byte)
@[simp] theorem Message.past_dir : (m.past p k bs).dir = m.dir := rfl
@[simp] theorem Message.past_desc : (m.past p k bs).desc = m.desc := rfl
@[simp] theorem Message.past_args : (m.past p k bs).args = m.args := rfl
@[simp] theorem Message.past_i : (m.past p k bs).i = m.i + k := rfl
@[simp] theorem Message.past_cur : (m.past p k bs).cur = advN p.cap bs.length m.cur := rfl
@[simp] theorem Message.past_inner_length : (m.past p k bs).inner.length = m.inner.length := by
  simp [Message.past, Message.ran]
@[simp] theorem Message.past_hi : (m.past p k bs).hi = m.hi := by
  cases hin : m.inner <;> simp [Message.hi, Message.past, Message.ran, hin]
end past

/-- An ENCODE's message is open in `s` and everything it has written is committed: STOP is WCUR (R236). -/
structure Committed (s : State) (m : Message) : Prop where
  turn : EncTurn s m
  stop : s.stop = BitVec.ofNat 32 m.cur

section rangeWritten
variable {s : State} {m : Message}

@[simp] theorem rangeWritten_params (k : Nat) (bs : List Byte) : (rangeWritten s m k bs).params = s.params := by
  simp [rangeWritten]

@[simp] theorem rangeWritten_start (k : Nat) (bs : List Byte) : (rangeWritten s m k bs).start = s.start := by
  simp [rangeWritten]

theorem rangeWritten_nil (h : Committed s m) : rangeWritten s m 0 [] = s := by
  obtain ⟨⟨hm, -, -, -⟩, hstop⟩ := h
  have hpast : m.past s.params 0 [] = m := by simp [Message.past]
  simp only [rangeWritten, State.writeRun, hpast, List.length_nil, advN, ← hm, ← hstop]

theorem rangeWritten_append (j k : Nat) (bs cs : List Byte) :
    rangeWritten (rangeWritten s m j bs) (m.past s.params j bs) k cs = rangeWritten s m (j + k) (bs ++ cs) := by
  simp [rangeWritten, State.writeRun_eq, Message.past, Message.ran, memWriteRun_append, advN_add, hashBytes_append,
    Function.comp_def, Nat.add_assoc]

theorem Committed.rangeWritten (h : Committed s m) (k : Nat) (bs : List Byte) :
    Committed (rangeWritten s m k bs) (m.past s.params k bs) := by
  obtain ⟨⟨-, hd, hr, hc⟩, -⟩ := h
  have hcur : advN s.params.cap bs.length m.cur < s.params.cap := advN_lt _ hc
  refine ⟨⟨rfl, hd, ?_, by simpa using hcur⟩, rfl⟩
  have hstop : (Machine.rangeWritten s m k bs).stop.toNat < s.params.cap := ofNat_cursor_lt hcur
  simp [State.cursorsInRing, hstop, State.start_lt_of_cursorsInRing hr]

/-- Room for a range and n bytes more is room for n bytes after the range. -/
theorem Committed.room_left (h : Committed s m) (k : Nat) {n : Nat} {bs : List Byte}
    (hroom : bs.length + n ≤ s.roomAt m.cur) :
    n ≤ (Machine.rangeWritten s m k bs).roomAt (m.past s.params k bs).cur := by
  obtain ⟨⟨-, -, hr, -⟩, -⟩ := h
  simp only [State.roomAt] at hroom
  have hleft := ringSpace_advN (State.start_lt_of_cursorsInRing hr) (t := m.cur) (k := bs.length) (by omega)
  simp only [State.roomAt, rangeWritten_params, rangeWritten_start, Message.past_cur, hleft]
  omega

end rangeWritten

/-! ## Inner messages (R240, R237) -/

/-- A message whose BSC(n) has opened an inner one. -/
def Message.opened (p : Params) (m : Message) (n : Nat) : Message :=
  { m with
    i := m.i + 1
    inner := { hash := p.hashSeed, hi := m.i + 1 + n, index := m.i } :: m.inner }

/-- The state whose BSC(n) has opened an inner message. -/
def innerOpened (s : State) (m : Message) (n : Nat) : State := { s with msg := some (m.opened s.params n) }

section inner
variable {s : State} {m : Message} {n : Nat}

theorem Committed.innerOpened (h : Committed s m) (n : Nat) :
    Committed (innerOpened s m n) (m.opened s.params n) := by
  obtain ⟨⟨-, hd, hr, hc⟩, hstop⟩ := h
  exact ⟨⟨rfl, hd, hr, hc⟩, hstop⟩

/-- A BSC whose checks hold opens its inner message. -/
theorem exec_bsc_opens {a : Arg} (ht : EncTurn s m) (hslot : m.slot = some a) (hn : n ≠ 0)
    (hrange : m.i + 1 + n ≤ m.hi) (hdepth : m.inner.length + 1 ≤ s.params.nestMax) :
    exec (.bsc n) s = .next (innerOpened s m n) := by
  obtain ⟨hm, hd, hr, hc⟩ := ht
  change execBsc n s = _
  rw [execBsc, withMessage_of_msg hm hr hc]
  simp only [hd, withSlot_of_slot (a := { st := s, msg := m }) hslot]
  rw [checkInner, if_neg (by simp only []; omega), if_neg (by simp only []; omega)]
  rfl

/-- At the end of its range an ENCODE's message is closed with its trailer (R237). -/
theorem turn_closeEnc (ht : EncTurn s m) (hend : m.hi ≤ m.i) :
    turn { st := s, msg := m } = .next (Active.closeEnc { st := s, msg := m }) := by
  obtain ⟨-, hd, hr, hc⟩ := ht
  have hnext : m.nextEntry = none := if_neg (by omega)
  simp [turn, hnext, hr, hc, Active.close, hd]

/-- An open level after a run of bytes (R214). -/
def Level.ran (p : Params) (l : Level) (bs : List Byte) : Level := { l with hash := hashBytes p.hashMul l.hash bs }

theorem Message.ran_inner (p : Params) (m : Message) (bs : List Byte) :
    (m.ran p bs).inner = m.inner.map (Level.ran p · bs) := rfl

/-- The two bytes of a message's trailer: its own hash, low byte first (R215). -/
def Message.trailer (m : Message) : List Byte := [trailerLo m.top, trailerHi m.top]

/-- With room for it, an inner message's trailer is written and committed, and folds into the outer messages only
(R214, R237). -/
theorem closeEnc_nested {l : Level} {outer : List Level} (hin : m.inner = l :: outer) (hroom : 2 ≤ s.roomAt m.cur) :
    Active.closeEnc { st := s, msg := m } = { s.writeRun m.cur m.trailer with
      stop := BitVec.ofNat 32 (advN s.params.cap 2 m.cur)
      msg := some { m.ran s.params m.trailer with inner := outer.map (Level.ran s.params · m.trailer) } } := by
  obtain ⟨hfull, -⟩ | ⟨-, ⟨hnil, -⟩ | ⟨l', outer', hin', heq⟩⟩ := closeEnc_cases { st := s, msg := m }
  · exact absurd hroom (Nat.not_le.2 hfull)
  · simp [hin] at hnil
  · rw [heq]
    simp [Active.pop, Active.commitStop, Active.keep, Active.emitTrailer, Message.foldTrailer, Message.advance, hin,
      Message.ran, Level.ran, Level.fold, Message.trailer, State.writeRun, advN, Function.comp_def]

/-- With room for it, the level-0 trailer is written and committed and ends the command, with the body's hash in HASH
(R237, R238). -/
theorem closeEnc_outermost (hin : m.inner = []) (hroom : 2 ≤ s.roomAt m.cur) :
    Active.closeEnc { st := s, msg := m } = { s.writeRun m.cur m.trailer with
      stop := BitVec.ofNat 32 (advN s.params.cap 2 m.cur), hash := m.hash0, errKind := .none, errIndex := 0,
      errAddr := 0, response := responded .none .none, msg := none } := by
  obtain ⟨hfull, -⟩ | ⟨-, ⟨-, heq⟩ | ⟨l', outer', hin', -⟩⟩ := closeEnc_cases { st := s, msg := m }
  · exact absurd hroom (Nat.not_le.2 hfull)
  · rw [heq]
    simp [Active.finishEnc, Active.commitStop, Active.emitTrailer, Message.foldTrailer, Message.advance, hin,
      Message.trailer, State.writeRun, advN, State.complete, State.record, State.respond]
  · simp [hin] at hin'

/-- A BSC's entry, its inner entries and its trailer are together a range: after them the outer messages have folded the
inner body and its trailer, and the next entry is the one after the inner range (R214, R240). -/
theorem closeEnc_inner {bs : List Byte}
    (hroom : 2 ≤ (rangeWritten (innerOpened s m n) (m.opened s.params n) n bs).roomAt
      ((m.opened s.params n).past s.params n bs).cur) :
    Active.closeEnc { st := rangeWritten (innerOpened s m n) (m.opened s.params n) n bs
                      msg := (m.opened s.params n).past s.params n bs } =
      rangeWritten s m (n + 1) (bs ++ trailerOf s.params bs) := by
  rw [closeEnc_nested rfl hroom]
  have htrailer : ((m.opened s.params n).past s.params n bs).trailer = trailerOf s.params bs := rfl
  have hlen : (trailerOf s.params bs).length = 2 := rfl
  rw [htrailer]
  simp [rangeWritten, innerOpened, State.writeRun_eq, memWriteRun_append, Message.opened, Message.past, Message.ran,
    Level.ran, hlen, advN_add, hashBytes_append, Function.comp_def, Nat.add_assoc, Nat.add_comm 1]

end inner

/-! ## The layout's body, entry by entry (R116, R117) -/

@[simp] theorem bodyBytes_nil (p : Params) (fuel depth : Nat) (as : List Arg) :
    bodyBytes p fuel depth [] as = some [] := by
  cases fuel <;> rw [bodyBytes]

/-- The body of a range is that of its first entry, a nested message with its trailer or a field, and then the rest. -/
theorem bodyBytes_cons {p : Params} {fuel depth : Nat} {e : Entry} {es : List Entry} {as : List Arg} {body : List Byte}
    (h : bodyBytes p fuel depth (e :: es) as = some body) :
    ∃ fuel' a as', fuel = fuel' + 1 ∧ as = a :: as' ∧
      ((∃ n inner rest, decodeEntry e = .ok (.bsc n) ∧ n ≠ 0 ∧ n ≤ es.length ∧ depth + 1 ≤ p.nestMax ∧
          bodyBytes p fuel' (depth + 1) (es.take n) (as'.take n) = some inner ∧
          bodyBytes p fuel' depth (es.drop n) (as'.drop n) = some rest ∧
          body = inner ++ trailerOf p inner ++ rest) ∨
        (∃ i field rest, decodeEntry e = .ok i ∧ fieldBytes p i a = some field ∧
          bodyBytes p fuel' depth es as' = some rest ∧ body = field ++ rest)) := by
  cases fuel with
  | zero => simp [bodyBytes] at h
  | succ fuel' =>
    cases as with
    | nil => simp [bodyBytes] at h
    | cons a as' =>
      refine ⟨fuel', a, as', rfl, rfl, ?_⟩
      rw [bodyBytes] at h
      split at h
      next => cases h
      next n hdec =>
        obtain ⟨hchecks, hbody⟩ := Option.ite_none_left_eq_some.1 h
        split at hbody
        next inner rest hinner hrest =>
          cases hbody
          exact .inl ⟨n, inner, rest, hdec, by omega, by omega, by omega, hinner, hrest, rfl⟩
        next => cases hbody
      next i _ hdec =>
        split at h
        next field rest hfield hrest =>
          cases h
          exact .inr ⟨i, field, rest, hdec, hfield, hrest, rfl⟩
        next => cases h

/-! ## Ranges write their bodies -/

/-- What begins with `x` at position `i` has `x` there and the rest after it. -/
theorem getElem?_of_cons_prefix {α : Type} {x : α} {l L : List α} {i : Nat} (h : x :: l <+: L.drop i) :
    L[i]? = some x ∧ l <+: L.drop (i + 1) := by
  obtain ⟨rest, hrest⟩ := h
  have hhead : (L.drop i)[0]? = some x := by simp [← hrest]
  have htail : (L.drop i).drop 1 = l ++ rest := by simp [← hrest]
  rw [List.getElem?_drop, Nat.add_zero] at hhead
  rw [List.drop_drop] at htail
  exact ⟨hhead, rest, htail.symm⟩

/-- The entries `es` are what is left of the range `m` is in, and `as` are slots for them. -/
structure Message.Ahead (m : Message) (es : List Entry) (as : List Arg) : Prop where
  entries : es <+: m.desc.drop m.i
  range : m.i + es.length = m.hi
  slots : as <+: m.args.drop m.i

section ahead
variable {m : Message} {e : Entry} {es : List Entry} {a : Arg} {as : List Arg}

theorem Message.Ahead.nextEntry (h : m.Ahead (e :: es) as) : m.nextEntry = some e := by
  obtain ⟨hget, -⟩ := getElem?_of_cons_prefix h.entries
  have hrange : m.i + (es.length + 1) = m.hi := h.range
  rw [Message.nextEntry, if_pos (by omega), hget]

theorem Message.Ahead.slot (h : m.Ahead es (a :: as)) : m.slot = some a := (getElem?_of_cons_prefix h.slots).1

theorem Message.Ahead.past (h : m.Ahead es as) (p : Params) {n : Nat} (hn : n ≤ es.length) (bs : List Byte) :
    (m.past p n bs).Ahead (es.drop n) (as.drop n) where
  entries := by simpa [List.drop_drop] using h.entries.drop n
  range := by
    have hrange := h.range
    simp only [Message.past_i, Message.past_hi, List.length_drop]
    omega
  slots := by simpa [List.drop_drop] using h.slots.drop n

/-- The next n entries are the range of the inner message that BSC(n) opens (R240). -/
theorem Message.Ahead.opened (h : m.Ahead (e :: es) (a :: as)) (p : Params) {n : Nat} (hn : n ≤ es.length) :
    (m.opened p n).Ahead (es.take n) (as.take n) where
  entries := (List.take_prefix n es).trans (getElem?_of_cons_prefix h.entries).2
  range := by
    rw [List.length_take, Nat.min_eq_left hn]
    rfl
  slots := (List.take_prefix n as).trans (getElem?_of_cons_prefix h.slots).2

end ahead

section range
variable {s : State} {m : Message} {e : Entry} {es : List Entry} {a : Arg} {as : List Arg}

/-- An entry with a field, as a range of one. -/
theorem reaches_field {i : Instr} {field : List Byte} (hc : Committed s m) (ha : m.Ahead (e :: es) (a :: as))
    (hdec : decodeEntry e = .ok i) (hfield : fieldBytes s.params i a = some field)
    (hroom : field.length ≤ s.roomAt m.cur) : Reaches (2 * 1) s (rangeWritten s m 1 field) := by
  obtain ⟨hm, -⟩ := hc.turn
  have hturn : Reaches 1 s (fieldWritten s m field) :=
    .of_entry hm ha.nextEntry hdec (exec_entry_writes hc.turn ha.slot hroom hfield)
  exact hturn.mono (by decide)

/-- A BSC whose inner range is written, as a range of its own entry and the inner ones: one turn opens it and one writes
its trailer. -/
theorem reaches_bsc {n : Nat} {inner : List Byte} (hc : Committed s m) (ha : m.Ahead (e :: es) (a :: as))
    (hdec : decodeEntry e = .ok (.bsc n)) (hn : n ≠ 0) (hes : n ≤ es.length)
    (hdepth : m.inner.length + 1 ≤ s.params.nestMax) (hroom : inner.length + 2 ≤ s.roomAt m.cur)
    (hinner : Reaches (2 * n) (innerOpened s m n)
      (rangeWritten (innerOpened s m n) (m.opened s.params n) n inner)) :
    Reaches (2 * (n + 1)) s (rangeWritten s m (n + 1) (inner ++ trailerOf s.params inner)) := by
  obtain ⟨hm, -⟩ := hc.turn
  have hrange : m.i + (es.length + 1) = m.hi := ha.range
  have hopen : Reaches 1 s (innerOpened s m n) :=
    .of_entry hm ha.nextEntry hdec (exec_bsc_opens hc.turn ha.slot hn (by omega) hdepth)
  have hwritten := (hc.innerOpened n).rangeWritten n inner
  have htrailer := (hc.innerOpened n).room_left n hroom
  have hclose : Reaches 1 (rangeWritten (innerOpened s m n) (m.opened s.params n) n inner)
      (rangeWritten s m (n + 1) (inner ++ trailerOf s.params inner)) := by
    have hend : ((m.opened s.params n).past s.params n inner).hi ≤ ((m.opened s.params n).past s.params n inner).i :=
      (Message.past_hi ..).le
    exact .of_turn rfl ((turn_closeEnc hwritten.turn hend).trans (congrArg _ (closeEnc_inner htrailer)))
  have hall := (hopen.trans hinner).trans hclose
  rwa [show 1 + 2 * n + 1 = 2 * (n + 1) by omega] at hall

theorem reaches_nil {fuel : Nat} {body : List Byte} (hc : Committed s m)
    (hbody : bodyBytes s.params fuel m.inner.length [] as = some body) : Reaches 0 s (rangeWritten s m 0 body) := by
  obtain rfl : [] = body := by simpa using hbody
  exact (rangeWritten_nil hc).symm ▸ Reaches.refl s

/-- The range ahead writes its body (R116, R117, R231, R240). -/
theorem reaches_rangeWritten {fuel : Nat} {body : List Byte} (hc : Committed s m) (ha : m.Ahead es as)
    (hbody : bodyBytes s.params fuel m.inner.length es as = some body) (hroom : body.length ≤ s.roomAt m.cur) :
    Reaches (2 * es.length) s (rangeWritten s m es.length body) := by
  induction fuel generalizing s m es as body with
  | zero =>
    cases es with
    | nil => exact reaches_nil hc hbody
    | cons e es =>
      obtain ⟨fuel', -, -, hfuel, -⟩ := bodyBytes_cons hbody
      cases hfuel
  | succ fuel ih =>
    have hrest {k : Nat} {bs rest : List Byte} (hfirst : Reaches (2 * k) s (rangeWritten s m k bs))
        (hk : k ≤ es.length) (hbody : bodyBytes s.params fuel m.inner.length (es.drop k) (as.drop k) = some rest)
        (hroom : bs.length + rest.length ≤ s.roomAt m.cur) :
        Reaches (2 * es.length) s (rangeWritten s m es.length (bs ++ rest)) := by
      have hsecond := ih (hc.rangeWritten k bs) (ha.past s.params hk bs) (by simpa using hbody) (hc.room_left k hroom)
      have hboth := hfirst.trans hsecond
      rwa [rangeWritten_append, ← Nat.mul_add, List.length_drop, Nat.add_sub_cancel' hk] at hboth
    cases es with
    | nil => exact reaches_nil hc hbody
    | cons e es =>
      obtain ⟨_, a, as, ⟨⟩, rfl, hcases⟩ := bodyBytes_cons hbody
      obtain ⟨n, inner, rest, hdec, hn, hes, hdepth, hinner, hafter, rfl⟩ |
        ⟨i, field, rest, hdec, hfield, hafter, rfl⟩ := hcases
      · have hlen : (trailerOf s.params inner).length = 2 := rfl
        simp only [List.length_append, hlen] at hroom
        have hbsc := ih (hc.innerOpened n) (ha.opened s.params hes) hinner (by change _ ≤ s.roomAt m.cur; omega)
        rw [List.length_take, Nat.min_eq_left hes] at hbsc
        exact hrest (reaches_bsc hc ha hdec hn hes hdepth (by omega) hbsc) (Nat.succ_le_succ hes) hafter
          (by rw [List.length_append]; omega)
      · simp only [List.length_append] at hroom
        exact hrest (reaches_field hc ha hdec hfield (by omega)) (Nat.succ_le_succ (Nat.zero_le _)) hafter hroom

end range

/-! ## ENCODE as a whole (R230, R238) -/

section encode
variable {s : State} {desc : List Entry} {args : List Arg} {body : List Byte}

theorem encOpened_committed (hr : s.cursorsInRing = true) :
    Committed (encOpened s desc args) (encMessage s desc args) :=
  ⟨⟨rfl, rfl, hr, State.stop_lt_of_cursorsInRing hr⟩, by simp [encOpened, encMessage]⟩

/-- A seeded message has its whole descriptor ahead. -/
theorem encMessage_ahead (s : State) (desc : List Entry) (args : List Arg) :
    (encMessage s desc args).Ahead desc args where
  entries := List.prefix_refl desc
  range := Nat.zero_add _
  slots := List.prefix_refl args

/-- The state of an ENCODE that has written its message. -/
def messageWritten (s : State) (body : List Byte) : State :=
  { s.writeRun s.stop.toNat (body ++ trailerOf s.params body) with
    stop := BitVec.ofNat 32 (advN s.params.cap (body.length + 2) s.stop.toNat)
    hash := hashBytes s.params.hashMul s.params.hashSeed body
    errKind := .none, errIndex := 0, errAddr := 0, response := responded .none .none }

/-- The level-0 trailer makes the body written the message written. -/
theorem closeEnc_message (hm : s.msg = none)
    (hroom : 2 ≤ (rangeWritten (encOpened s desc args) (encMessage s desc args) desc.length body).roomAt
      ((encMessage s desc args).past s.params desc.length body).cur) :
    Active.closeEnc { st := rangeWritten (encOpened s desc args) (encMessage s desc args) desc.length body
                      msg := (encMessage s desc args).past s.params desc.length body } = messageWritten s body := by
  rw [closeEnc_outermost rfl hroom]
  have htrailer : ((encMessage s desc args).past s.params desc.length body).trailer = trailerOf s.params body := rfl
  rw [htrailer]
  simp [messageWritten, rangeWritten, encOpened, encMessage, State.writeRun_eq, memWriteRun_append, Message.past,
    advN_add, hm]

/-- An ENCODE that passes its pre-checks, and whose message has a layout and fits, writes that message. -/
theorem exec_encode_writes (hr : s.cursorsInRing = true) (hm : s.msg = none) (hready : encReady s desc args)
    (hbody : messageBody s.params desc args = some body) (hfits : body.length + 2 ≤ s.space) :
    exec (.encode desc args) s = .next (messageWritten s body) := by
  have hopen : Committed (encOpened s desc args) (encMessage s desc args) := encOpened_committed hr
  have hroom : body.length + 2 ≤ (encOpened s desc args).roomAt (encMessage s desc args).cur := hfits
  have hrange := reaches_rangeWritten hopen (encMessage_ahead s desc args) hbody (by omega)
  have hwritten := hopen.rangeWritten desc.length body
  have hend : ((encMessage s desc args).past s.params desc.length body).hi ≤
      ((encMessage s desc args).past s.params desc.length body).i :=
    (Message.past_hi ..).le.trans (Nat.le_add_left desc.length 0)
  have hclose : Reaches 1 (rangeWritten (encOpened s desc args) (encMessage s desc args) desc.length body)
      (messageWritten s body) :=
    .of_turn rfl ((turn_closeEnc hwritten.turn hend).trans
      (congrArg _ (closeEnc_message hm (hopen.room_left desc.length hroom))))
  have hdone : (messageWritten s body).msg = none := by simp [messageWritten, hm]
  rw [exec_encode, execEncode_ready hready hr]
  exact (hrange.trans hclose).runTurns (Nat.le_refl _) hdone

end encode

/-- Settles O29: the state `exec_encode_writes` gives is the statement's, field by field. -/
theorem encodeWritesMessage : Obligations.EncodeWritesMessage :=
  fun _ _ _ _ hr hm hready hbody hfits => exec_encode_writes hr hm hready hbody hfits

end Sys2Proof.Machine
end

section
/-! PROOFS (30_encoding.md). The pseudo-instructions RETRY, DISCARD and CONNECT as their expansions (R121, R393), and
that a run of writes is read back from the ring. -/

namespace Sys2Proof.Machine

/-! ## A run read back (R159) -/

/-- Up to once around the ring, k steps come to the index k on, or to that less CAP. -/
theorem advN_of_le {cap k c : Nat} (hc : c < cap) (hk : k ≤ cap) :
    advN cap k c = if c + k < cap then c + k else c + k - cap := by
  induction k generalizing c with
  | zero => simp [advN, hc]
  | succ k ih =>
    rw [advN, ih (adv_lt hc) (by omega)]
    unfold adv
    split_ifs <;> omega

theorem advN_succ_ne_self {cap k c : Nat} (hc : c < cap) (hk : k + 1 < cap) : advN cap k (adv cap c) ≠ c := by
  change advN cap (k + 1) c ≠ c
  rw [advN_of_le hc (by omega)]
  split_ifs <;> omega

/-- A run no longer than the ring does not overwrite itself. -/
theorem State.ringBytes_writeRun {s : State} {c : Nat} {bs : List Byte} (hc : c < s.params.cap)
    (hlen : bs.length ≤ s.params.cap) : (s.writeRun c bs).ringBytes bs.length c = bs := by
  induction bs generalizing s c with
  | nil => rfl
  | cons b bs ih =>
    rw [List.length_cons] at hlen
    have hhead : ((s.bufWrite c b).writeRun (adv s.params.cap c) bs).bufRead c = b := by
      have hmissed : ∀ k < bs.length, c ≠ advN s.params.cap k (adv s.params.cap c) :=
        fun k hk => (advN_succ_ne_self hc (by omega)).symm
      rw [State.bufRead_writeRun_other (s := s.bufWrite c b) hmissed, State.bufRead_bufWrite_same]
    have htail := ih (s := s.bufWrite c b) (adv_lt hc) (Nat.le_of_succ_le hlen)
    simp only [State.writeRun, List.length_cons, State.ringBytes, State.writeRun_params, State.bufWrite_params, hhead]
    exact congrArg _ htail

/-! ## RETRY and DISCARD (R121) -/

theorem execAll_cons {i : Instr} {s t : State} (is : List Instr) (h : exec i s = .next t) :
    execAll (i :: is) s = execAll is t := by
  simp only [execAll, h]

theorem exec_readReg {s : State} {r : Byte} {v : Word} (h : regValue s r = some v) :
    exec (.readReg r) s = .next (s.respond .none (.word v)) := by
  change execReadReg r s = _
  simp only [execReadReg, h]

/-- The state a SET_CURSORS of cursors in the ring answers (R402). -/
def cursorsLoaded (s : State) (sv tv : Word) : State :=
  ({ s with start := sv, stop := tv, dstate := initialState s.dmode }).complete .none

theorem exec_setCursors {s : State} {sv tv : Word} (hs : sv.toNat < s.params.cap) (ht : tv.toNat < s.params.cap) :
    exec (.setCursors sv tv) s = .next (cursorsLoaded s sv tv) := by
  obtain ⟨hout, -⟩ | ⟨-, -, heq⟩ := execSetCursors_cases sv tv s
  · omega
  · exact heq

section pseudo
variable {s : State} (hr : s.cursorsInRing = true)
include hr

theorem execAll_retry : execAll (retry s) s = .next (cursorsLoaded
    ((s.respond .none (.word s.start)).respond .none (.word s.stop)) s.start s.stop) := by
  have hstart := State.start_lt_of_cursorsInRing hr
  have hstop := State.stop_lt_of_cursorsInRing hr
  rw [retry, execAll_cons _ (exec_readReg (v := s.start) rfl), execAll_cons _ (exec_readReg (v := s.stop) rfl)]
  exact execAll_cons [] (exec_setCursors hstart hstop)

theorem execAll_discard : execAll (discard s) s = .next (cursorsLoaded
    (s.respond .none (.word s.stop)) s.stop s.stop) := by
  have hstop := State.stop_lt_of_cursorsInRing hr
  rw [discard, execAll_cons _ (exec_readReg (v := s.stop) rfl)]
  exact execAll_cons [] (exec_setCursors hstop hstop)

end pseudo

/-! ## CONNECT (R393) -/

/-- What CONNECT's ENCODE writes before its trailer: the padded address and the byte 7. -/
def connectBody (addr : List Byte) (m : Nat) : List Byte := padTo m (untilNul addr) ++ [7#8]

theorem decodeEntry_adrWord {q : Nat} (h : q < 2 ^ 24) : decodeEntry (entryWord 1 q) = .ok (.adr q) :=
  decodeEncodeAgree (.adr q) (by simpa [Instr.wf] using h)

theorem addressBytes_of_le {maxlen : Nat} {bs : List Byte} (h : (untilNul bs).length ≤ maxlen) :
    addressBytes maxlen (.data (.bytes bs)) = some (padTo maxlen (untilNul bs)) := if_pos h

section connect
variable {addr : List Byte} {m : Nat} (haddr : (untilNul addr).length ≤ m)
include haddr

theorem connectBody_length : (connectBody addr m).length = m + 1 := by
  simp [connectBody, padTo_length haddr]

theorem connect_messageBody (p : Params) (hm : m < 2 ^ 24) :
    messageBody p [entryWord 1 m, entryWord 1 1] [.data (.bytes addr), .data (.bytes [7#8])] =
      some (connectBody addr m) := by
  have hsignal : addressBytes 1 (.data (.bytes [7#8])) = some [7#8] := by decide
  simp [messageBody, bodyBytes, decodeEntry_adrWord hm, decodeEntry_adrWord (q := 1) (by decide), fieldBytes,
    addressBytes_of_le haddr, hsignal, connectBody]

end connect

/-- A message written is read back at the old STOP. -/
theorem messageWritten_ringBytes {s : State} {body : List Byte} (hr : s.cursorsInRing = true)
    (hfits : body.length + 2 ≤ s.space) :
    (messageWritten s body).ringBytes (body.length + 2) s.stop.toNat = body ++ trailerOf s.params body := by
  have hlen : (body ++ trailerOf s.params body).length = body.length + 2 := by
    rw [List.length_append]
    rfl
  have hcap : s.space ≤ s.params.cap := by
    simp only [State.space, ringSpace]
    omega
  have hread := State.ringBytes_writeRun (State.stop_lt_of_cursorsInRing hr)
    (bs := body ++ trailerOf s.params body) (by omega)
  rw [hlen] at hread
  rw [← hread]
  exact State.ringBytes_congr (s := s.writeRun s.stop.toNat (body ++ trailerOf s.params body))
    (t := messageWritten s body) rfl rfl _ _

/-- Settles O55: RETRY and DISCARD load cursors that are in the ring, and CONNECT is an ENCODE that writes its message
(`exec_encode_writes`). -/
theorem pseudoInstructions : Obligations.PseudoInstructions := by
  refine ⟨fun s hr => ⟨?retry, ?discard⟩, fun s addr m hr hm hl hmax hq haddr hspace => ?connect⟩
  case retry => exact ⟨_, execAll_retry hr, rfl, rfl, rfl, rfl, rfl⟩
  case discard => exact ⟨_, execAll_discard hr, ringLen_self _ _, rfl, rfl, rfl, rfl⟩
  case connect =>
    have hlen : (connectBody addr m).length + 2 = m + 3 := by rw [connectBody_length haddr]
    have hready : encReady s [entryWord 1 m, entryWord 1 1] [.data (.bytes addr), .data (.bytes [7#8])] :=
      ⟨hl, List.cons_ne_nil _ _, List.cons_ne_nil _ _, hmax⟩
    have hread := messageWritten_ringBytes hr (hlen.trans_le hspace)
    rw [hlen] at hread
    have hexec := exec_encode_writes hr hm hready (connect_messageBody haddr s.params hq) (hlen.trans_le hspace)
    exact ⟨_, hexec, rfl, hread⟩

end Sys2Proof.Machine
end

section
/-! PROOFS (40_ringbuffer.md). The ring's cursor arithmetic: the occupied length as a circular distance (R150, R153,
R154), and runs of bytes that wrap (R152, R159). -/

namespace Sys2Proof.Machine

/-! ## Length and space (R150 to R154) -/

theorem ringLen_eq_zero_iff {cap s t : Nat} (hs : s < cap) : ringLen cap s t = 0 ↔ s = t := by
  unfold ringLen
  split <;> omega

section guarantee
variable {cap s t : Nat} (hs : s < cap) (ht : t < cap)
include hs ht

/-- The occupied length is the circular distance from START to STOP (R150). -/
theorem ringLen_eq_emod : (ringLen cap s t : Int) = ((t : Int) - s) % cap := by
  unfold ringLen
  split
  case isTrue hle => rw [Int.emod_eq_of_lt (by omega) (by omega), Nat.cast_sub hle]
  case isFalse hgt =>
    rw [← Int.add_emod_right, Int.emod_eq_of_lt (by omega) (by omega)]
    omega

theorem ringSpace_add_ringLen : ringSpace cap s t + ringLen cap s t = cap - 1 := by
  have hlen := ringLen_lt hs ht
  unfold ringSpace
  omega

/-- One more byte would make STOP meet START exactly when CAP - 1 bytes are held (R154). -/
theorem adv_eq_iff_ringLen : adv cap t = s ↔ ringLen cap s t = cap - 1 := by
  unfold adv ringLen
  split_ifs <;> omega

theorem adv_eq_iff_ringSpace : adv cap t = s ↔ ringSpace cap s t = 0 := by
  have hsum := ringSpace_add_ringLen hs ht
  rw [adv_eq_iff_ringLen hs ht]
  omega

end guarantee

/-- Settles O36: the full and empty cases are the lengths CAP - 1 and 0, which differ once CAP is 2 or more. -/
theorem ringGuarantee : Obligations.RingGuarantee := by
  intro cap s t hs ht
  have hzero := ringLen_eq_zero_iff (t := t) hs
  have hfull := adv_eq_iff_ringLen hs ht
  have hlen := ringLen_lt hs ht
  refine ⟨ringLen_eq_emod hs ht, ringSpace_add_ringLen hs ht, hzero, adv_eq_iff_ringSpace hs ht, hfull, ?notEmpty, ?two⟩
  case notEmpty =>
    intro hcap hmeet heq
    have hheld := hfull.1 hmeet
    have hnone := hzero.2 heq
    omega
  case two => omega

/-! ## Runs of bytes (R152, R159) -/

theorem adv_eq_mod {cap c : Nat} (hc : c < cap) : adv cap c = (c + 1) % cap := by
  unfold adv
  split
  case isTrue hend => rw [hend, Nat.mod_self]
  case isFalse hin => rw [Nat.mod_eq_of_lt (by omega)]

/-- However often a run goes around the ring, its k-th index is `(c + k) mod CAP` (R159). -/
theorem advN_eq_mod {cap c : Nat} (k : Nat) (hc : c < cap) : advN cap k c = (c + k) % cap := by
  induction k generalizing c with
  | zero => exact (Nat.mod_eq_of_lt hc).symm
  | succ k ih => rw [advN, ih (adv_lt hc), adv_eq_mod hc, Nat.mod_add_mod, Nat.add_assoc, Nat.add_comm 1]

/-- Byte k of a run of reads is the byte k steps on. -/
theorem State.ringBytes_getElem (s : State) {n k : Nat} (c : Nat) (hk : k < (s.ringBytes n c).length) :
    (s.ringBytes n c)[k] = s.bufRead (advN s.params.cap k c) := by
  induction n generalizing c k with
  | zero => simp [State.ringBytes] at hk
  | succ n ih =>
    cases k with
    | zero => rfl
    | succ k => exact ih (adv s.params.cap c) (Nat.lt_of_succ_lt_succ hk)

/-- Settles O37: the run is read back as it was written (`State.ringBytes_writeRun`), which says where each of its
bytes lies. -/
theorem runsWrap : Obligations.RunsWrap := by
  intro s c bs hc hlen
  have hread := State.ringBytes_writeRun hc hlen
  refine ⟨fun k hk => ?lands, fun d hd => ?missed, hread, advN_eq_mod _ hc⟩
  case lands =>
    have hbyte := (s.writeRun c bs).ringBytes_getElem c (n := bs.length) (k := k) (by simpa using hk)
    rw [State.writeRun_params, advN_eq_mod k hc] at hbyte
    rw [← hbyte]
    exact List.getElem_of_eq hread _
  case missed =>
    refine State.bufRead_writeRun_other fun k hk => ?_
    rw [advN_eq_mod k hc]
    exact hd k hk

end Sys2Proof.Machine
end

section
/-! PROOFS (40_ringbuffer.md). ENCODE's frame (R155, R230, R233, R313): every turn of the engine writes a run of bytes
for which there was room, so that together they stay in the free space, and the turns allowed end the message. -/

namespace Sys2Proof.Machine

/-! ## A message's turns run out (R231, R323) -/

/-- A turn that leaves the message open takes at least one off the turns it can still take. -/
theorem TurnTo.turnsLeft_lt {a : Active} {t : State} {m : Message} (h : TurnTo a t) (hm : t.msg = some m) :
    m.turnsLeft < a.msg.turnsLeft := by
  cases h with
  | encFailed | decFailed | decMismatched => simp at hm
  | encFinished | decFinished => cases hm
  | encWrote bs _ hi =>
    cases hm
    exact (Message.turnsLeft_next_lt (by simpa using hi) _ _ (Nat.le_succ _)).trans_eq (a.emitBytes_turnsLeft bs)
  | decRead sub n v _ hi =>
    cases hm
    have hread : (Active.consumeN n (enterSub a sub)).msg.turnsLeft = a.msg.turnsLeft := by
      rw [Active.consumeN_turnsLeft, enterSub_msg]
    exact (Message.turnsLeft_next_lt (by simpa using hi) _ _ (Nat.le_succ _)).trans_eq hread
  | encClosed lo hi _ hin =>
    cases hm
    have hleft := Message.turnsLeft_tail_lt (m := ((a.emitTrailer lo).emitTrailer hi).msg)
      (Message.inner_ne_nil_congr (by simp) hin)
    rwa [Active.emitTrailer_turnsLeft, Active.emitTrailer_turnsLeft] at hleft
  | decClosed _ hin =>
    cases hm
    have hleft := Message.turnsLeft_tail_lt (m := (a.enter .hash).consumeTrailer.consumeTrailer.msg)
      (Message.inner_ne_nil_congr (by simp) hin)
    rwa [Active.consumeTrailer_turnsLeft, Active.consumeTrailer_turnsLeft, Active.enter_msg] at hleft
  | opened n hi =>
    cases hm
    exact Message.turnsLeft_next_lt hi a.msg.vals _ (Nat.le_refl _)

/-- As many turns as a message can take end it, whatever state they start in. -/
theorem runTurns_ends {n : Nat} {s t : State} (hleft : ∀ m, s.msg = some m → m.turnsLeft ≤ n)
    (h : runTurns n s = .next t) : t.msg = none := by
  induction n generalizing s with
  | zero =>
    cases h
    exact Option.eq_none_iff_forall_ne_some.2 fun m hm => Nat.not_succ_le_zero _ (hleft m hm)
  | succ n ih =>
    cases hm : s.msg with
    | none =>
      rw [runTurns_of_none _ hm] at h
      cases h
      exact hm
    | some m =>
      cases hturn : turn { st := s, msg := m } with
      | next u =>
        rw [runTurns_succ hm hturn] at h
        refine ih (fun m' hm' => ?_) h
        exact Nat.le_of_lt_succ (((turn_turnTo hm hturn).turnsLeft_lt hm').trans_le (hleft m hm))
      | fault r | refused r => simp [runTurns, hm, hturn] at h

/-! ## An ENCODE's turn writes where there is room (R155, R233) -/

/-- From `a` to `t` a run of bytes has been written at the private cursor, for which there was room, and where the
message is still open its cursor is past them. -/
def WritesInRoom (a : Active) (t : State) : Prop :=
  ∃ bs : List Byte, bs.length ≤ a.room ∧ t.buf = memWriteRun a.st.params.cap a.st.buf a.msg.cur bs ∧
    ∀ m, t.msg = some m → m.cur = advN a.st.params.cap bs.length a.msg.cur

theorem WritesInRoom.of_nothing {a : Active} {t : State} (hbuf : t.buf = a.st.buf)
    (hcur : ∀ m, t.msg = some m → m.cur = a.msg.cur) : WritesInRoom a t :=
  ⟨[], Nat.zero_le _, hbuf, hcur⟩

theorem WritesInRoom.of_fail (a : Active) (k : ErrKind) (index addr : Nat) : WritesInRoom a (a.fail k index addr) :=
  .of_nothing (by simp) (by simp)

section writeRun
variable (s : State) (c : Nat) (bs : List Byte)
@[simp] theorem State.writeRun_buf : (s.writeRun c bs).buf = memWriteRun s.params.cap s.buf c bs := by
  rw [State.writeRun_eq]
@[simp] theorem State.writeRun_trace : (s.writeRun c bs).trace = s.trace := by rw [State.writeRun_eq]
end writeRun

/-- The chunks a plan gets out before one does not fit make up a run for which there was room. -/
theorem emitChunks_in_room {a : Active} (hs : a.st.start.toNat < a.st.params.cap) (cs : List (List Byte)) :
    ∃ bs : List Byte, bs.length ≤ a.room ∧ (emitChunks cs a).2 = a.emitBytes bs := by
  induction cs generalizing a with
  | nil => exact ⟨[], Nat.zero_le _, rfl⟩
  | cons c cs ih =>
    by_cases hfull : a.room < c.length
    · exact ⟨[], Nat.zero_le _, by simp [emitChunks, hfull, Active.emitBytes]⟩
    · obtain ⟨bs, hbs, hemit⟩ := ih (a := a.emitBytes c) (by simpa using hs)
      rw [Active.emitBytes_room hs (Nat.not_lt.1 hfull)] at hbs
      refine ⟨c ++ bs, by rw [List.length_append]; omega, ?_⟩
      rw [emitChunks, if_neg hfull, hemit]
      simp [Active.emitBytes_eq, State.writeRun_append, Message.ran_append]

section turn
variable {a : Active}

theorem withSlot_writesInRoom {k : Arg → State} (h : ∀ slot, WritesInRoom a (k slot)) :
    WritesInRoom a (withSlot a k) := by
  obtain ⟨slot, -, heq⟩ | ⟨-, heq⟩ := withSlot_cases a k <;> rw [heq]
  · exact h slot
  · exact .of_fail ..

theorem runPlan_writesInRoom (hs : a.st.start.toNat < a.st.params.cap) (p : Plan) : WritesInRoom a (runPlan a p) := by
  obtain ⟨bs, hbs, hemit⟩ := emitChunks_in_room hs p.chunks
  have hfail (k : ErrKind) (index addr : Nat) : WritesInRoom a ((a.emitBytes bs).fail k index addr) :=
    ⟨bs, hbs, by simp, by simp⟩
  obtain ⟨-, heq⟩ | ⟨k, -, -, heq⟩ | ⟨-, -, heq⟩ := runPlan_cases a p <;> rw [heq, hemit]
  · exact hfail _ _ _
  · exact hfail _ _ _
  · refine ⟨bs, hbs, ?_, ?_⟩
    · exact (congrArg State.buf (a.emitBytes_st bs)).trans (a.st.writeRun_buf _ _)
    · rintro m ⟨⟩
      simp

theorem checkInner_writesInRoom (n : Nat) : WritesInRoom a (checkInner a n) := by
  obtain ⟨-, heq⟩ | ⟨-, -, heq⟩ | ⟨-, -, heq⟩ := checkInner_cases a n <;> rw [heq]
  · exact .of_fail ..
  · exact .of_fail ..
  · exact .of_nothing rfl (by rintro m ⟨⟩; rfl)

theorem closeEnc_writesInRoom (a : Active) : WritesInRoom a a.closeEnc := by
  obtain ⟨-, heq⟩ | ⟨hroom, ⟨-, heq⟩ | ⟨l, ls, -, heq⟩⟩ := closeEnc_cases a <;> rw [heq]
  · exact .of_fail ..
  · exact ⟨[trailerLo a.msg.top, trailerHi a.msg.top], hroom,
      by simp [Active.finishEnc, Active.commitStop, memWriteRun], by simp [Active.finishEnc]⟩
  · refine ⟨[trailerLo a.msg.top, trailerHi a.msg.top], hroom,
      by simp [Active.keep, Active.commitStop, memWriteRun], ?_⟩
    rintro m ⟨⟩
    simp [Active.pop, advN]

end turn

section message
variable {s t : State} {m : Message} (hm : s.msg = some m) (hd : m.dir = .enc)
include hm hd

theorem leafEntry_writesInRoom {enc : Arg → Plan} {sub : Option DState} {dec : List Byte → Parsed}
    (h : leafEntry s enc sub dec = .next t) : WritesInRoom { st := s, msg := m } t := by
  obtain ⟨m', hm', hr, -, harm⟩ := leafEntry_next h
  obtain rfl : m = m' := by simpa [hm] using hm'
  obtain ⟨-, rfl⟩ | ⟨hdec, -⟩ := harm
  · exact withSlot_writesInRoom fun slot => runPlan_writesInRoom (State.start_lt_of_cursorsInRing hr) _
  · cases hd.symm.trans hdec

theorem LeafForm.writesInRoom {o : Out} (ho : LeafForm s o) (h : o = .next t) :
    WritesInRoom { st := s, msg := m } t := by
  obtain ⟨on, k, enc, sub, dec, -, -, rfl⟩ := ho
  cases on with
  | true => exact leafEntry_writesInRoom hm hd h
  | false =>
    simp only [gatedEntry, Bool.false_eq_true, if_false] at h
    obtain ⟨m', hm', -, -, hnext⟩ := withMessage_next h
    obtain rfl : m = m' := by simpa [hm] using hm'
    cases hnext
    exact .of_fail ..

theorem execBsc_writesInRoom {n : Nat} (h : execBsc n s = .next t) : WritesInRoom { st := s, msg := m } t := by
  obtain ⟨m', hm', -, -, hnext⟩ := withMessage_next h
  obtain rfl : m = m' := by simpa [hm] using hm'
  simp only [hd] at hnext
  cases hnext
  exact withSlot_writesInRoom fun _ => checkInner_writesInRoom n

/-- Whatever a turn of an ENCODE does, it writes only where there is room. -/
theorem turn_writesInRoom (h : turn { st := s, msg := m } = .next t) : WritesInRoom { st := s, msg := m } t := by
  obtain ⟨e, i, -, hdec, heq⟩ | ⟨e, r, -, -, heq⟩ | ⟨-, heq⟩ := turn_cases { st := s, msg := m } <;> rw [heq] at h
  · have hentry := decodeEntry_isEntry hdec
    rw [Active.keep_of_msg hm, mux_eq_exec hentry] at h
    obtain ⟨n, hbsc⟩ | hleaf := exec_entry_form hentry s
    · exact execBsc_writesInRoom hm hd (hbsc ▸ h)
    · exact hleaf.writesInRoom hm hd h
  · cases h
    exact .of_fail ..
  · obtain ⟨-, hclose⟩ := onRing_next h
    cases hclose
    simpa only [Active.close, hd] using closeEnc_writesInRoom { st := s, msg := m }

end message

/-! ## The turns together (R155) -/

/-- Only a DECODE has a trace (R310). -/
theorem TurnTo.trace_of_enc {a : Active} {t : State} (h : TurnTo a t) (hd : a.msg.dir = .enc) :
    t.trace = a.st.trace := by
  cases h with
  | encFailed bs =>
    have hd' : (a.emitBytes bs).msg.dir = .enc := by simpa using hd
    simp [Active.fail_enc _ _ _ _ hd']
  | encWrote bs =>
    have hkept : (commitField (a.emitBytes bs)).trace = (a.emitBytes bs).st.trace := rfl
    simp [hkept]
  | encFinished | encClosed | opened => rfl
  | decFailed _ _ _ _ _ hd' | decRead _ _ _ hd' | decMismatched hd' | decFinished hd' | decClosed hd' =>
    simp [hd] at hd'

/-- Two runs with room for each make one run with room for both, as START stays (R155). -/
theorem WritesInRoom.trans {a : Active} {t u : State} {m : Message} (hs : a.st.start.toNat < a.st.params.cap)
    (h : WritesInRoom a t) (hframe : EncFrame a.st t) (hm : t.msg = some m)
    (g : WritesInRoom { st := t, msg := m } u) : WritesInRoom a u := by
  obtain ⟨bs, hbs, hbuf, hcur⟩ := h
  obtain ⟨cs, hcs, hbuf', hcur'⟩ := g
  simp only [Active.room] at hbs hcs
  simp only [hframe.params, hframe.start, hbuf, hcur m hm] at hcs hbuf' hcur'
  rw [ringSpace_advN hs hbs] at hcs
  refine ⟨bs ++ cs, ?room, by rw [hbuf', memWriteRun_append], fun m' hm' => ?cursor⟩
  case room =>
    rw [List.length_append, Active.room]
    omega
  case cursor => rw [hcur' m' hm', List.length_append, advN_add]

/-- How far the engine of an ENCODE has come from `a` to `t`: its frame, an ENCODE where the message is still open, and
bytes written only where there was room. -/
structure EncRun (a : Active) (t : State) : Prop where
  frame : EncFrame a.st t
  port : t.port = a.st.port
  trace : t.trace = a.st.trace
  dir : ∀ m, t.msg = some m → m.dir = .enc
  writes : WritesInRoom a t

theorem EncRun.turn {a : Active} {t u : State} {m : Message} (hs : a.st.start.toNat < a.st.params.cap)
    (h : EncRun a t) (hm : t.msg = some m) (hturn : turn { st := t, msg := m } = .next u) : EncRun a u :=
  have hd := h.dir m hm
  have hto := turn_turnTo hm hturn
  { frame := h.frame.trans (hto.encFrame hd)
    port := hto.port.trans h.port
    trace := (hto.trace_of_enc hd).trans h.trace
    dir := fun _ hm' => (hto.dir hm').trans hd
    writes := h.writes.trans hs h.frame hm (turn_writesInRoom hm hd hturn) }

theorem encOpened_encRun {n : Nat} {desc : List Entry} {args : List Arg} {s t : State} (hr : s.cursorsInRing = true)
    (h : runTurns n (encOpened s desc args) = .next t) : EncRun { st := s, msg := encMessage s desc args } t := by
  have hs := State.start_lt_of_cursorsInRing hr
  refine runTurns_induct (fun _ _ _ hrun hm hturn => hrun.turn hs hm hturn) n _ t ?opened h
  case opened => exact {
    frame := ⟨rfl, rfl, rfl, rfl⟩
    port := rfl
    trace := rfl
    dir := by rintro m ⟨⟩; rfl
    writes := .of_nothing rfl (by rintro m ⟨⟩; rfl) }

/-! ## The free space holds no occupied index (R155) -/

/-- An index fewer than `space` steps after STOP is in the ring and not occupied. -/
theorem State.advN_stop_free {s : State} (hr : s.cursorsInRing = true) {k : Nat} (hk : k < s.space) :
    advN s.params.cap k s.stop.toNat < s.params.cap ∧ ¬ s.isOccupied (advN s.params.cap k s.stop.toNat) := by
  have hs := State.start_lt_of_cursorsInRing hr
  have ht := State.stop_lt_of_cursorsInRing hr
  have hk' : k ≤ ringSpace s.params.cap s.start.toNat s.stop.toNat := hk.le
  have hin := advN_lt k ht
  have hleft := ringSpace_advN hs hk'
  have hsum := ringSpace_add_ringLen hs ht
  have hsum' := ringSpace_add_ringLen hs hin
  refine ⟨hin, ?_⟩
  simp only [State.isOccupied, State.len]
  omega

/-- Writes with room for them, from STOP on, change no byte of the occupied region and none outside the ring. -/
theorem WritesInRoom.bufRead {s t : State} {m : Message} (h : WritesInRoom { st := s, msg := m } t)
    (hcur : m.cur = s.stop.toNat) (hr : s.cursorsInRing = true) {c : Nat}
    (hc : s.isOccupied c ∨ s.params.cap ≤ c) : t.bufRead c = s.bufRead c := by
  obtain ⟨bs, hbs, hbuf, -⟩ := h
  simp only [Active.room, hcur] at hbs hbuf
  rw [State.bufRead_congr (hbuf.trans (s.writeRun_buf _ _).symm)]
  refine State.bufRead_writeRun_other fun k hk heq => ?_
  obtain ⟨hin, hfree⟩ := State.advN_stop_free hr (hk.trans_le hbs)
  rw [← heq] at hin hfree
  exact hc.elim hfree (Nat.not_le.2 hin)

/-- Settles O31: a pre-check that fails only raises; past the pre-checks the engine's turns together are an `EncRun`,
and there are enough of them to end the message. -/
theorem encodeFrame : Obligations.EncodeFrame := by
  intro s t desc args hm h
  obtain ⟨k, index, -, -, heq⟩ | ⟨-, heq⟩ := execEncode_cases desc args s <;> rw [exec_encode, heq] at h
  case inl =>
    cases h
    exact ⟨rfl, rfl, rfl, rfl, hm, rfl, rfl, fun _ _ => rfl⟩
  case inr =>
    obtain ⟨hr, hrun⟩ := onRing_next h
    have henc := encOpened_encRun hr hrun
    have hends : t.msg = none := runTurns_ends (by rintro m ⟨⟩; exact Nat.le_refl _) hrun
    obtain ⟨hparams, hstart, hdstate, hconfig⟩ := henc.frame
    exact ⟨hparams, hstart, hdstate, hconfig, hends, henc.port, henc.trace, fun _ => henc.writes.bufRead rfl hr⟩

end Sys2Proof.Machine
end

section
/-! PROOFS (41_varint.md section 1). The zigzag transform and its inverse, bit by bit. -/

namespace Sys2Proof.Machine

/-! ## The zigzag transform (R180, R181) -/

section zigzag

variable {w : Nat}

/-- `n >>s (W - 1)` spreads the sign bit over the word (R180). -/
theorem sshiftRight_width_sub_one (n : BitVec w) :
    n.sshiftRight (w - 1) = if n.msb then BitVec.allOnes w else 0#w := by
  ext i hi
  rw [BitVec.getElem_sshiftRight]
  split
  next hlow =>
    have hzero : i = 0 := by omega
    subst hzero
    cases hm : n.msb <;> simp_all [BitVec.msb_eq_getLsbD_last]
  next => cases n.msb <;> simp

/-- `0 - (u & 1)` spreads bit 0 over the word (R181). -/
theorem zero_sub_and_one (u : BitVec w) : 0#w - (u &&& 1#w) = if u.getLsbD 0 then BitVec.allOnes w else 0#w := by
  rw [← BitVec.twoPow_zero, BitVec.and_twoPow]
  cases u.getLsbD 0 <;> simp [BitVec.twoPow_zero, BitVec.neg_one_eq_allOnes]

theorem zzEnc_eq_ite (n : BitVec w) : zzEnc n = if n.msb then ~~~(n <<< 1) else n <<< 1 := by
  rw [zzEnc, sshiftRight_width_sub_one]
  cases n.msb <;> simp [BitVec.xor_allOnes]

theorem zzDec_eq_ite (u : BitVec w) : zzDec u = if u.getLsbD 0 then ~~~(u >>> 1) else u >>> 1 := by
  rw [zzDec, zero_sub_and_one]
  cases u.getLsbD 0 <;> simp [BitVec.xor_allOnes]

/-- Encoding moves the sign to bit 0. -/
theorem getLsbD_zero_zzEnc (hw : 0 < w) (n : BitVec w) : (zzEnc n).getLsbD 0 = n.msb := by
  rw [zzEnc_eq_ite]
  cases n.msb <;> simp [hw]

/-- Encoding moves every other bit up by one, inverted under a sign. -/
theorem getLsbD_succ_zzEnc {i : Nat} (hi : i + 1 < w) (n : BitVec w) :
    (zzEnc n).getLsbD (i + 1) = (n.getLsbD i ^^ n.msb) := by
  rw [zzEnc_eq_ite]
  cases n.msb <;> simp [hi, BitVec.getLsbD_eq_getElem (Nat.lt_of_succ_lt hi)]

/-- Decoding moves bit 0 to the sign. -/
theorem msb_zzDec (hw : 0 < w) (u : BitVec w) : (zzDec u).msb = u.getLsbD 0 := by
  rw [zzDec_eq_ite]
  cases u.getLsbD 0 <;> simp [BitVec.msb_ushiftRight, BitVec.msb_not, hw]

/-- Decoding moves every other bit down by one, inverted under a set bit 0. -/
theorem getLsbD_zzDec {i : Nat} (hi : i + 1 < w) (u : BitVec w) :
    (zzDec u).getLsbD i = (u.getLsbD (i + 1) ^^ u.getLsbD 0) := by
  rw [zzDec_eq_ite]
  cases u.getLsbD 0 <;> simp [Nat.lt_of_succ_lt hi, Nat.add_comm 1 i]

/-- R181: decoding undoes encoding, below the sign bit and at it. -/
theorem zzDec_zzEnc (n : BitVec w) : zzDec (zzEnc n) = n := by
  refine BitVec.eq_of_getLsbD_eq fun i hi => ?_
  have hw : 0 < w := Nat.zero_lt_of_lt hi
  by_cases hlow : i + 1 < w
  · simp [getLsbD_zzDec hlow, getLsbD_succ_zzEnc hlow, getLsbD_zero_zzEnc hw]
  · obtain rfl : i = w - 1 := by omega
    rw [← BitVec.msb_eq_getLsbD_last, msb_zzDec hw, getLsbD_zero_zzEnc hw, BitVec.msb_eq_getLsbD_last]

/-- R181: encoding undoes decoding, at bit 0 and above it. -/
theorem zzEnc_zzDec (u : BitVec w) : zzEnc (zzDec u) = u := by
  refine BitVec.eq_of_getLsbD_eq fun i hi => ?_
  have hw : 0 < w := Nat.zero_lt_of_lt hi
  cases i with
  | zero => rw [getLsbD_zero_zzEnc hw, msb_zzDec hw]
  | succ i => simp [getLsbD_succ_zzEnc hi, getLsbD_zzDec hi, msb_zzDec hw]

/-- R180: read as a signed number, n goes to 2n, or to -2n - 1 when it is negative. -/
theorem toNat_zzEnc (n : BitVec w) :
    ((zzEnc n).toNat : Int) = if 0 ≤ n.toInt then 2 * n.toInt else -2 * n.toInt - 1 := by
  have hlt := n.isLt
  rw [zzEnc_eq_ite, BitVec.toInt_eq_msb_cond]
  cases h : n.msb
  case false =>
    have hsmall : 2 * n.toNat < 2 ^ w := BitVec.msb_eq_false_iff_two_mul_lt.1 h
    have hshift : (n <<< 1).toNat = 2 * n.toNat := by
      rw [BitVec.toNat_shiftLeft, Nat.shiftLeft_eq, Nat.mod_eq_of_lt] <;> omega
    simp [hshift]
  case true =>
    have hlarge : 2 ^ w ≤ 2 * n.toNat := BitVec.msb_eq_true_iff_two_mul_ge.1 h
    have hshift : (n <<< 1).toNat = 2 * n.toNat - 2 ^ w := by
      rw [BitVec.toNat_shiftLeft, Nat.shiftLeft_eq, Nat.mod_eq_sub_mod, Nat.mod_eq_of_lt] <;> omega
    have hneg : ¬ 0 ≤ (n.toNat : Int) - (2 ^ w : Nat) := by omega
    simp only [if_true, if_neg hneg, BitVec.toNat_not, hshift]
    omega

end zigzag

/-- Settles O38: the formulas are the definitions, and the three laws hold at every width. -/
theorem zigzagBijection : Obligations.ZigzagBijection := fun _ =>
  ⟨fun n => ⟨rfl, toNat_zzEnc n, zzDec_zzEnc n⟩, fun u => ⟨rfl, zzEnc_zzDec u⟩⟩

end Sys2Proof.Machine
end

section
/-! PROOFS (41_varint.md section 2). Groups of seven bits, and the shape, the length and the stop bits of a packed
value. -/

namespace Sys2Proof.Machine

/-! ## Groups of seven bits and the stop bit (R182, R185) -/

/-- The low seven bits of a value, as the byte that carries them with the stop bit clear. -/
def group (u : Nat) : Byte := BitVec.ofNat 8 u &&& 0x7F#8

/-- The group as `pack` takes it from the word that is left (R182). -/
theorem setWidth_and_eq_group {w : Nat} (u : BitVec w) : u.setWidth 8 &&& 0x7F#8 = group u.toNat := by
  rw [group, BitVec.ofNat_toNat]

theorem toNat_group (u : Nat) : (group u).toNat = u % 128 := by
  have hmask : (group u).toNat = u % 2 ^ 8 % 2 ^ 7 := Nat.and_two_pow_sub_one_eq_mod _ 7
  omega

@[simp] theorem group_and_mask (u : Nat) : group u &&& 0x7F#8 = group u := by
  rw [group, BitVec.and_assoc, BitVec.and_self]

@[simp] theorem group_or_stop_and_mask (u : Nat) : (group u ||| 0x80#8) &&& 0x7F#8 = group u := by
  rw [BitVec.and_comm, BitVec.and_or_distrib_left, BitVec.and_comm, group_and_mask]
  simp

@[simp] theorem group_getLsbD_seven (u : Nat) : (group u).getLsbD 7 = false := by
  simp [group]

@[simp] theorem group_or_stop_getLsbD_seven (u : Nat) : (group u ||| 0x80#8).getLsbD 7 = true := by
  simp [group]

/-- The mask 0x80 tests bit 7. -/
theorem and_stop_ne_zero_iff (b : Byte) : b &&& 0x80#8 ≠ 0 ↔ b.getLsbD 7 = true := by
  have hmask := BitVec.and_twoPow b 7
  rw [show BitVec.twoPow 8 7 = 0x80#8 from rfl] at hmask
  rw [hmask]
  cases b.getLsbD 7 <;> simp

/-- A group put above the bits already there. -/
theorem or_shiftLeft_eq_add {v k : Nat} (h : v < 2 ^ k) (g : Nat) : v ||| g <<< k = v + g * 2 ^ k := by
  rw [Nat.or_comm, ← Nat.shiftLeft_add_eq_or_of_lt h, Nat.shiftLeft_eq, Nat.add_comm]

/-! ## The shape of a packed value (R182, R183) -/

/-- The bytes of `pack` from the group after `done` others on, by the value that is left: one group with the stop bit,
a group with more to come, or the tenth byte of a 64-bit value. The value left fits the bits left. -/
inductive Packed (vw : VWidth) : Nat → Nat → List Byte → Prop
  | stop {done u : Nat} (hmax : done < vw.maxBytes) (hnine : done < 9)
      (hfits : u * 2 ^ (7 * done) < 2 ^ vw.width.bits) (hu : u < 128) : Packed vw done u [group u ||| 0x80#8]
  | more {done u : Nat} {bs : List Byte} (hfits : u * 2 ^ (7 * done) < 2 ^ vw.width.bits) (hu : 128 ≤ u)
      (htail : Packed vw (done + 1) (u / 128) bs) : Packed vw done u (group u :: bs)
  | tenth (hvw : vw = .v64) : Packed vw 9 1 [1#8]

/-- Shifting a group out divides by 128. -/
theorem toNat_ushiftRight_seven {w : Nat} (u : BitVec w) : (u >>> 7).toNat = u.toNat / 128 := by
  rw [BitVec.toNat_ushiftRight, Nat.shiftRight_eq_div_pow]

theorem ushiftRight_seven_eq_zero_iff {w : Nat} (u : BitVec w) : u >>> 7 = 0 ↔ u.toNat < 128 := by
  rw [← BitVec.toNat_inj, toNat_ushiftRight_seven]
  simp [Nat.div_eq_zero_iff]

section packFrom

variable {vw : VWidth} {left : Nat} {u : BitVec vw.width.bits}

theorem packFrom_tenth (u : BitVec 64) : packFrom .v64 1 u = [u.setWidth 8] := rfl

theorem packFrom_stop (h : ¬ (vw = .v64 ∧ left = 0)) (hu : u.toNat < 128) :
    packFrom vw (left + 1) u = [group u.toNat ||| 0x80#8] := by
  rw [packFrom, if_neg h, if_pos ((ushiftRight_seven_eq_zero_iff u).2 hu), setWidth_and_eq_group]

theorem packFrom_more (h : ¬ (vw = .v64 ∧ left = 0)) (hu : 128 ≤ u.toNat) :
    packFrom vw (left + 1) u = group u.toNat :: packFrom vw left (u >>> 7) := by
  rw [packFrom, if_neg h, if_neg (mt (ushiftRight_seven_eq_zero_iff u).1 (Nat.not_lt.2 hu)), setWidth_and_eq_group]

end packFrom

/-- Taking a group off keeps the value left within the bits left. -/
theorem fits_div {u done bits : Nat} (h : u * 2 ^ (7 * done) < 2 ^ bits) :
    u / 128 * 2 ^ (7 * (done + 1)) < 2 ^ bits := by
  refine Nat.lt_of_le_of_lt ?_ h
  calc u / 128 * 2 ^ (7 * (done + 1)) = u / 128 * 128 * 2 ^ (7 * done) := by ring
    _ ≤ u * 2 ^ (7 * done) := Nat.mul_le_mul_right _ (Nat.div_mul_le_self u 128)

/-- The last group a width allows has room for the bits left, and a tenth byte has one bit (R183, R184). -/
theorem lt_of_fits_last {vw : VWidth} {u : Nat}
    (h : u * 2 ^ (7 * (vw.maxBytes - 1)) < 2 ^ vw.width.bits) : u < 128 ∧ (vw = .v64 → u < 2) := by
  cases vw <;> simp only [VWidth.maxBytes, Width.bits] at h <;> simp <;> omega

theorem maxBytes_pos (vw : VWidth) : 0 < vw.maxBytes := by cases vw <;> decide

theorem maxBytes_le_ten (vw : VWidth) : vw.maxBytes ≤ 10 := by cases vw <;> decide

/-- Only a 64-bit varint has a tenth byte. -/
theorem lt_nine_of_no_tenth {vw : VWidth} {done : Nat} (hmax : done < vw.maxBytes) (h : ¬ (vw = .v64 ∧ done = 9)) :
    done < 9 := by
  cases vw <;> simp only [VWidth.maxBytes, true_and] at hmax h <;> omega

/-- The loop of `pack` gives this shape while the value left fits. After the first group it is not 0. -/
theorem packed_packFrom {vw : VWidth} {left done : Nat} {u : BitVec vw.width.bits}
    (hleft : done + (left + 1) = vw.maxBytes) (hfits : u.toNat * 2 ^ (7 * done) < 2 ^ vw.width.bits)
    (hpos : done = 0 ∨ 0 < u.toNat) :
    Packed vw done u.toNat (packFrom vw (left + 1) u) := by
  induction left generalizing done u with
  | zero =>
    obtain rfl : done = vw.maxBytes - 1 := by omega
    obtain ⟨hlast, htwo⟩ := lt_of_fits_last hfits
    by_cases hvw : vw = .v64
    case pos =>
      subst hvw
      have hone : u.toNat = 1 := by
        have := htwo rfl
        simp at hpos
        omega
      have hbyte : u.setWidth 8 = 1#8 := by rw [← BitVec.ofNat_toNat, hone]
      rw [packFrom_tenth, hbyte, hone]
      exact .tenth rfl
    case neg =>
      rw [packFrom_stop (by simp [hvw]) hlast]
      exact .stop (by omega) (lt_nine_of_no_tenth (by omega) fun ⟨h, _⟩ => hvw h) hfits hlast
  | succ left ih =>
    have hmore : ¬ (vw = .v64 ∧ left + 1 = 0) := by simp
    by_cases hu : u.toNat < 128
    case pos =>
      rw [packFrom_stop hmore hu]
      have hten := maxBytes_le_ten vw
      exact .stop (by omega) (by omega) hfits hu
    case neg =>
      have hge := Nat.not_lt.1 hu
      have hshift := toNat_ushiftRight_seven u
      rw [packFrom_more hmore hge]
      refine .more hfits hge (hshift ▸ ih (by omega) (hshift ▸ fits_div hfits) (.inr ?_))
      omega

/-- Every packed value has this shape, so what holds of the shape holds of `pack`. -/
theorem packed_pack (vw : VWidth) (u : BitVec vw.width.bits) : Packed vw 0 u.toNat (pack vw u) := by
  have hmax : vw.maxBytes - 1 + 1 = vw.maxBytes := Nat.sub_add_cancel (maxBytes_pos vw)
  rw [pack, ← hmax]
  exact packed_packFrom (by omega) (by simpa using u.isLt) (.inl rfl)

/-! ## Length (R184) -/

section packed

variable {vw : VWidth} {done u : Nat} {bs : List Byte}

theorem Packed.length_le (h : Packed vw done u bs) : done + bs.length ≤ vw.maxBytes := by
  induction h with
  | stop hmax => exact hmax
  | more _ _ _ ih =>
    rw [List.length_cons]
    omega
  | tenth hvw => simp [hvw]

theorem Packed.length_pos (h : Packed vw done u bs) : 0 < bs.length := by
  cases h <;> simp

/-- Taking a group off takes seven bits off. -/
theorem size_div_128 (u : Nat) : (u / 128).size = u.size - 7 := by
  refine eq_of_forall_ge_iff fun k => ?_
  rw [Nat.sub_le_iff_le_add, Nat.size_le, Nat.size_le, Nat.pow_add, Nat.div_lt_iff_lt_mul (by decide)]

theorem Packed.length_eq (h : Packed vw done u bs) : bs.length = max 1 ((u.size + 6) / 7) := by
  induction h with
  | @stop _ u _ _ _ hu =>
    have hsize : u.size ≤ 7 := Nat.size_le.2 hu
    simp only [List.length_singleton]
    omega
  | @more _ u _ _ hu _ ih =>
    have hsize : 7 < u.size := Nat.lt_size.2 hu
    rw [List.length_cons, ih, size_div_128]
    omega
  | tenth => rfl

/-! ## Stop bits (R182, R183) -/

/-- Byte `k` of a packed value is byte `done + k` of the whole one. -/
theorem Packed.stop_bits (h : Packed vw done u bs) (k : Nat) (hk : k < bs.length) :
    (k + 1 < bs.length → bs[k].getLsbD 7 = false) ∧
    (k + 1 = bs.length → done + k < 9 → bs[k].getLsbD 7 = true) ∧ (done + k = 9 → bs[k] = 1#8) := by
  induction h generalizing k with
  | stop _ hnine =>
    obtain rfl : k = 0 := by simpa using hk
    exact ⟨by simp, by simp, by omega⟩
  | @more done _ _ _ _ htail ih =>
    cases k with
    | zero =>
      have hle := htail.length_le
      have hpos := htail.length_pos
      have hten := maxBytes_le_ten vw
      rw [List.length_cons]
      exact ⟨fun _ => group_getLsbD_seven _, by omega, by omega⟩
    | succ k =>
      obtain ⟨hbefore, hlast, htenth⟩ := ih k (by simpa using hk)
      simp only [List.length_cons, List.getElem_cons_succ]
      exact ⟨fun h => hbefore (by omega), fun h h' => hlast (by omega) (by omega), fun h => htenth (by omega)⟩
  | tenth =>
    obtain rfl : k = 0 := by simpa using hk
    simp

end packed

theorem size_eq_bitlen (n : Nat) : n.size = if n = 0 then 0 else Nat.log2 n + 1 := by
  split
  next h => simp [h]
  next h =>
    refine eq_of_forall_ge_iff fun k => ?_
    rw [Nat.size_le, Nat.succ_le_iff, Nat.log2_lt h]

/-- Settles O39: the length in terms of `Nat.size`, which is the bit length. -/
theorem packLength : Obligations.PackLength := by
  intro vw u
  have hpacked := packed_pack vw u
  have hlen := hpacked.length_eq
  refine ⟨?_, by simpa using hpacked.length_le⟩
  rw [size_eq_bitlen] at hlen
  simpa [← BitVec.toNat_inj] using hlen

/-- Settles O40: the stop bits of the shape, whose first byte is byte 0. -/
theorem packStopBit : Obligations.PackStopBit := fun vw u k hk => by
  simpa using (packed_pack vw u).stop_bits k hk

end Sys2Proof.Machine
end

section
/-! PROOFS (41_varint.md section 3). Unpacking undoes packing, and where the loop of `unpack` ends. -/

namespace Sys2Proof.Machine

/-! ## Unpacking what was packed (R185, R188) -/

section unpackFrom

variable {vw : VWidth} {done v : Nat} {b : Byte} {rest : List Byte}

theorem unpackFrom_tenth {b : Byte} (hb : b ≤ 1) (v : Nat) (rest : List Byte) :
    unpackFrom .v64 9 v (b :: rest) = .value (v ||| b.toNat <<< 63) 10 := by
  rw [unpackFrom, if_pos ⟨rfl, rfl⟩, if_neg (BitVec.not_lt.2 hb)]

/-- A group within the width whose byte has the stop bit ends the varint. -/
theorem unpackFrom_stop (h : ¬ (vw = .v64 ∧ done = 9))
    (hfits : (b &&& 0x7F#8).toNat <<< (7 * done) < 2 ^ vw.width.bits) (hb : b.getLsbD 7 = true) :
    unpackFrom vw done v (b :: rest) = .value (v ||| (b &&& 0x7F#8).toNat <<< (7 * done)) (done + 1) := by
  rw [unpackFrom, if_neg h]
  simp only [if_neg (Nat.not_le.2 hfits), if_pos ((and_stop_ne_zero_iff b).2 hb)]

/-- A group within the width whose byte does not have it, with more bytes allowed, is put above those before it. -/
theorem unpackFrom_more (h : ¬ (vw = .v64 ∧ done = 9))
    (hfits : (b &&& 0x7F#8).toNat <<< (7 * done) < 2 ^ vw.width.bits) (hb : b.getLsbD 7 = false)
    (hmax : done + 1 ≠ vw.maxBytes) :
    unpackFrom vw done v (b :: rest) =
      unpackFrom vw (done + 1) (v ||| (b &&& 0x7F#8).toNat <<< (7 * done)) rest := by
  have hclear : ¬ b &&& 0x80#8 ≠ 0 := by rw [and_stop_ne_zero_iff, hb]; decide
  rw [unpackFrom, if_neg h]
  simp only [if_neg (Nat.not_le.2 hfits), if_neg hclear, if_neg hmax]

end unpackFrom

/-- A group of a value that fits is itself within the width. -/
theorem group_fits {u done bits : Nat} (h : u * 2 ^ (7 * done) < 2 ^ bits) :
    (group u).toNat <<< (7 * done) < 2 ^ bits := by
  rw [Nat.shiftLeft_eq, toNat_group]
  exact Nat.lt_of_le_of_lt (Nat.mul_le_mul_right _ (Nat.mod_le u 128)) h

/-- R188: the loop of `unpack` puts each group back at the place `pack` took it from. -/
theorem Packed.unpackFrom_append {vw : VWidth} {done u v : Nat} {bs : List Byte} (h : Packed vw done u bs)
    (hv : v < 2 ^ (7 * done)) (rest : List Byte) :
    unpackFrom vw done v (bs ++ rest) = .value (v + u * 2 ^ (7 * done)) (done + bs.length) := by
  induction h generalizing v with
  | @stop done u _ hnine hfits hu =>
    have hgroup : (group u).toNat = u := by rw [toNat_group, Nat.mod_eq_of_lt hu]
    rw [List.singleton_append, unpackFrom_stop (by omega) (by simpa using group_fits hfits) (by simp),
      group_or_stop_and_mask, hgroup, or_shiftLeft_eq_add hv, List.length_singleton]
  | @more done u bs hfits _ htail ih =>
    have hmore : done + 1 < vw.maxBytes := Nat.lt_of_lt_of_le (Nat.lt_add_of_pos_right htail.length_pos) htail.length_le
    have hten := maxBytes_le_ten vw
    have hpow : 2 ^ (7 * (done + 1)) = 128 * 2 ^ (7 * done) := by ring
    have hsum : v + u % 128 * 2 ^ (7 * done) < 2 ^ (7 * (done + 1)) := by
      have := Nat.mul_le_mul_right (2 ^ (7 * done)) (Nat.le_of_lt_succ (Nat.mod_lt u (y := 128) (by decide)))
      omega
    have hvalue : v + u % 128 * 2 ^ (7 * done) + u / 128 * 2 ^ (7 * (done + 1)) = v + u * 2 ^ (7 * done) := by
      conv_rhs => rw [← Nat.mod_add_div u 128]
      rw [hpow]
      ring
    rw [List.cons_append, unpackFrom_more (by omega) (by simpa using group_fits hfits) (group_getLsbD_seven u) hmore.ne,
      group_and_mask, or_shiftLeft_eq_add hv, toNat_group, ih hsum, hvalue, List.length_cons]
    congr 1
    omega
  | tenth hvw =>
    subst hvw
    rw [List.singleton_append, unpackFrom_tenth (by decide), or_shiftLeft_eq_add hv]
    rfl

theorem unpack_pack (vw : VWidth) (u : BitVec vw.width.bits) (rest : List Byte) :
    unpack vw (pack vw u ++ rest) = .value u.toNat (pack vw u).length := by
  simpa [unpack] using (packed_pack vw u).unpackFrom_append (v := 0) (by simp) rest

/-- Settles O41: the signed half is the unsigned one at the zigzag value. -/
theorem unpackPack : Obligations.UnpackPack := fun vw x rest =>
  ⟨unpack_pack vw x rest, _, unpack_pack vw (zzEnc x) rest, by
    rw [BitVec.ofNat_toNat, BitVec.setWidth_eq, zzDec_zzEnc]⟩

/-! ## Where a varint ends (R186, R191) -/

/-- R191 for the bytes of a varint from byte `done` on, where the whole of it takes `used` bytes. -/
structure EndsAt (vw : VWidth) (done : Nat) (bs : List Byte) (used : Nat) : Prop where
  pos : done < used
  le_max : used ≤ vw.maxBytes
  le_length : used ≤ done + bs.length
  before (k : Nat) (hk : k < bs.length) : done + k + 1 < used → bs[k].getLsbD 7 = false
  last (k : Nat) (hk : k < bs.length) : done + k + 1 = used → bs[k].getLsbD 7 = true ∨ (vw = .v64 ∧ used = 10)

section ends

variable {vw : VWidth} {done v x used : Nat} {b : Byte} {bs rest : List Byte}

/-- The varint ends at its next byte. -/
theorem EndsAt.here (hmax : done < vw.maxBytes) (hb : b.getLsbD 7 = true ∨ (vw = .v64 ∧ done = 9)) :
    EndsAt vw done (b :: rest) (done + 1) where
  pos := Nat.lt_succ_self done
  le_max := hmax
  le_length := by simp
  before k _ h := by omega
  last k _ h := by
    obtain rfl : k = 0 := by omega
    simpa using hb

/-- The varint goes on after a byte without the stop bit. -/
theorem EndsAt.cons (hb : b.getLsbD 7 = false) (h : EndsAt vw (done + 1) rest used) :
    EndsAt vw done (b :: rest) used where
  pos := Nat.lt_of_succ_lt h.pos
  le_max := h.le_max
  le_length := by
    have := h.le_length
    rw [List.length_cons]
    omega
  before
    | 0, _, _ => hb
    | k + 1, hk, hused => h.before k (Nat.lt_of_succ_lt_succ hk) (by omega)
  last
    | 0, _, hused => absurd h.pos (by omega)
    | k + 1, hk, hused => h.last k (Nat.lt_of_succ_lt_succ hk) (by omega)

/-- The loop of `unpack` ends in a value at the stop bit or at a tenth byte, and nowhere else. -/
theorem unpackFrom_endsAt (h : unpackFrom vw done v bs = .value x used) (hmax : done < vw.maxBytes) :
    EndsAt vw done bs used := by
  fun_induction unpackFrom vw done v bs with
  | case1 | case2 | case4 | case6 => cases h
  | case3 done v b rest htenth =>
    cases h
    exact .here hmax (.inr htenth)
  | case5 done v b rest _ _ _ hstop =>
    cases h
    exact .here hmax (.inl ((and_stop_ne_zero_iff b).1 hstop))
  | case7 done v b rest _ _ _ hstop hlast ih =>
    exact .cons (Bool.eq_false_iff.2 (mt (and_stop_ne_zero_iff b).2 hstop)) (ih h (by omega))

/-- Every group is checked against the width before it is put in, so the value fits. -/
theorem unpackFrom_value_lt (h : unpackFrom vw done v bs = .value x used) (hv : v < 2 ^ vw.width.bits) :
    x < 2 ^ vw.width.bits := by
  fun_induction unpackFrom vw done v bs with
  | case1 | case2 | case4 | case6 => cases h
  | case3 done v b rest htenth hb =>
    obtain ⟨rfl, -⟩ := htenth
    cases h
    have hone : b.toNat ≤ 1 := BitVec.not_lt.1 hb
    have hbit : b.toNat <<< 63 < 2 ^ 64 := by
      rw [Nat.shiftLeft_eq]
      omega
    exact Nat.or_lt_two_pow hv hbit
  | case5 done v b rest _ _ hfits =>
    cases h
    exact Nat.or_lt_two_pow hv (Nat.not_le.1 hfits)
  | case7 done v b rest _ _ hfits _ _ ih => exact ih h (Nat.or_lt_two_pow hv (Nat.not_le.1 hfits))

/-- R186: the loop of `unpack` fails at the end of the bytes, or on a byte read within `MAXB(W)`. -/
theorem unpackFrom_fail {k : ErrKind} {offset : Nat} (h : unpackFrom vw done v bs = .fail k offset used)
    (hmax : done < vw.maxBytes) :
    (k = .varintOverflow ∨ k = .bufferUnderflow) ∧ used ≤ vw.maxBytes ∧ used ≤ done + bs.length ∧ offset ≤ used := by
  fun_induction unpackFrom vw done v bs with
  | case1 done =>
    cases h
    exact ⟨.inr rfl, hmax.le, Nat.le_add_right _ _, le_rfl⟩
  | case2 | case4 | case6 =>
    cases h
    exact ⟨.inl rfl, hmax, by simp, Nat.le_succ _⟩
  | case3 | case5 => cases h
  | case7 done v b rest _ _ _ _ hlast ih =>
    obtain ⟨hkind, hused, hlength, hoffset⟩ := ih h (by omega)
    rw [List.length_cons]
    exact ⟨hkind, hused, by omega, hoffset⟩

end ends

/-- Settles O42: the loop's facts at its start, with no byte done and the value 0. -/
theorem varintEnds : Obligations.VarintEnds := by
  intro vw bs
  have hmax := maxBytes_pos vw
  refine ⟨fun v used h => ?_, fun k offset used h => ?_⟩
  · have hends := unpackFrom_endsAt h hmax
    have hpos := hends.pos
    have hlength : used ≤ bs.length := by simpa using hends.le_length
    exact ⟨unpackFrom_value_lt h (Nat.two_pow_pos _), hpos, hends.le_max, hlength,
      fun k hk => hends.before k (by omega) (by omega), fun hu => hends.last _ hu (by omega)⟩
  · simpa using unpackFrom_fail h hmax

end Sys2Proof.Machine
end

section
/-! PROOFS (42_hash.md section 4). The hash in closed form, and how it depends on the seed and on each byte. -/

namespace Sys2Proof.Machine

/-- R217: every fold adds its byte times the multiplier. -/
theorem hashBytes_eq_add_mul_sum (mul seed : Half) (bs : List Byte) :
    hashBytes mul seed bs = seed + mul * BitVec.ofNat 16 (bs.map BitVec.toNat).sum := by
  induction bs generalizing seed with
  | nil => simp
  | cons b bs ih =>
    calc hashBytes mul seed (b :: bs)
      _ = seed + b.setWidth 16 * mul + mul * BitVec.ofNat 16 (bs.map BitVec.toNat).sum := ih _
      _ = seed + mul * (BitVec.ofNat 16 b.toNat + BitVec.ofNat 16 (bs.map BitVec.toNat).sum) := by
        rw [BitVec.ofNat_toNat]
        ring
      _ = seed + mul * BitVec.ofNat 16 ((b :: bs).map BitVec.toNat).sum := by
        rw [List.map_cons, List.sum_cons, BitVec.ofNat_add]

/-- The bytes add the same amount to every seed, so a difference before them is still there after them. -/
theorem hashBytes_seed_inj {mul h h' : Half} {bs : List Byte} :
    hashBytes mul h bs = hashBytes mul h' bs ↔ h = h' := by
  rw [hashBytes_eq_add_mul_sum, hashBytes_eq_add_mul_sum, add_left_inj]

/-- An odd multiplier is prime to 2^16, so it cancels. -/
theorem mul_right_cancel_of_odd {mul x y : Half} (hodd : mul.getLsbD 0 = true) (h : x * mul = y * mul) : x = y := by
  have hmul : Odd mul.toNat := by simpa [BitVec.getLsbD, Nat.odd_iff] using hodd
  have hcoprime : Nat.gcd (2 ^ 16) mul.toNat = 1 := hmul.coprime_two_left.pow_left 16
  have hmod : x.toNat * mul.toNat ≡ y.toNat * mul.toNat [MOD 2 ^ 16] := by
    simpa [Nat.ModEq] using congrArg BitVec.toNat h
  exact BitVec.eq_of_toNat_eq
    ((Nat.ModEq.cancel_right_of_coprime hcoprime hmod).eq_of_lt_of_lt x.isLt y.isLt)

/-- With an odd multiplier a fold tells any two bytes apart. -/
theorem hash16_byte_inj {mul h : Half} {b b' : Byte} (hodd : mul.getLsbD 0 = true) :
    hash16 mul b h = hash16 mul b' h ↔ b = b' := by
  refine ⟨fun heq => ?_, fun heq => heq ▸ rfl⟩
  have hwide : b.setWidth 16 = b'.setWidth 16 := mul_right_cancel_of_odd hodd (add_left_cancel heq)
  simpa using congrArg (BitVec.setWidth 8) hwide

/-- R218: the fold at the changed byte gives another value, and the bytes after it keep the two apart. -/
theorem hashBytes_set_ne {mul : Half} (hodd : mul.getLsbD 0 = true) (seed : Half) {bs : List Byte} {k : Nat} {b : Byte}
    (hk : k < bs.length) (hb : b ≠ bs[k]) : hashBytes mul seed (bs.set k b) ≠ hashBytes mul seed bs := by
  induction bs generalizing seed k with
  | nil => cases hk
  | cons c bs ih =>
    cases k with
    | zero => exact fun heq => hb ((hash16_byte_inj hodd).1 (hashBytes_seed_inj.1 heq))
    | succ k => exact ih (hash16 mul c seed) (Nat.lt_of_succ_lt_succ hk) hb

/-- Settles O43: the closed form, whose sum does not see the order of the bytes, and the changed byte. -/
theorem hashClosedForm : Obligations.HashClosedForm := by
  refine fun mul seed bs => ⟨hashBytes_eq_add_mul_sum mul seed bs, fun cs hperm => ?_,
    fun k b hk hodd hb => hashBytes_set_ne hodd seed hk hb⟩
  have hsum : (bs.map BitVec.toNat).sum = (cs.map BitVec.toNat).sum := (hperm.map _).sum_eq
  rw [hashBytes_eq_add_mul_sum, hashBytes_eq_add_mul_sum, hsum]

end Sys2Proof.Machine
end

section
/-! PROOFS (43_encoder.md, support). What an entry of an ENCODE does with its argument, said once: how a plan of chunks
ends (R231, R233, R239), and the plan of each arm by the form of its argument (R234, R235, R241 to R248). -/

namespace Sys2Proof.Machine

/-! ## Chunks of one size (R233) -/

theorem Active.emitBytes_append (a : Active) (bs cs : List Byte) :
    (a.emitBytes bs).emitBytes cs = a.emitBytes (bs ++ cs) := by
  simp [Active.emitBytes_eq, State.writeRun_append, Message.ran_append]

/-- Of chunks of u bytes as many are emitted as the room holds. -/
theorem emitChunks_uniform {a : Active} (hs : a.st.start.toNat < a.st.params.cap) {u : Nat} (hu : 0 < u)
    {cs : List (List Byte)} (hcs : ∀ c ∈ cs, c.length = u) :
    emitChunks cs a = (decide (cs.length ≤ a.room / u), a.emitBytes (cs.take (a.room / u)).flatten) := by
  induction cs generalizing a with
  | nil => simp [emitChunks, Active.emitBytes]
  | cons c cs ih =>
    obtain ⟨hc, hrest⟩ := List.forall_mem_cons.1 hcs
    by_cases hfull : a.room < u
    · simp [emitChunks, hc, hfull, Nat.div_eq_of_lt hfull, Active.emitBytes]
    · have hroom : (a.emitBytes c).room = a.room - u := hc ▸ Active.emitBytes_room hs (by omega)
      have hfit : a.room / u = (a.emitBytes c).room / u + 1 := by rw [hroom, Nat.div_eq_sub_div hu (by omega)]
      rw [emitChunks, hc, if_neg hfull, ih (by simpa using hs) hrest, hfit]
      simp [Active.emitBytes_append]

/-! ## How a plan ends (R231, R239) -/

section plan
variable {s : State} {m : Message} (hd : m.dir = .enc)
include hd

/-- A failure of an ENCODE's entry after some bytes, as the layout states it. -/
theorem Active.fail_emitBytes (bs : List Byte) (k : ErrKind) :
    (Active.emitBytes { st := s, msg := m } bs).fail k m.i (Active.emitBytes { st := s, msg := m } bs).msg.cur =
      fieldFailed s m bs k := by
  rw [Active.emitBytes_eq, Active.fail_enc _ _ _ _ hd]
  simp [fieldFailed, State.raise, State.record, State.respond]

theorem entryFailed_of_enc (k : ErrKind) : entryFailed s m k = fieldFailed s m [] k := by
  simp only [entryFailed, hd]

/-- A failure of an ENCODE's entry before its first byte. -/
theorem Active.fail_here_of_enc (k : ErrKind) :
    Active.fail { st := s, msg := m } k m.i m.cur = fieldFailed s m [] k := by
  rw [Active.fail_here, entryFailed_of_enc hd]

/-- A plan whose chunks are of u bytes: those that fit are written, and then the field has overflowed, ends in the
plan's error, or is committed. -/
theorem runPlan_uniform (hs : s.start.toNat < s.params.cap) {u : Nat} (hu : 0 < u) {p : Plan}
    (hp : ∀ c ∈ p.chunks, c.length = u) :
    runPlan { st := s, msg := m } p =
      if s.roomAt m.cur / u < p.chunks.length then
        fieldFailed s m (p.chunks.take (s.roomAt m.cur / u)).flatten .bufferOverflow
      else (p.err.map (fieldFailed s m p.chunks.flatten)).getD (fieldWritten s m p.chunks.flatten) := by
  have hemit := emitChunks_uniform (a := { st := s, msg := m }) hs hu hp
  rw [show Active.room { st := s, msg := m } = s.roomAt m.cur from rfl] at hemit
  by_cases hfit : s.roomAt m.cur / u < p.chunks.length
  · simp only [runPlan, hemit, decide_eq_false (Nat.not_le.2 hfit), if_pos hfit, Active.fail_emitBytes hd]
  · have hall : p.chunks.take (s.roomAt m.cur / u) = p.chunks := List.take_of_length_le (Nat.not_lt.1 hfit)
    rw [if_neg hfit]
    cases herr : p.err with
    | none => simp [runPlan, hemit, hall, herr, Nat.not_lt.1 hfit, commitField_emitBytes]
    | some k =>
      rw [Option.map_some, Option.getD_some, ← Active.fail_emitBytes hd]
      simp only [runPlan, hemit, hall, herr, decide_eq_true (Nat.not_lt.1 hfit)]

/-- The plan of a terminated string ends as the layout says (R245). -/
theorem runPlan_tstrPlan (hs : s.start.toNat < s.params.cap) {u : Nat} (hu : 0 < u) (maxlen : Nat)
    (units : List Nat) :
    runPlan { st := s, msg := m } (tstrPlan u maxlen units) = stringOutcome s m u maxlen units := by
  have hchunks : ∀ c ∈ (tstrPlan u maxlen units).chunks, c.length = u := by
    intro c hc
    obtain ⟨unit, -, rfl⟩ := List.mem_map.1 hc
    exact le_length u unit
  rw [runPlan_uniform hd hs hu hchunks]
  by_cases hlong : maxlen < units.length + 1 <;>
    simp [tstrPlan, stringOutcome, hlong, List.flatMap_def, List.map_take]

end plan

/-! ## An entry with its slot, and without (R231, R235) -/

section leaf
variable {s : State} {m : Message} {enc : Arg → Plan} {sub : Option DState} {dec : List Byte → Parsed}
  (ht : EncTurn s m)
include ht

theorem leafEntry_of_slot {a : Arg} (hslot : m.slot = some a) :
    leafEntry s enc sub dec = .next (runPlan { st := s, msg := m } (enc a)) := by
  obtain ⟨hm, hd, hr, hc⟩ := ht
  rw [leafEntry_enc hm hr hc hd, withSlot_of_slot hslot]

theorem withSlot_of_no_slot (hslot : m.slot = none) (k : Arg → State) :
    withSlot { st := s, msg := m } k = fieldFailed s m [] .invalidArgument := by
  obtain ⟨-, hd, -⟩ := ht
  rw [← Active.fail_here_of_enc hd]
  simp only [withSlot, hslot]

theorem leafEntry_of_no_slot (hslot : m.slot = none) :
    leafEntry s enc sub dec = .next (fieldFailed s m [] .invalidArgument) := by
  have hmissing := withSlot_of_no_slot ht hslot
  obtain ⟨hm, hd, hr, hc⟩ := ht
  rw [leafEntry_enc hm hr hc hd, hmissing]

/-- An argument at fault fails the entry with nothing written (R234). -/
theorem leafEntry_faulty {a : Arg} {k : ErrKind} (hslot : m.slot = some a) (hplan : enc a = faultyPlan k) :
    leafEntry s enc sub dec = .next (fieldFailed s m [] k) := by
  rw [leafEntry_of_slot ht hslot, hplan, runPlan_faulty]
  obtain ⟨-, hd, -⟩ := ht
  exact congrArg _ (Active.fail_here_of_enc hd k)

/-- A field whose size is known is written where it fits (R233). -/
theorem leafEntry_fixed {a : Arg} {bs : List Byte} (hslot : m.slot = some a) (hplan : enc a = fixedPlan bs)
    (hroom : bs.length ≤ s.roomAt m.cur) : leafEntry s enc sub dec = .next (fieldWritten s m bs) :=
  leafEntry_writes ht hslot hroom (hplan ▸ fixedPlan_writes bs) sub dec

/-- A field whose size is known overflows with nothing written where it does not fit (R233). -/
theorem leafEntry_fixed_full {a : Arg} {bs : List Byte} (hslot : m.slot = some a) (hplan : enc a = fixedPlan bs)
    (hroom : s.roomAt m.cur < bs.length) : leafEntry s enc sub dec = .next (fieldFailed s m [] .bufferOverflow) := by
  rw [leafEntry_of_slot ht hslot, hplan, runPlan_fixed_full (a := { st := s, msg := m }) hroom]
  obtain ⟨-, hd, -⟩ := ht
  exact congrArg _ (Active.fail_here_of_enc hd _)

/-- A string's entry ends as the layout says (R245). -/
theorem leafEntry_tstr {a : Arg} {u maxlen : Nat} {units : List Nat} (hslot : m.slot = some a) (hu : 0 < u)
    (hplan : enc a = tstrPlan u maxlen units) : leafEntry s enc sub dec = .next (stringOutcome s m u maxlen units) := by
  obtain ⟨-, hd, hr, -⟩ := id ht
  rw [leafEntry_of_slot ht hslot, hplan, runPlan_tstrPlan hd (State.start_lt_of_cursorsInRing hr) hu]

end leaf

/-- A run of words, u bytes each. -/
theorem length_flatMap_le {w : Nat} (u : Nat) (xs : List (BitVec w)) :
    (xs.flatMap fun x => le u x.toNat).length = u * xs.length := by
  simp [List.length_flatMap, Nat.mul_comm]

/-! ## The plan of each arm, by the form of its argument (R235, R242 to R247) -/

section arms
variable {a : Arg}

theorem encScalar_word (w : Width) (v : BitVec w.bits) :
    encScalar w (.data (.word w v)) = fixedPlan (le w.bytes v.toNat) := by
  simp only [encScalar, argWord_word]

theorem encScalar_other {w : Width} (h : ∀ v : BitVec w.bits, a ≠ .data (.word w v)) :
    encScalar w a = faultyPlan .invalidArgument := by
  simp only [encScalar, argWord_eq_none h]

theorem encVarint_word (vw : VWidth) (signed : Bool) (v : BitVec vw.width.bits) :
    encVarint vw signed (.data (.word vw.width v)) =
      { chunks := (pack vw (if signed then zzEnc v else v)).map ([·]), err := none } := by
  simp only [encVarint, argWord_word]

theorem encVarint_other {vw : VWidth} (signed : Bool) (h : ∀ v : BitVec vw.width.bits, a ≠ .data (.word vw.width v)) :
    encVarint vw signed a = faultyPlan .invalidArgument := by
  simp only [encVarint, argWord_eq_none h]

theorem encAdr_of_le {maxlen : Nat} {bs : List Byte} (h : (untilNul bs).length ≤ maxlen) :
    encAdr maxlen (.data (.bytes bs)) = fixedPlan (padTo maxlen (untilNul bs)) := by
  simp only [encAdr, argBytes_bytes, if_neg (Nat.not_lt.2 h)]

theorem encAdr_of_gt {maxlen : Nat} {bs : List Byte} (h : maxlen < (untilNul bs).length) :
    encAdr maxlen (.data (.bytes bs)) = faultyPlan .stringOverflow := by
  simp only [encAdr, argBytes_bytes, if_pos h]

theorem encAdr_other {maxlen : Nat} (h : ∀ bs, a ≠ .data (.bytes bs)) :
    encAdr maxlen a = faultyPlan .invalidArgument := by
  simp only [encAdr, argBytes_eq_none h]

theorem encStr_bytes (maxlen : Nat) (bs : List Byte) :
    encStr maxlen (.data (.bytes bs)) = tstrPlan 1 maxlen ((untilNul bs).map BitVec.toNat) := rfl

theorem encStr_other {maxlen : Nat} (h : ∀ bs, a ≠ .data (.bytes bs)) :
    encStr maxlen a = faultyPlan .invalidArgument := by
  simp only [encStr, argBytes_eq_none h]

theorem encUnits_units (u : UnitWidth) (maxlen : Nat) (us : List (BitVec u.bits)) :
    encUnits u maxlen (.data (.units u us)) = tstrPlan u.bytes maxlen ((untilNul us).map BitVec.toNat) := by
  simp only [encUnits, argUnits_units]

theorem encUnits_other {u : UnitWidth} {maxlen : Nat} (h : ∀ us : List (BitVec u.bits), a ≠ .data (.units u us)) :
    encUnits u maxlen a = faultyPlan .invalidArgument := by
  simp only [encUnits, argUnits_eq_none h]

section array
variable {e : Width} {count : Nat} {es : List (BitVec e.bits)}

theorem encArray_of_eq (h : es.length = count) :
    encArray e count (.data (.elems e es)) = fixedPlan (es.flatMap fun x => le e.bytes x.toNat) := by
  simp [encArray, h]

theorem encArray_of_gt (h : count < es.length) :
    encArray e count (.data (.elems e es)) = faultyPlan .arrayOverflow := by
  simp [encArray, h]

theorem encArray_of_lt (h : es.length < count) :
    encArray e count (.data (.elems e es)) = faultyPlan .invalidArgument := by
  simp [encArray, h, Nat.lt_asymm h]

theorem encArray_other (h : ∀ es : List (BitVec e.bits), a ≠ .data (.elems e es)) :
    encArray e count a = faultyPlan .invalidArgument := by
  simp only [encArray, argElems_eq_none h]

end array

section obj
variable {pw : PrefixWidth} {omax : Nat} {bs : List Byte}

theorem encObj_of_short (h : bs.length < pw.bytes) :
    encObj pw omax (.data (.bytes bs)) = faultyPlan .invalidArgument := by
  simp only [encObj, argBytes_bytes, if_pos h]

theorem encObj_of_large (h : pw.bytes ≤ bs.length) (hmax : omax < unle (bs.take pw.bytes)) :
    encObj pw omax (.data (.bytes bs)) = faultyPlan .arrayOverflow := by
  simp only [encObj, argBytes_bytes, if_neg (Nat.not_lt.2 h), gt_iff_lt, if_pos hmax]

theorem encObj_of_cut (h : pw.bytes ≤ bs.length) (hmax : unle (bs.take pw.bytes) ≤ omax)
    (hcut : bs.length < pw.bytes + unle (bs.take pw.bytes)) :
    encObj pw omax (.data (.bytes bs)) = faultyPlan .invalidArgument := by
  simp only [encObj, argBytes_bytes, if_neg (Nat.not_lt.2 h), gt_iff_lt, if_neg (Nat.not_lt.2 hmax), if_pos hcut]

theorem encObj_of_whole (hmax : unle (bs.take pw.bytes) ≤ omax)
    (hwhole : pw.bytes + unle (bs.take pw.bytes) ≤ bs.length) :
    encObj pw omax (.data (.bytes bs)) = fixedPlan (bs.take (pw.bytes + unle (bs.take pw.bytes))) := by
  simp only [encObj, argBytes_bytes, if_neg (Nat.not_lt.2 (Nat.le_of_add_right_le hwhole)), gt_iff_lt,
    if_neg (Nat.not_lt.2 hmax), if_neg (Nat.not_lt.2 hwhole)]

theorem encObj_other (h : ∀ bs, a ≠ .data (.bytes bs)) : encObj pw omax a = faultyPlan .invalidArgument := by
  simp only [encObj, argBytes_eq_none h]

end obj

end arms

end Sys2Proof.Machine
end

section
/-! PROOFS (43_encoder.md sections 2 and 3). The entries of an ENCODE, tag class by tag class (R240 to R248), a missing
slot (R235), and the trailer (R237, R238). -/

namespace Sys2Proof.Machine

/-! ## The tags that share an arm (R111, R115) -/

theorem exec_scalarTag (s : State) {p : Instr × Width} (hp : p ∈ scalarTags) :
    exec p.1 s = leafEntry s (encScalar p.2) (some .pod) (decScalar p.2) := by
  fin_cases hp <;> rfl

theorem exec_varintTag (s : State) {p : Instr × VWidth × Bool} (hp : p ∈ varintTags) :
    exec p.1 s = leafEntry s (encVarint p.2.1 p.2.2) (some .varint) (decVarint p.2.1 p.2.2) := by
  fin_cases hp <;> rfl

theorem exec_arrayTag (s : State) {count : Nat} {p : Instr × Width} (hp : p ∈ arrayTags count) :
    exec p.1 s = leafEntry s (encArray p.2 count) (some .pod) (decArray p.2 count) := by
  simp only [arrayTags, List.mem_cons, List.not_mem_nil, or_false] at hp
  obtain rfl | rfl | rfl | rfl := hp <;> rfl

section gated
variable {s : State} (q : Nat)

theorem exec_st2 (hon : s.params.featUtf16 = true) :
    exec (.st2 q) s = leafEntry s (encUnits .u16 q) (some .utf16) (decUnits .u16 q) := by
  change gatedEntry s s.params.featUtf16 _ _ = _
  rw [hon, gatedEntry_on]

theorem exec_st4 (hon : s.params.featUtf32 = true) :
    exec (.st4 q) s = leafEntry s (encUnits .u32 q) (some .utf32) (decUnits .u32 q) := by
  change gatedEntry s s.params.featUtf32 _ _ = _
  rw [hon, gatedEntry_on]

end gated

/-! ## Scalars and varints (R242, R243) -/

/-- Settles O12: one room check for the word's W bytes. -/
theorem scalarEncodes : Obligations.ScalarEncodes := by
  intro s m a ht hslot p hp
  rw [exec_scalarTag s hp]
  refine ⟨?word, fun hother => leafEntry_faulty ht hslot (encScalar_other hother)⟩
  rintro v rfl
  exact ⟨fun hroom => leafEntry_fixed ht hslot (encScalar_word p.2 v) (by simpa using hroom),
    fun hfull => leafEntry_fixed_full ht hslot (encScalar_word p.2 v) (by simpa using hfull)⟩

/-- Settles O13: each byte is a chunk of its own, so the bytes written are as many as the room. -/
theorem varintEncodes : Obligations.VarintEncodes := by
  intro s m a ht hslot p hp
  rw [exec_varintTag s hp]
  refine ⟨?word, fun hother => leafEntry_faulty ht hslot (encVarint_other p.2.2 hother)⟩
  rintro v rfl bs
  obtain ⟨-, hd, hr, -⟩ := id ht
  have hrun := runPlan_uniform hd (State.start_lt_of_cursorsInRing hr) Nat.one_pos
    (p := { chunks := bs.map ([·]), err := none }) (by simp)
  rw [leafEntry_of_slot ht hslot, encVarint_word, hrun]
  constructor <;> intro hroom
  · simp [Nat.not_lt.2 hroom, ← List.flatMap_def]
  · simp [hroom, ← List.map_take, ← List.flatMap_def]

/-! ## Addresses, arrays and objects (R244, R246, R247) -/

/-- Settles O14: the field's size is MAXLEN whatever the address. -/
theorem adrEncodes : Obligations.AdrEncodes := by
  intro s m a maxlen ht hslot
  refine ⟨?bytes, fun hother => leafEntry_faulty ht hslot (encAdr_other hother)⟩
  rintro bs rfl l
  exact ⟨fun hle hroom => leafEntry_fixed ht hslot (encAdr_of_le hle) ((padTo_length hle).trans_le hroom),
    fun hgt => leafEntry_faulty ht hslot (encAdr_of_gt hgt),
    fun hle hfull => leafEntry_fixed_full ht hslot (encAdr_of_le hle) (hfull.trans_eq (padTo_length hle).symm)⟩

/-- Settles O17: the count is checked first, and then the room for all elements at once. -/
theorem arrayEncodes : Obligations.ArrayEncodes := by
  intro s m a count ht hslot p hp
  rw [exec_arrayTag s hp]
  refine ⟨?elems, fun hother => leafEntry_faulty ht hslot (encArray_other hother)⟩
  rintro es rfl
  refine ⟨?whole, fun hgt => leafEntry_faulty ht hslot (encArray_of_gt hgt),
    fun hlt => leafEntry_faulty ht hslot (encArray_of_lt hlt), ?full⟩
  case whole =>
    rintro rfl hroom
    exact leafEntry_fixed ht hslot (encArray_of_eq rfl) (by rwa [length_flatMap_le])
  case full =>
    rintro rfl hfull
    exact leafEntry_fixed_full ht hslot (encArray_of_eq rfl) (by rwa [length_flatMap_le])

/-- Settles O18: the rule's checks in their order, and then the room for the P + L bytes at once. -/
theorem objEncodes : Obligations.ObjEncodes := by
  intro s m a pw omax ht hslot
  refine ⟨?bytes, fun hother => leafEntry_faulty ht hslot (encObj_other hother)⟩
  rintro bs rfl l
  have hlen (hwhole : pw.bytes + l ≤ bs.length) : (bs.take (pw.bytes + l)).length = pw.bytes + l :=
    List.length_take_of_le hwhole
  exact ⟨fun hshort => leafEntry_faulty ht hslot (encObj_of_short hshort),
    fun hprefix hlarge => leafEntry_faulty ht hslot (encObj_of_large hprefix hlarge),
    fun hprefix hmax hcut => leafEntry_faulty ht hslot (encObj_of_cut hprefix hmax hcut),
    fun hmax hwhole hfull =>
      leafEntry_fixed_full ht hslot (encObj_of_whole hmax hwhole) (by rwa [hlen hwhole]),
    fun hmax hwhole hroom =>
      leafEntry_fixed ht hslot (encObj_of_whole hmax hwhole) (by rwa [hlen hwhole])⟩

/-! ## Strings (R245) -/

section strings
variable {s : State} {m : Message} {u : UnitWidth} {maxlen : Nat} {sub : Option DState} {dec : List Byte → Parsed}

/-- ST2 and ST4 alike, under their own unit width. -/
theorem leafEntry_units {a : Arg} (ht : EncTurn s m) (hslot : m.slot = some a) :
    (∀ us, a = .data (.units u us) → leafEntry s (encUnits u maxlen) sub dec =
      .next (stringOutcome s m u.bytes maxlen ((untilNul us).map BitVec.toNat))) ∧
    ((∀ us, a ≠ .data (.units u us)) →
      leafEntry s (encUnits u maxlen) sub dec = .next (fieldFailed s m [] .invalidArgument)) := by
  refine ⟨?units, fun hother => leafEntry_faulty ht hslot (encUnits_other hother)⟩
  rintro us rfl
  exact leafEntry_tstr ht hslot (by cases u <;> decide) (encUnits_units u maxlen us)

/-- A string that fits MAXLEN has as its field its units and a zero unit, each little-endian. -/
theorem stringBytes_of_fits {w n : Nat} {xs : List (BitVec w)} (h : xs.length + 1 ≤ maxlen) :
    stringBytes n maxlen (xs.map BitVec.toNat) = some ((xs ++ [0]).flatMap fun x : BitVec w => le n x.toNat) := by
  rw [stringBytes, if_pos (by simpa using h)]
  simp [List.flatMap_map, le_zero_eq_replicate]

theorem flatMap_le_one (bs : List Byte) : (bs.flatMap fun b => le 1 b.toNat) = bs := by simp [le]

theorem leafEntry_units_fits {us : List (BitVec u.bits)} (ht : EncTurn s m)
    (hslot : m.slot = some (.data (.units u us))) (hmax : (untilNul us).length + 1 ≤ maxlen)
    (hroom : u.bytes * ((untilNul us).length + 1) ≤ s.roomAt m.cur) :
    leafEntry s (encUnits u maxlen) sub dec =
      .next (fieldWritten s m ((untilNul us ++ [0]).flatMap fun x : BitVec u.bits => le u.bytes x.toNat)) := by
  refine leafEntry_writes ht hslot (by rwa [length_flatMap_le, List.length_append]) (encUnits_writes ?_) sub dec
  rw [argUnits_units, Option.bind_some, stringBytes_of_fits hmax]

end strings

/-- Settles O15: the plan of a terminated string, the tag's own unit width and feature given. -/
theorem stringEncodes : Obligations.StringEncodes := by
  intro s m a maxlen ht hslot
  refine ⟨?bytes, fun hother => leafEntry_faulty ht hslot (encStr_other hother), fun hon => ?utf16, fun hon => ?utf32⟩
  case bytes =>
    rintro bs rfl
    exact leafEntry_tstr ht hslot Nat.one_pos (encStr_bytes maxlen bs)
  case utf16 =>
    rw [exec_st2 maxlen hon]
    exact leafEntry_units ht hslot
  case utf32 =>
    rw [exec_st4 maxlen hon]
    exact leafEntry_units ht hslot

/-- Settles O16: a string that fits MAXLEN has a field, and with room for it the entry writes it. -/
theorem stringCompletes : Obligations.StringCompletes := by
  intro s m maxlen ht
  refine ⟨fun bs hslot hmax hroom => ?bytes, fun us hon hslot hmax hroom => ?utf16,
    fun us hon hslot hmax hroom => ?utf32⟩
  case bytes =>
    refine exec_entry_writes ht hslot (by simpa using hroom) ?_
    have hfield := stringBytes_of_fits (n := 1) hmax
    rwa [flatMap_le_one] at hfield
  case utf16 =>
    rw [exec_st2 maxlen hon]
    exact leafEntry_units_fits ht hslot hmax hroom
  case utf32 =>
    rw [exec_st4 maxlen hon]
    exact leafEntry_units_fits ht hslot hmax hroom

/-! ## NIL and BSC (R240, R241, R330, R331) -/

/-- Settles O11: no byte to write or read, so only the slot can be at fault. -/
theorem nilCompletes : Obligations.NilCompletes := by
  intro s m
  refine ⟨fun a ht hslot => leafEntry_writes ht hslot (Nat.zero_le _) (encNil_writes a) _ _,
    fun ht hslot => leafEntry_of_no_slot ht hslot, ?decode⟩
  rintro ⟨hm, hd, hr, hc⟩
  exact (leafEntry_dec hm hr hc hd).trans (congrArg _ (storeValue_consumeN none 0 .nil))

/-- Past its slot a BSC only has its checks to make, the same in the two commands (R240, R330). -/
theorem exec_bsc {s : State} {m : Message} (n : Nat) (h : (EncTurn s m ∧ m.slot ≠ none) ∨ DecTurn s m) :
    exec (.bsc n) s = .next (checkInner { st := s, msg := m } n) := by
  change execBsc n s = _
  obtain ⟨⟨hm, hd, hr, hc⟩, hslot⟩ | ⟨hm, hd, hr, hc⟩ := h
  · obtain ⟨a, ha⟩ := Option.ne_none_iff_exists'.1 hslot
    rw [execBsc, withMessage_of_msg hm hr hc]
    simp only [hd, withSlot_of_slot (a := { st := s, msg := m }) ha]
  · rw [execBsc, withMessage_of_msg hm hr hc]
    simp only [hd]

/-- Settles O19: the outcomes of `checkInner`. -/
theorem bscOpens : Obligations.BscOpens := by
  intro s m n h
  simp only [exec_bsc n h, ← Active.fail_here]
  refine ⟨fun hrange => ?range, fun hn hrange hdeep => ?deep, fun hn hrange hdepth => ?opens⟩
  case range => rw [checkInner, if_pos hrange]
  case deep => rw [checkInner, if_neg (not_or.2 ⟨hn, Nat.not_lt.2 hrange⟩), if_pos hdeep]
  case opens =>
    rw [checkInner, if_neg (not_or.2 ⟨hn, Nat.not_lt.2 hrange⟩), if_neg (Nat.not_lt.2 hdepth)]
    rfl

/-! ## The trailer (R214, R237, R238) -/

/-- A trailer that does not fit fails with nothing written. -/
theorem closeEnc_full {s : State} {m : Message} (hd : m.dir = .enc) (hfull : s.roomAt m.cur < 2) :
    Active.closeEnc { st := s, msg := m } = { s with
      hash := m.hash0, errKind := .bufferOverflow, errIndex := BitVec.ofNat 32 m.trailerIndex,
      errAddr := BitVec.ofNat 32 m.cur, response := responded .bufferOverflow .none, msg := none } := by
  rw [Active.closeEnc, if_pos (show Active.room { st := s, msg := m } < 2 from hfull), Active.fail_enc _ _ _ _ hd]
  rfl

theorem step_of_range_end {s : State} {m : Message} (ht : EncTurn s m) (hend : m.nextEntry = none) :
    step s = .next (Active.closeEnc { st := s, msg := m }) := by
  obtain ⟨hm, hd, hr, hc⟩ := ht
  rw [step_of_message hm]
  simp [turn, hend, hr, hc, Active.close, hd]

/-- Settles O26: the trailer that does not fit, the level-0 one and the inner one. -/
theorem encodeTrailer : Obligations.EncodeTrailer := by
  intro s m ht hend p lo hi stop
  rw [step_of_range_end ht hend]
  obtain ⟨-, hd, -⟩ := ht
  exact ⟨fun hfull => congrArg _ (closeEnc_full hd hfull), fun hroom hin => congrArg _ (closeEnc_outermost hin hroom),
    fun l outer hroom hin => congrArg _ (closeEnc_nested hin hroom)⟩

end Sys2Proof.Machine
end

section
/-! PROOFS (43_encoder.md section 1, support). An entry of an ENCODE either has a field for its argument and room for
it, or fails: each arm's plan is faulty exactly where the layout has no field (R117, R234). -/

namespace Sys2Proof.Machine

/-! ## A plan against the layout's field (R117, R234) -/

/-- The plan ends in an error. -/
def Plan.Faulty (p : Plan) : Prop := ∃ k : ErrKind, k ≠ .none ∧ p.err = some k

/-- The plan writes the layout's field, or is faulty where there is none. -/
def Plan.Realizes (p : Plan) (field : Option (List Byte)) : Prop :=
  (∀ bs, field = some bs → p.Writes bs) ∧ (field = none → p.Faulty)

theorem faultyPlan_faulty {k : ErrKind} (hk : k ≠ .none) : (faultyPlan k).Faulty := ⟨k, hk, rfl⟩

theorem encNil_realizes (a : Arg) : (encNil a).Realizes (some []) :=
  ⟨by rintro bs ⟨⟩; exact encNil_writes a, by rintro ⟨⟩⟩

theorem encScalar_realizes (w : Width) (a : Arg) : (encScalar w a).Realizes (scalarBytes w a) := by
  refine ⟨fun _ => encScalar_writes, fun hnone => ?_⟩
  have hform : argWord w a = none := Option.map_eq_none_iff.1 hnone
  simpa only [encScalar, hform] using faultyPlan_faulty (by decide)

theorem encVarint_realizes (vw : VWidth) (signed : Bool) (a : Arg) :
    (encVarint vw signed a).Realizes (varintBytes vw signed a) := by
  refine ⟨fun _ => encVarint_writes, fun hnone => ?_⟩
  have hform : argWord vw.width a = none := Option.map_eq_none_iff.1 hnone
  simpa only [encVarint, hform] using faultyPlan_faulty (by decide)

theorem encAdr_realizes (maxlen : Nat) (a : Arg) : (encAdr maxlen a).Realizes (addressBytes maxlen a) := by
  refine ⟨fun _ => encAdr_writes, fun hnone => ?_⟩
  cases hform : argBytes a with
  | none => simpa only [encAdr, hform] using faultyPlan_faulty (by decide)
  | some bs =>
    have hlong : (untilNul bs).length > maxlen := by simpa [addressBytes, hform] using hnone
    simpa only [encAdr, hform, if_pos hlong] using faultyPlan_faulty (by decide)

theorem tstrPlan_faulty {u maxlen : Nat} {units : List Nat} (h : stringBytes u maxlen units = none) :
    (tstrPlan u maxlen units).Faulty := by
  have hlong : units.length + 1 > maxlen := by
    by_contra hle
    simp [stringBytes, Nat.not_lt.1 hle] at h
  exact ⟨.stringOverflow, by decide, if_pos hlong⟩

theorem encStr_realizes (maxlen : Nat) (a : Arg) : (encStr maxlen a).Realizes
    ((argBytes a).bind fun bs => stringBytes 1 maxlen ((untilNul bs).map BitVec.toNat)) := by
  refine ⟨fun _ => encStr_writes, fun hnone => ?_⟩
  cases hform : argBytes a with
  | none => simpa only [encStr, hform] using faultyPlan_faulty (by decide)
  | some bs => simpa only [encStr, hform] using tstrPlan_faulty (by simpa [hform] using hnone)

theorem encUnits_realizes (u : UnitWidth) (maxlen : Nat) (a : Arg) : (encUnits u maxlen a).Realizes
    ((argUnits u a).bind fun us => stringBytes u.bytes maxlen ((untilNul us).map BitVec.toNat)) := by
  refine ⟨fun _ => encUnits_writes, fun hnone => ?_⟩
  cases hform : argUnits u a with
  | none => simpa only [encUnits, hform] using faultyPlan_faulty (by decide)
  | some us => simpa only [encUnits, hform] using tstrPlan_faulty (by simpa [hform] using hnone)

theorem encArray_realizes (e : Width) (count : Nat) (a : Arg) :
    (encArray e count a).Realizes (arrayBytes e count a) := by
  refine ⟨fun _ => encArray_writes, fun hnone => ?_⟩
  cases hform : argElems e a with
  | none => simpa only [encArray, hform] using faultyPlan_faulty (by decide)
  | some es =>
    have hcount : es.length ≠ count := by simpa [arrayBytes, hform] using hnone
    obtain hlt | hgt := Nat.lt_or_gt_of_ne hcount
    · simpa only [encArray, hform, gt_iff_lt, if_neg (Nat.lt_asymm hlt), if_pos hlt] using faultyPlan_faulty (by decide)
    · simpa only [encArray, hform, if_pos hgt] using faultyPlan_faulty (by decide)

theorem encObj_realizes (pw : PrefixWidth) (omax : Nat) (a : Arg) :
    (encObj pw omax a).Realizes (objectBytes pw omax a) := by
  refine ⟨fun _ => encObj_writes, fun hnone => ?_⟩
  cases hform : argBytes a with
  | none => simpa only [encObj, hform] using faultyPlan_faulty (by decide)
  | some bs =>
    simp only [objectBytes, hform, Option.bind_some, ite_eq_right_iff, reduceCtorEq, imp_false] at hnone
    simp only [encObj, hform]
    split_ifs with hshort hlarge hcut
    · exact faultyPlan_faulty (by decide)
    · exact faultyPlan_faulty (by decide)
    · exact faultyPlan_faulty (by decide)
    · exact absurd ⟨by omega, by omega, by omega⟩ hnone

/-! ## The entries by their form (R115, R231) -/

/-- An entry with its feature on is a BSC or runs an arm whose plan realizes the layout's field. -/
theorem exec_enabled_form {i : Instr} (hi : isEntry i = true) (s : State) (hon : enabled s.params i = true) :
    (∃ n, i = .bsc n) ∨ ∃ enc sub dec, exec i s = leafEntry s enc sub dec ∧
      ∀ a, (enc a).Realizes (fieldBytes s.params i a) := by
  cases i with
  | nop | encode | decode | bell | ack | setCursors | push | pop | peek | readReg | writeReg | softReset => cases hi
  | bsc n => exact .inl ⟨n, rfl⟩
  | nil => exact .inr ⟨_, _, _, rfl, encNil_realizes⟩
  | adr q => exact .inr ⟨_, _, _, rfl, encAdr_realizes q⟩
  | str q => exact .inr ⟨_, _, _, rfl, encStr_realizes q⟩
  | st2 q =>
    have hon : s.params.featUtf16 = true := hon
    refine .inr ⟨_, _, _, exec_st2 q hon, ?_⟩
    simpa only [fieldBytes, hon, if_true] using encUnits_realizes .u16 q
  | st4 q =>
    have hon : s.params.featUtf32 = true := hon
    refine .inr ⟨_, _, _, exec_st4 q hon, ?_⟩
    simpa only [fieldBytes, hon, if_true] using encUnits_realizes .u32 q
  | si1 | ui1 | bol | si2 | ui2 | hlf | si4 | ui4 | flt | tms | si8 | ui8 | dbl | tmu =>
    exact .inr ⟨_, _, _, rfl, encScalar_realizes _⟩
  | sv2 | uv2 | sv4 | uv4 | sv8 | uv8 => exact .inr ⟨_, _, _, rfl, encVarint_realizes _ _⟩
  | ar1 q | ar2 q | ar4 q | ar8 q => exact .inr ⟨_, _, _, rfl, encArray_realizes _ q⟩
  | obj pw omax => exact .inr ⟨_, _, _, rfl, encObj_realizes pw omax⟩

section entries
variable {s : State} {m : Message} {i : Instr} (ht : EncTurn s m)
include ht

/-- An entry with its feature off fails in its feature's own kind (R113). -/
theorem exec_disabled (hoff : enabled s.params i = false) :
    ∃ k : ErrKind, k ≠ .none ∧ exec i s = .next (fieldFailed s m [] k) := by
  obtain ⟨hm, hd, hr, hc⟩ := ht
  cases i
  case st2 q =>
    have hoff : s.params.featUtf16 = false := hoff
    refine ⟨.utf16Disabled, by decide, ?_⟩
    change gatedEntry s s.params.featUtf16 _ _ = _
    rw [hoff, gatedEntry_off hm hr hc, Active.fail_here_of_enc hd]
  case st4 q =>
    have hoff : s.params.featUtf32 = false := hoff
    refine ⟨.utf32Disabled, by decide, ?_⟩
    change gatedEntry s s.params.featUtf32 _ _ = _
    rw [hoff, gatedEntry_off hm hr hc, Active.fail_here_of_enc hd]
  all_goals cases hoff

/-- An enabled entry without its slot fails, a BSC too (R235). -/
theorem exec_of_no_slot (hi : isEntry i = true) (hon : enabled s.params i = true) (hslot : m.slot = none) :
    exec i s = .next (fieldFailed s m [] .invalidArgument) := by
  obtain ⟨n, rfl⟩ | ⟨enc, sub, dec, hleaf, -⟩ := exec_enabled_form hi s hon
  · have hmissing := withSlot_of_no_slot ht hslot
    obtain ⟨hm, hd, hr, hc⟩ := ht
    change execBsc n s = _
    rw [execBsc, withMessage_of_msg hm hr hc]
    simp only [hd, hmissing]
  · rw [hleaf, leafEntry_of_no_slot ht hslot]

end entries

/-- Settles O9: the entries that run an arm, and BSC. -/
theorem missingSlotRaises : Obligations.MissingSlotRaises :=
  fun _ _ _ ht hi hon hslot => exec_of_no_slot ht hi hon hslot

/-! ## Entries that fail (R239) -/

/-- The command has ended in an error. -/
def State.Failed (t : State) : Prop := t.msg = none ∧ ∃ k : ErrKind, k ≠ .none ∧ t.response = responded k .none

theorem State.Failed.not_none {t : State} (h : t.Failed) : t.response ≠ responded .none .none := by
  obtain ⟨-, k, hk, hresp⟩ := h
  simpa [hresp] using hk

theorem Active.fail_failed (a : Active) {k : ErrKind} (hk : k ≠ .none) (index addr : Nat) :
    (a.fail k index addr).Failed :=
  ⟨a.fail_msg k index addr, k, hk, a.fail_response k index addr⟩

theorem fieldFailed_failed (s : State) (m : Message) (bs : List Byte) {k : ErrKind} (hk : k ≠ .none) :
    (fieldFailed s m bs k).Failed := ⟨rfl, k, hk, rfl⟩

/-- Chunks that are all emitted had room together (R233). -/
theorem emitChunks_room {a : Active} (hs : a.st.start.toNat < a.st.params.cap) {cs : List (List Byte)}
    (h : (emitChunks cs a).1 = true) : cs.flatten.length ≤ a.room := by
  induction cs generalizing a with
  | nil => exact Nat.zero_le _
  | cons c cs ih =>
    rw [emitChunks] at h
    split_ifs at h with hfull
    have hrest := ih (by simpa using hs) h
    rw [Active.emitBytes_room hs (Nat.not_lt.1 hfull)] at hrest
    rw [List.flatten_cons, List.length_append]
    omega

/-- A faulty plan fails, where its room ends or in its own error. -/
theorem Plan.Faulty.runPlan_failed {p : Plan} (h : p.Faulty) (a : Active) : (runPlan a p).Failed := by
  obtain ⟨k, hk, herr⟩ := h
  obtain ⟨-, heq⟩ | ⟨k', -, herr', heq⟩ | ⟨-, hnone, -⟩ := runPlan_cases a p
  · exact heq ▸ Active.fail_failed _ (by decide) _ _
  · obtain rfl : k = k' := Option.some.inj (herr.symm.trans herr')
    exact heq ▸ Active.fail_failed _ hk _ _
  · cases herr.symm.trans hnone

/-- A plan without room for all it writes fails. -/
theorem Plan.Writes.runPlan_failed {p : Plan} {bs : List Byte} (h : p.Writes bs) {a : Active}
    (hs : a.st.start.toNat < a.st.params.cap) (hfull : a.room < bs.length) : (runPlan a p).Failed := by
  obtain ⟨herr, rfl⟩ := h
  obtain ⟨-, heq⟩ | ⟨k, -, herr', -⟩ | ⟨hall, -, -⟩ := runPlan_cases a p
  · exact heq ▸ Active.fail_failed _ (by decide) _ _
  · cases herr.symm.trans herr'
  · exact absurd (emitChunks_room hs hall) (Nat.not_le.2 hfull)

section entries
variable {s : State} {m : Message} {i : Instr} (ht : EncTurn s m) (hi : isEntry i = true)
include ht hi

/-- An entry without its slot fails, whether or not its feature is on. -/
theorem exec_no_slot_failed (hslot : m.slot = none) : ∃ t, exec i s = .next t ∧ t.Failed := by
  cases hon : enabled s.params i with
  | true => exact ⟨_, exec_of_no_slot ht hi hon hslot, fieldFailed_failed _ _ _ (by decide)⟩
  | false =>
    obtain ⟨k, hk, hexec⟩ := exec_disabled ht hon
    exact ⟨_, hexec, fieldFailed_failed _ _ _ hk⟩

/-- An entry other than BSC has a field for its argument and room for it, or it fails (R117, R234). -/
theorem exec_fits_or_failed {a : Arg} (hbsc : ∀ n, i ≠ .bsc n) (hslot : m.slot = some a) :
    (∃ field, fieldBytes s.params i a = some field ∧ field.length ≤ s.roomAt m.cur) ∨
    ∃ t, exec i s = .next t ∧ t.Failed := by
  cases hon : enabled s.params i with
  | false =>
    obtain ⟨k, hk, hexec⟩ := exec_disabled ht hon
    exact .inr ⟨_, hexec, fieldFailed_failed _ _ _ hk⟩
  | true =>
    obtain ⟨n, rfl⟩ | ⟨enc, sub, dec, hleaf, hrealizes⟩ := exec_enabled_form hi s hon
    · exact absurd rfl (hbsc n)
    obtain ⟨hwrites, hfaulty⟩ := hrealizes a
    have hexec : exec i s = .next (runPlan { st := s, msg := m } (enc a)) := hleaf.trans (leafEntry_of_slot ht hslot)
    obtain ⟨-, -, hr, -⟩ := ht
    cases hfield : fieldBytes s.params i a with
    | none => exact .inr ⟨_, hexec, (hfaulty hfield).runPlan_failed _⟩
    | some field =>
      by_cases hroom : field.length ≤ s.roomAt m.cur
      · exact .inl ⟨field, rfl, hroom⟩
      · exact .inr ⟨_, hexec,
          (hwrites field hfield).runPlan_failed (State.start_lt_of_cursorsInRing hr) (Nat.not_le.1 hroom)⟩

end entries

end Sys2Proof.Machine
end

section
/-! PROOFS (43_encoder.md section 1). ENCODE succeeds only on a message that has a layout and fits (R234, R237 to R239):
a range either writes the body that `bodyBytes` gives it, within the room, or ends the command in an error. -/

namespace Sys2Proof.Machine

/-! ## Turns that end in an error -/

/-- At most `k` turns lead from `s` to the end of the command in an error. -/
def Fails (k : Nat) (s : State) : Prop := ∃ t, Reaches k s t ∧ t.Failed

theorem Reaches.fails {j k : Nat} {s t : State} (h : Reaches j s t) (g : Fails k t) : Fails (j + k) s := by
  obtain ⟨u, hu, hfailed⟩ := g
  exact ⟨u, h.trans hu, hfailed⟩

theorem Fails.mono {j k : Nat} {s : State} (h : Fails j s) (hjk : j ≤ k) : Fails k s := by
  obtain ⟨t, ht, hfailed⟩ := h
  exact ⟨t, ht.mono hjk, hfailed⟩

theorem Fails.of_turn {s t : State} {m : Message} (hm : s.msg = some m) (h : turn { st := s, msg := m } = .next t)
    (ht : t.Failed) : Fails 1 s := ⟨t, .of_turn hm h, ht⟩

/-- A run with turns enough to fail does not answer NONE. -/
theorem Fails.response_ne {k n : Nat} {s t : State} (h : Fails k s) (hk : k ≤ n) (hrun : runTurns n s = .next t) :
    t.response ≠ responded .none .none := by
  obtain ⟨u, hu, hfailed⟩ := h
  obtain ⟨hends, -⟩ := id hfailed
  rw [hu.runTurns hk hends] at hrun
  cases hrun
  exact hfailed.not_none

/-! ## The layout's body, put together (R116) -/

section body
variable {p : Params} {fuel depth : Nat} {e : Entry} {es : List Entry} {a : Arg} {as : List Arg} {rest : List Byte}

theorem bodyBytes_of_field {i : Instr} {field : List Byte} (hdec : decodeEntry e = .ok i)
    (hfield : fieldBytes p i a = some field) (hrest : bodyBytes p fuel depth es as = some rest) :
    bodyBytes p (fuel + 1) depth (e :: es) (a :: as) = some (field ++ rest) := by
  rw [bodyBytes, hdec]
  split
  next h => cases h
  next h => cases h; cases hfield
  next h => cases h; rw [hfield, hrest]

theorem bodyBytes_of_bsc {n : Nat} {inner : List Byte} (hdec : decodeEntry e = .ok (.bsc n)) (hn : n ≠ 0)
    (hes : n ≤ es.length) (hdepth : depth + 1 ≤ p.nestMax)
    (hinner : bodyBytes p fuel (depth + 1) (es.take n) (as.take n) = some inner)
    (hrest : bodyBytes p fuel depth (es.drop n) (as.drop n) = some rest) :
    bodyBytes p (fuel + 1) depth (e :: es) (a :: as) = some (inner ++ trailerOf p inner ++ rest) := by
  have hchecks : ¬ (n = 0 ∨ es.length < n ∨ p.nestMax < depth + 1) := by omega
  rw [bodyBytes, hdec]
  simp only [if_neg hchecks, hinner, hrest]

end body

/-! ## Slots that run out (R235) -/

/-- The slots `as` are fewer than the entries `es` only where the arguments have run out. -/
def Message.Exhausts (m : Message) (es : List Entry) (as : List Arg) : Prop :=
  as.length < es.length → m.args.length ≤ m.i + as.length

section exhausts
variable {m : Message} {e : Entry} {es : List Entry} {a : Arg} {as : List Arg}

theorem Message.Exhausts.slot_none (h : m.Exhausts (e :: es) []) : m.slot = none :=
  List.getElem?_eq_none (h (Nat.succ_pos _))

theorem Message.Exhausts.past (h : m.Exhausts es as) (p : Params) {n : Nat} (hn : n ≤ es.length) (bs : List Byte) :
    (m.past p n bs).Exhausts (es.drop n) (as.drop n) := by
  unfold Message.Exhausts at h ⊢
  simp only [List.length_drop, Message.past_args, Message.past_i]
  omega

theorem Message.Exhausts.opened (h : m.Exhausts (e :: es) (a :: as)) (p : Params) {n : Nat} (hn : n ≤ es.length) :
    (m.opened p n).Exhausts (es.take n) (as.take n) := by
  unfold Message.Exhausts at h ⊢
  simp only [List.length_take, List.length_cons, Message.opened] at h ⊢
  omega

end exhausts

/-! ## A range fits or fails -/

/-- The range ahead has a body, and room for it, or it ends the command in an error. -/
def FitsOrFails (fuel : Nat) (s : State) (m : Message) (es : List Entry) (as : List Arg) : Prop :=
  (∃ body, bodyBytes s.params fuel m.inner.length es as = some body ∧ body.length ≤ s.roomAt m.cur) ∨
  Fails (2 * es.length) s

/-- Writing a range takes its bytes off the room. -/
theorem Committed.room_after {s : State} {m : Message} (h : Committed s m) (k : Nat) {bs : List Byte}
    (hroom : bs.length ≤ s.roomAt m.cur) :
    (Machine.rangeWritten s m k bs).roomAt (m.past s.params k bs).cur = s.roomAt m.cur - bs.length := by
  obtain ⟨⟨-, -, hr, -⟩, -⟩ := h
  simpa [State.roomAt] using ringSpace_advN (State.start_lt_of_cursorsInRing hr) hroom

section range
variable {s : State} {m : Message} {e : Entry} {es : List Entry} {a : Arg} {as : List Arg} {i : Instr}

theorem fails_of_entry {t : State} (hc : Committed s m) (ha : m.Ahead (e :: es) as) (hdec : decodeEntry e = .ok i)
    (h : exec i s = .next t) (ht : t.Failed) : Fails 1 s := by
  obtain ⟨hm, -⟩ := hc.turn
  exact ⟨t, .of_entry hm ha.nextEntry hdec h, ht⟩

/-- A reserved tag ends the command in INVALID_TYPE (R113). -/
theorem fails_of_reserved {r : DecodeError} (hc : Committed s m) (ha : m.Ahead (e :: es) as)
    (hdec : decodeEntry e = .error r) : Fails 1 s := by
  obtain ⟨hm, -⟩ := hc.turn
  have hturn : turn { st := s, msg := m } = .next (reservedTag { st := s, msg := m }) := by
    simp only [turn, ha.nextEntry, hdec]
  exact .of_turn hm hturn (Active.fail_failed _ (by decide) _ _)

/-- A BSC whose range or depth is at fault ends the command (R240). -/
theorem fails_of_bsc {n : Nat} (hc : Committed s m) (ha : m.Ahead (e :: es) (a :: as))
    (hdec : decodeEntry e = .ok (.bsc n)) (h : n = 0 ∨ es.length < n ∨ s.params.nestMax < m.inner.length + 1) :
    Fails 1 s := by
  have hslot : m.slot ≠ none := by simp [ha.slot]
  have hrange : m.i + (es.length + 1) = m.hi := ha.range
  refine fails_of_entry hc ha hdec (exec_bsc n (.inl ⟨hc.turn, hslot⟩)) ?_
  obtain ⟨-, heq⟩ | ⟨-, -, heq⟩ | ⟨hin, hdepth, -⟩ := checkInner_cases { st := s, msg := m } n
  · exact heq ▸ Active.fail_failed _ (by decide) _ _
  · exact heq ▸ Active.fail_failed _ (by decide) _ _
  · simp only at hin hdepth
    omega

/-- A trailer without room ends the command in BUFFER_OVERFLOW (R237). -/
theorem fails_of_trailer (ht : EncTurn s m) (hend : m.hi ≤ m.i) (hfull : s.roomAt m.cur < 2) : Fails 1 s := by
  obtain ⟨hm, hd, -⟩ := id ht
  exact .of_turn hm ((turn_closeEnc ht hend).trans (congrArg _ (closeEnc_full hd hfull))) ⟨rfl, _, by decide, rfl⟩

/-- The end of a range that has been written. -/
theorem fails_of_trailer_after {bs : List Byte} (hc : Committed s m) (ha : m.Ahead es as)
    (hroom : bs.length ≤ s.roomAt m.cur) (hfull : s.roomAt m.cur < bs.length + 2) :
    Fails 1 (rangeWritten s m es.length bs) := by
  have hrange := ha.range
  refine fails_of_trailer (hc.rangeWritten es.length bs).turn ?_ ?_
  · simp only [Message.past_hi, Message.past_i, hrange, Nat.le_refl]
  · rw [hc.room_after _ hroom]
    omega

/-- The first entry ahead, with its inner range if it is a BSC, has been written: `bs`, the beginning of the body
wherever the rest has one. -/
def FirstWritten (fuel : Nat) (s : State) (m : Message) (e : Entry) (es : List Entry) (a : Arg) (as : List Arg) :
    Prop :=
  ∃ k bs, k ≤ es.length ∧ bs.length ≤ s.roomAt m.cur ∧
    Reaches (2 * (k + 1)) s (rangeWritten s m (k + 1) bs) ∧
    ∀ rest, bodyBytes s.params fuel m.inner.length (es.drop k) (as.drop k) = some rest →
      bodyBytes s.params (fuel + 1) m.inner.length (e :: es) (a :: as) = some (bs ++ rest)

section first
variable (fuel : Nat) (hc : Committed s m) (ha : m.Ahead (e :: es) (a :: as))
include hc ha

theorem field_written_or_fails (hdec : decodeEntry e = .ok i) (hbsc : ∀ n, i ≠ .bsc n) :
    FirstWritten fuel s m e es a as ∨ Fails 1 s := by
  obtain ⟨field, hfield, hroom⟩ | ⟨t, hexec, hfailed⟩ :=
    exec_fits_or_failed hc.turn (decodeEntry_isEntry hdec) hbsc ha.slot
  · exact .inl ⟨0, field, Nat.zero_le _, hroom, reaches_field hc ha hdec hfield hroom,
      fun rest hrest => bodyBytes_of_field hdec hfield hrest⟩
  · exact .inr (fails_of_entry hc ha hdec hexec hfailed)

/-- A BSC whose checks hold, by what its inner range does: that range fails, or fits with or without its trailer. -/
theorem bsc_written_or_fails {n : Nat} (hdec : decodeEntry e = .ok (.bsc n)) (hn : n ≠ 0) (hes : n ≤ es.length)
    (hdepth : m.inner.length + 1 ≤ s.params.nestMax)
    (hinner : FitsOrFails fuel (innerOpened s m n) (m.opened s.params n) (es.take n) (as.take n)) :
    FirstWritten fuel s m e es a as ∨ Fails (2 * (es.length + 1)) s := by
  obtain ⟨hm, -⟩ := hc.turn
  have hrange : m.i + (es.length + 1) = m.hi := ha.range
  have hopen : Reaches 1 s (innerOpened s m n) :=
    .of_entry hm ha.nextEntry hdec (exec_bsc_opens hc.turn ha.slot hn (by omega) hdepth)
  have hlen : (es.take n).length = n := List.length_take_of_le hes
  obtain ⟨inner, hbody, hroom⟩ | hfails := hinner
  case inr =>
    rw [hlen] at hfails
    exact .inr ((hopen.fails hfails).mono (by omega))
  case inl =>
    have hcin := hc.innerOpened n
    have hain := ha.opened s.params hes
    have hrun := reaches_rangeWritten hcin hain hbody hroom
    rw [hlen] at hrun
    by_cases htrailer : inner.length + 2 ≤ s.roomAt m.cur
    · refine .inl ⟨n, inner ++ trailerOf s.params inner, hes, ?_,
        reaches_bsc hc ha hdec hn hes hdepth htrailer hrun,
        fun rest hrest => bodyBytes_of_bsc hdec hn hes hdepth hbody hrest⟩
      rw [List.length_append]
      exact htrailer
    · have hclose := fails_of_trailer_after hcin hain hroom (Nat.not_le.1 htrailer)
      rw [hlen] at hclose
      exact .inr (((hopen.trans hrun).fails hclose).mono (by omega))

end first

/-- The range fits or fails as its rest does, once its first entry has been written. -/
theorem FirstWritten.fits_or_fails {fuel : Nat} (hc : Committed s m) (h : FirstWritten fuel s m e es a as)
    (hrest : ∀ k bs, k ≤ es.length → FitsOrFails fuel (rangeWritten s m (k + 1) bs) (m.past s.params (k + 1) bs)
      (es.drop k) (as.drop k)) : FitsOrFails (fuel + 1) s m (e :: es) (a :: as) := by
  obtain ⟨k, bs, hk, hroom, hreach, hbody⟩ := h
  obtain ⟨rest, hrestBody, hrestRoom⟩ | hfails := hrest k bs hk
  · rw [hc.room_after _ hroom] at hrestRoom
    refine .inl ⟨bs ++ rest, hbody rest (by simpa using hrestBody), ?_⟩
    rw [List.length_append]
    omega
  · refine .inr ((hreach.fails hfails).mono ?_)
    simp only [List.length_cons, List.length_drop]
    omega

/-- The range ahead fits or fails, by induction as `bodyBytes` recurses: the first entry, and then the rest. -/
theorem range_fits_or_fails {fuel : Nat} (hc : Committed s m) (ha : m.Ahead es as) (hx : m.Exhausts es as)
    (hfuel : es.length ≤ fuel) : FitsOrFails fuel s m es as := by
  induction fuel generalizing s m es as with
  | zero =>
    obtain rfl := List.eq_nil_of_length_eq_zero (Nat.le_zero.1 hfuel)
    exact .inl ⟨[], bodyBytes_nil .., Nat.zero_le _⟩
  | succ fuel ih =>
    cases es with
    | nil => exact .inl ⟨[], bodyBytes_nil .., Nat.zero_le _⟩
    | cons e es =>
      have hes : es.length ≤ fuel := Nat.le_of_succ_le_succ hfuel
      have hfail {as : List Arg} (h : Fails 1 s) : FitsOrFails (fuel + 1) s m (e :: es) as :=
        .inr (h.mono (by rw [List.length_cons]; omega))
      cases hdec : decodeEntry e with
      | error r => exact hfail (fails_of_reserved hc ha hdec)
      | ok i =>
        cases as with
        | nil =>
          obtain ⟨t, hexec, hfailed⟩ := exec_no_slot_failed hc.turn (decodeEntry_isEntry hdec) hx.slot_none
          exact hfail (fails_of_entry hc ha hdec hexec hfailed)
        | cons a as =>
          have hwritten (h : FirstWritten fuel s m e es a as) : FitsOrFails (fuel + 1) s m (e :: es) (a :: as) :=
            h.fits_or_fails hc fun k bs hk =>
              ih (hc.rangeWritten (k + 1) bs) (ha.past s.params (Nat.succ_le_succ hk) bs)
                (hx.past s.params (Nat.succ_le_succ hk) bs) (by rw [List.length_drop]; omega)
          by_cases hbsc : ∃ n, i = .bsc n
          case neg => exact (field_written_or_fails fuel hc ha hdec (not_exists.1 hbsc)).elim hwritten hfail
          case pos =>
            obtain ⟨n, rfl⟩ := hbsc
            by_cases hfault : n = 0 ∨ es.length < n ∨ s.params.nestMax < m.inner.length + 1
            · exact hfail (fails_of_bsc hc ha hdec hfault)
            · have hle : n ≤ es.length := by omega
              have hinner := ih (hc.innerOpened n) (ha.opened s.params hle) (hx.opened s.params hle)
                (by rw [List.length_take]; omega)
              exact (bsc_written_or_fails fuel hc ha hdec (by omega) hle (by omega) hinner).elim hwritten .inr

end range

/-! ## ENCODE as a whole (R230, R238) -/

section encode
variable {s : State} {desc : List Entry} {args : List Arg}

/-- A failed pre-check is an error (R230). -/
theorem execEncode_of_not_ready (h : ¬ encReady s desc args) :
    ∃ (k : ErrKind) (index : Nat), k ≠ .none ∧ execEncode desc args s = .next (s.raise k index s.stop.toNat) := by
  cases hl : s.lock with
  | true => exact ⟨_, _, by decide, execEncode_of_lock hl⟩
  | false =>
    by_cases hempty : desc = [] ∨ args = []
    · exact ⟨_, _, by decide, execEncode_of_empty hl hempty⟩
    · obtain ⟨hdesc, hargs⟩ := not_or.1 hempty
      have hmany : s.params.paramMax < desc.length := by
        by_contra hle
        exact h ⟨hl, hdesc, hargs, Nat.not_lt.1 hle⟩
      exact ⟨_, _, by decide, execEncode_of_tooMany hl hdesc hargs hmany⟩

/-- The engine of an ENCODE that does not end in an error has had a body to write, with room for its trailer. -/
theorem encOpened_fits_or_fails (hr : s.cursorsInRing = true) :
    (∃ body, messageBody s.params desc args = some body ∧ body.length + 2 ≤ s.space) ∨
    Fails (turnsFor desc.length) (encOpened s desc args) := by
  have hc : Committed (encOpened s desc args) (encMessage s desc args) := encOpened_committed hr
  have ha := encMessage_ahead s desc args
  have hx : (encMessage s desc args).Exhausts desc args := fun _ => Nat.le_add_left _ _
  obtain ⟨body, hbody, hroom⟩ | hfails := range_fits_or_fails hc ha hx (Nat.le_refl _)
  · by_cases htrailer : body.length + 2 ≤ s.space
    · exact .inl ⟨body, hbody, htrailer⟩
    · have hrun := reaches_rangeWritten hc ha hbody hroom
      exact .inr (hrun.fails (fails_of_trailer_after hc ha hroom (Nat.not_le.1 htrailer)))
  · exact .inr (hfails.mono (Nat.le_succ _))

end encode

/-- Settles O30: a pre-check that fails is an error, and so is an engine run without a body or room for the message. -/
theorem encodeSucceedsOnlyThen : Obligations.EncodeSucceedsOnlyThen := by
  intro s t desc args _ h hresp
  rw [exec_encode] at h
  have hready : encReady s desc args := by
    by_contra hnot
    obtain ⟨k, index, hk, heq⟩ := execEncode_of_not_ready hnot
    rw [heq] at h
    cases h
    simp [hk] at hresp
  obtain ⟨hnot, -⟩ | ⟨-, hr, hrun⟩ := execEncode_next h
  · exact absurd hready hnot
  · obtain hfits | hfails := encOpened_fits_or_fails hr
    · exact ⟨hready, hfits⟩
    · exact absurd hresp (hfails.response_ne (Nat.le_refl _) hrun)

end Sys2Proof.Machine
end

section
/-! PROOFS (44_decoder.md, support). The bytes an entry of a DECODE has ahead of it, and how its arm's outcome on them
becomes the next state (R322 to R324, R327). -/

namespace Sys2Proof.Machine

/-! ## The bytes ahead of RCUR (R156, R322) -/

/-- The bytes from a cursor up to STOP, all that a DECODE at that cursor can still read. -/
abbrev State.ahead (s : State) (c : Nat) : List Byte := s.ringBytes (s.availAt c) c

theorem State.ringBytes_take (s : State) {k n : Nat} (c : Nat) (h : k ≤ n) :
    (s.ringBytes n c).take k = s.ringBytes k c := by
  obtain ⟨d, rfl⟩ := Nat.exists_eq_add_of_le h
  rw [s.ringBytes_add, List.take_left' (s.ringBytes_length k c)]

theorem State.ringBytes_drop (s : State) {k n : Nat} (c : Nat) (h : k ≤ n) :
    (s.ringBytes n c).drop k = s.ringBytes (n - k) (advN s.params.cap k c) := by
  obtain ⟨d, rfl⟩ := Nat.exists_eq_add_of_le h
  rw [s.ringBytes_add, List.drop_left' (s.ringBytes_length k c), Nat.add_sub_cancel_left]

/-- Reading bytes takes as many off those available. -/
theorem ringLen_advN_left {cap k s t : Nat} (ht : t < cap) (h : k ≤ ringLen cap s t) :
    ringLen cap (advN cap k s) t = ringLen cap s t - k := by
  induction k generalizing s with
  | zero => rfl
  | succ k ih =>
    have hstep := ringLen_adv_left (s := s) ht (by omega)
    rw [advN, ih (by omega), hstep]
    omega

/-- What is ahead after k bytes have been read is what was ahead of them. -/
theorem State.ahead_advN {s : State} (ht : s.stop.toNat < s.params.cap) {k c : Nat} (h : k ≤ s.availAt c) :
    s.ahead (advN s.params.cap k c) = (s.ahead c).drop k := by
  rw [s.ringBytes_drop c h, ← ringLen_advN_left ht h]

/-- Bytes that what is ahead begins with are there to be read. -/
theorem State.ringBytes_of_prefix {s : State} {c : Nat} {bs : List Byte} (h : bs <+: s.ahead c) :
    bs.length ≤ s.availAt c ∧ s.ringBytes bs.length c = bs := by
  have hle : bs.length ≤ s.availAt c := by simpa using h.length_le
  exact ⟨hle, by rw [← s.ringBytes_take c hle, ← List.prefix_iff_eq_take.1 h]⟩

/-- Past what was read, the rest is ahead. -/
theorem State.prefix_ahead_of_append {s : State} (ht : s.stop.toNat < s.params.cap) {c : Nat} {bs cs : List Byte}
    (h : bs ++ cs <+: s.ahead c) : cs <+: s.ahead (advN s.params.cap bs.length c) := by
  obtain ⟨rest, hrest⟩ := h
  obtain ⟨hle, -⟩ := State.ringBytes_of_prefix (s := s) (c := c) (bs := bs) ⟨cs ++ rest, by rw [← hrest]; simp⟩
  rw [State.ahead_advN ht hle, ← hrest]
  exact ⟨rest, by simp⟩

/-! ## An arm's outcome as the next state (R323, R324, R327) -/

section arm
variable {s : State} {m : Message} {sub : Option DState} {arm : List Byte → Parsed}

theorem runParse_value {v : Value} {n : Nat} (h : arm (s.ahead m.cur) = .value v n) :
    runParse { st := s, msg := m } sub arm = fieldRead s m sub n v := by
  have hbytes : (enterSub { st := s, msg := m } sub).available = s.ahead m.cur := enterSub_available _ sub
  simp only [runParse, hbytes, h, storeValue_consumeN]

/-- A failure of a DECODE's entry after some bytes, as the layout states it. -/
theorem Active.fail_consumeN (hd : m.dir = .dec) (n : Nat) (k : ErrKind) (addr : Nat) :
    (Active.consumeN n (enterSub { st := s, msg := m } sub)).fail k m.i addr = readFailed s m sub n k addr := by
  rw [Active.consumeN_eq, Active.fail_dec _ _ _ _ (by simpa using hd)]
  cases sub with
  | none => simp [enterSub, readFailed, State.enter, State.raise, State.record, State.respond]
  | some d =>
    simp only [enterSub, Active.enter, State.ringBytes_enter]
    simp [readFailed, State.enter, State.raise, State.record, State.respond]

theorem runParse_fail (hd : m.dir = .dec) {k : ErrKind} {offset n : Nat}
    (h : arm (s.ahead m.cur) = .fail k offset n) :
    runParse { st := s, msg := m } sub arm = readFailed s m sub n k (advN s.params.cap offset m.cur) := by
  have hbytes : (enterSub { st := s, msg := m } sub).available = s.ahead m.cur := enterSub_available _ sub
  simp only [runParse, hbytes, h, Active.fail_consumeN hd]

variable {enc : Arg → Plan} (ht : DecTurn s m)
include ht

theorem leafEntry_value {v : Value} {n : Nat} (h : arm (s.ahead m.cur) = .value v n) :
    leafEntry s enc sub arm = .next (fieldRead s m sub n v) := by
  obtain ⟨hm, hd, hr, hc⟩ := ht
  rw [leafEntry_dec hm hr hc hd, runParse_value h]

theorem leafEntry_fail {k : ErrKind} {offset n : Nat} (h : arm (s.ahead m.cur) = .fail k offset n) :
    leafEntry s enc sub arm = .next (readFailed s m sub n k (advN s.params.cap offset m.cur)) := by
  obtain ⟨hm, hd, hr, hc⟩ := ht
  rw [leafEntry_dec hm hr hc hd, runParse_fail hd h]

end arm

/-! ## The outcome of each arm, by the bytes it has (R332 to R337) -/

section arms
variable {bs : List Byte}

theorem decScalar_of_le {w : Width} (h : w.bytes ≤ bs.length) :
    decScalar w bs = .value (.data (.word w (BitVec.ofNat w.bits (unle (bs.take w.bytes))))) w.bytes :=
  if_neg (Nat.not_lt.2 h)

theorem decScalar_of_lt {w : Width} (h : bs.length < w.bytes) : decScalar w bs = .fail .bufferUnderflow 0 0 := if_pos h

theorem decVarint_of_value {vw : VWidth} (signed : Bool) {v used : Nat} (h : unpack vw bs = .value v used) :
    decVarint vw signed bs = .value (.data (.word vw.width
      (if signed then zzDec (BitVec.ofNat vw.width.bits v) else BitVec.ofNat vw.width.bits v))) used := by
  simp only [decVarint, h]

theorem decVarint_of_fail {vw : VWidth} (signed : Bool) {k : ErrKind} {offset used : Nat}
    (h : unpack vw bs = .fail k offset used) : decVarint vw signed bs = .fail k offset used := by
  simp only [decVarint, h]

theorem decAdr_of_le {maxlen : Nat} (h : maxlen ≤ bs.length) :
    decAdr maxlen bs = .value (.data (.bytes (untilNul (bs.take maxlen)))) maxlen := if_neg (Nat.not_lt.2 h)

theorem decAdr_of_lt {maxlen : Nat} (h : bs.length < maxlen) : decAdr maxlen bs = .fail .bufferUnderflow 0 0 := if_pos h

theorem decArray_of_le {e : Width} {count : Nat} (h : e.bytes * count ≤ bs.length) :
    decArray e count bs = .value (.data (.elems e (elemsFrom e count bs))) (e.bytes * count) := if_neg (Nat.not_lt.2 h)

theorem decArray_of_lt {e : Width} {count : Nat} (h : bs.length < e.bytes * count) :
    decArray e count bs = .fail .bufferUnderflow 0 0 := if_pos h

section obj
variable {pw : PrefixWidth} {omax : Nat}

theorem decObj_of_short (h : bs.length < pw.bytes) : decObj pw omax bs = .fail .bufferUnderflow 0 0 := if_pos h

theorem decObj_of_large (h : pw.bytes ≤ bs.length) (hmax : omax < unle (bs.take pw.bytes)) :
    decObj pw omax bs = .fail .arrayOverflow 0 pw.bytes := by
  simp only [decObj, if_neg (Nat.not_lt.2 h), gt_iff_lt, if_pos hmax]

theorem decObj_of_cut (h : pw.bytes ≤ bs.length) (hmax : unle (bs.take pw.bytes) ≤ omax)
    (hcut : bs.length < pw.bytes + unle (bs.take pw.bytes)) :
    decObj pw omax bs = .fail .bufferUnderflow pw.bytes pw.bytes := by
  simp only [decObj, if_neg (Nat.not_lt.2 h), gt_iff_lt, if_neg (Nat.not_lt.2 hmax), if_pos hcut]

theorem decObj_of_whole (hmax : unle (bs.take pw.bytes) ≤ omax)
    (hwhole : pw.bytes + unle (bs.take pw.bytes) ≤ bs.length) :
    decObj pw omax bs = .value (.data (.bytes (bs.take (pw.bytes + unle (bs.take pw.bytes)))))
      (pw.bytes + unle (bs.take pw.bytes)) := by
  simp only [decObj, if_neg (Nat.not_lt.2 (Nat.le_of_add_right_le hwhole)), gt_iff_lt, if_neg (Nat.not_lt.2 hmax),
    if_neg (Nat.not_lt.2 hwhole)]

end obj

end arms

/-! ## Units and elements (R335, R336) -/

/-- The little-endian number that the j-th u bytes of a list make. -/
def unitOf (u : Nat) (bs : List Byte) (j : Nat) : Nat := unle ((bs.drop (u * j)).take u)

theorem unitOf_zero (u : Nat) (bs : List Byte) : unitOf u bs 0 = unle (bs.take u) := by simp [unitOf]

theorem unitOf_drop (u : Nat) (bs : List Byte) : unitOf u (bs.drop u) = unitOf u bs ∘ Nat.succ := by
  funext j
  rw [Function.comp_apply, unitOf, unitOf, List.drop_drop, Nat.mul_succ, Nat.add_comm]

/-- Unit j of a run of reads is read from the ring index u * j on, wrapped or not (R159). -/
theorem unitOf_ringBytes (s : State) {u n j : Nat} (c : Nat) (h : u * (j + 1) ≤ n) :
    unitOf u (s.ringBytes n c) j = unle (s.ringBytes u (advN s.params.cap (u * j) c)) := by
  rw [Nat.mul_succ] at h
  rw [unitOf, s.ringBytes_drop c (by omega), s.ringBytes_take _ (by omega)]

theorem elemsFrom_eq_map (e : Width) (count : Nat) (bs : List Byte) :
    elemsFrom e count bs = (List.range count).map fun k => BitVec.ofNat e.bits (unitOf e.bytes bs k) := by
  induction count generalizing bs with
  | zero => rfl
  | succ count ih =>
    rw [elemsFrom, ih, List.range_succ_eq_map, List.map_cons, List.map_map, unitOf_zero]
    simp only [unitOf_drop, Function.comp_def]

section tstr
variable {u left used : Nat} {out : List Nat} {bs : List Byte}

theorem tstrFrom_short (h : bs.length < u) :
    tstrFrom u (left + 1) used out bs = (.error .bufferUnderflow, used) := if_pos h

/-- A zero unit ends the string. -/
theorem tstrFrom_end (h : u ≤ bs.length) (hzero : unle (bs.take u) = 0) :
    tstrFrom u (left + 1) used out bs = (.ok out, used + u) := by
  rw [tstrFrom, if_neg (Nat.not_lt.2 h)]
  exact if_pos hzero

theorem tstrFrom_more (h : u ≤ bs.length) (hne : unle (bs.take u) ≠ 0) :
    tstrFrom u (left + 1) used out bs = tstrFrom u left (used + u) (out ++ [unle (bs.take u)]) (bs.drop u) := by
  rw [tstrFrom, if_neg (Nat.not_lt.2 h)]
  exact if_neg hne

/-- The string ends at its first zero unit, where MAXLEN and the bytes reach it. -/
theorem tstrFrom_of_zero {j : Nat} (hj : j < left) (hlen : u * (j + 1) ≤ bs.length) (hzero : unitOf u bs j = 0)
    (hne : ∀ k < j, unitOf u bs k ≠ 0) : tstrFrom u left used out bs =
      (.ok (out ++ (List.range j).map (unitOf u bs)), used + u * (j + 1)) := by
  obtain ⟨left, rfl⟩ := Nat.exists_eq_add_of_lt (Nat.zero_lt_of_lt hj)
  rw [Nat.zero_add] at hj ⊢
  induction j generalizing left used out bs with
  | zero =>
    rw [unitOf_zero] at hzero
    rw [tstrFrom_end (by simpa using hlen) hzero]
    simp
  | succ j ih =>
    have hfirst := hne 0 (Nat.succ_pos j)
    rw [unitOf_zero] at hfirst
    obtain ⟨left, rfl⟩ := Nat.exists_eq_add_of_lt (Nat.zero_lt_of_lt (Nat.lt_of_succ_lt_succ hj))
    rw [Nat.mul_succ] at hlen
    have hrest := ih (used := used + u) (out := out ++ [unle (bs.take u)]) (bs := bs.drop u)
      (by rw [List.length_drop]; omega) (by rwa [unitOf_drop])
      (fun k hk => by rw [unitOf_drop]; exact hne (k + 1) (Nat.succ_lt_succ hk)) left (by omega)
    rw [tstrFrom_more (by omega) hfirst, Nat.zero_add, hrest, unitOf_drop, List.range_succ_eq_map, List.map_cons,
      List.map_map, unitOf_zero, List.append_assoc, List.singleton_append]
    congr 1
    ring

/-- With no zero unit to read, MAXLEN or the bytes run out, whichever is first. -/
theorem tstrFrom_of_no_zero (hu : 0 < u)
    (hne : ∀ j, j < left → j < bs.length / u → unitOf u bs j ≠ 0) : tstrFrom u left used out bs =
      (.error (if left ≤ bs.length / u then .stringOverflow else .bufferUnderflow),
        used + u * min left (bs.length / u)) := by
  induction left generalizing used out bs with
  | zero => simp [tstrFrom]
  | succ left ih =>
    by_cases hshort : bs.length < u
    · simp [tstrFrom_short hshort, Nat.div_eq_of_lt hshort]
    · have hdiv : bs.length / u = (bs.drop u).length / u + 1 := by
        rw [List.length_drop, Nat.div_eq_sub_div hu (Nat.not_lt.1 hshort)]
      have hfirst := hne 0 (Nat.succ_pos left) (Nat.div_pos (Nat.not_lt.1 hshort) hu)
      rw [unitOf_zero] at hfirst
      have hrest := ih (used := used + u) (out := out ++ [unle (bs.take u)]) (bs := bs.drop u) fun j hj hwhole => by
        rw [unitOf_drop]
        exact hne (j + 1) (Nat.succ_lt_succ hj) (by omega)
      rw [tstrFrom_more (Nat.not_lt.1 hshort) hfirst, hrest, hdiv, Nat.succ_min_succ, Nat.mul_succ]
      simp only [Nat.succ_le_succ_iff, Prod.mk.injEq, true_and]
      omega

end tstr

end Sys2Proof.Machine
end

section
/-! PROOFS (44_decoder.md sections 1 and 3). The entries of a DECODE, tag class by tag class (R332 to R337), and the
trailer (R325 to R327). -/

namespace Sys2Proof.Machine

/-! ## Scalars, varints, addresses and arrays (R332 to R334, R336) -/

/-- Settles O20: one check for the word's W bytes. -/
theorem scalarDecodes : Obligations.ScalarDecodes := by
  intro s m ht p hp
  rw [exec_scalarTag s hp]
  refine ⟨fun hle => ?whole, fun hlt => leafEntry_fail ht (decScalar_of_lt (by simpa using hlt))⟩
  refine leafEntry_value ht ?_
  rw [decScalar_of_le (by simpa using hle), s.ringBytes_take _ hle]

/-- Settles O21: what `unpack` takes of the bytes ahead is what the arm takes. -/
theorem varintDecodes : Obligations.VarintDecodes := by
  intro s m ht p hp
  rw [exec_varintTag s hp]
  exact ⟨fun v used h => leafEntry_value ht (decVarint_of_value p.2.2 h),
    fun k offset used h => leafEntry_fail ht (decVarint_of_fail p.2.2 h)⟩

/-- Settles O22: one check for the field's MAXLEN bytes. -/
theorem adrDecodes : Obligations.AdrDecodes := by
  intro s m maxlen ht
  refine ⟨fun hle => ?whole, fun hlt => leafEntry_fail ht (decAdr_of_lt (by simpa using hlt))⟩
  refine leafEntry_value ht ?_
  rw [decAdr_of_le (by simpa using hle), s.ringBytes_take _ hle]

/-- Settles O24: one check for all the elements, each of which is then read where the ring has it. -/
theorem arrayDecodes : Obligations.ArrayDecodes := by
  intro s m count ht p hp
  rw [exec_arrayTag s hp]
  refine ⟨fun hle => ?whole, fun hlt => leafEntry_fail ht (decArray_of_lt (by simpa using hlt))⟩
  have helem {k : Nat} (hk : k ∈ List.range count) : unitOf p.2.bytes (s.ahead m.cur) k =
      unle (s.ringBytes p.2.bytes (advN s.params.cap (p.2.bytes * k) m.cur)) :=
    unitOf_ringBytes s m.cur ((Nat.mul_le_mul_left _ (List.mem_range.1 hk)).trans hle)
  refine leafEntry_value ht ?_
  rw [decArray_of_le (by simpa using hle), elemsFrom_eq_map, List.map_congr_left fun k hk => by rw [helem hk]]

/-! ## Objects (R337) -/

/-- Settles O25: P bytes are there or not, the length L they make is within OMAX or not, and L bytes more are there or not. -/
theorem objDecodes : Obligations.ObjDecodes := by
  intro s m pw omax ht l sub
  have hlen : (s.ahead m.cur).length = s.availAt m.cur := s.ringBytes_length _ _
  have hprefix (hle : pw.bytes ≤ s.availAt m.cur) : unle ((s.ahead m.cur).take pw.bytes) = l := by
    rw [s.ringBytes_take _ hle]
  refine ⟨fun hshort => ?short, fun hle hmax => ?large, fun hle hmax hcut => ?cut, fun hmax hwhole => ?whole⟩
  case short => exact leafEntry_fail ht (decObj_of_short (hlen ▸ hshort))
  case large => exact leafEntry_fail ht (decObj_of_large (hlen ▸ hle) (by rwa [hprefix hle]))
  case cut =>
    exact leafEntry_fail ht (decObj_of_cut (hlen ▸ hle) (by rwa [hprefix hle]) (by rwa [hprefix hle, hlen]))
  case whole =>
    have hle : pw.bytes ≤ s.availAt m.cur := Nat.le_of_add_right_le hwhole
    refine leafEntry_value ht ?_
    rw [decObj_of_whole (by rwa [hprefix hle]) (by rwa [hprefix hle, hlen]), hprefix hle, s.ringBytes_take _ hwhole]

/-! ## Strings (R335) -/

section strings
variable {s : State} {m : Message} {i : Instr} {u maxlen : Nat} {sub : DState} {datum : List Nat → Datum}

/-- Unit j of the bytes ahead is unit j of the string, as far as whole units are ahead. -/
theorem unitOf_ahead {j : Nat} (hu : 0 < u) (h : j < s.availAt m.cur / u) :
    unitOf u (s.ahead m.cur) j = unitAt s m u j := by
  refine unitOf_ringBytes s m.cur ?_
  rw [Nat.mul_comm]
  exact (Nat.le_div_iff_mul_le hu).1 h

/-- An entry whose arm is the string loop reads as R335 says. -/
theorem stringReads_of_leaf (ht : DecTurn s m) (hu : 0 < u) {enc : Arg → Plan} {arm : List Byte → Parsed}
    (hexec : exec i s = leafEntry s enc (some sub) arm)
    (harm : ∀ bs, arm bs = tstrParsed datum (tstrFrom u maxlen 0 [] bs)) : StringReads s m i u maxlen sub datum := by
  have hlen : (s.ahead m.cur).length = s.availAt m.cur := s.ringBytes_length _ _
  refine ⟨fun j hmax hwhole hzero hne => ?ends, fun hne => ?fails⟩ <;> rw [hexec]
  case ends =>
    have hread : u * (j + 1) ≤ (s.ahead m.cur).length := by
      rw [hlen, Nat.mul_comm]
      exact (Nat.le_div_iff_mul_le hu).1 hwhole
    have hunits : (List.range j).map (unitOf u (s.ahead m.cur)) = (List.range j).map (unitAt s m u) :=
      List.map_congr_left fun k hk => unitOf_ahead hu ((List.mem_range.1 hk).trans hwhole)
    refine leafEntry_value ht ?_
    rw [harm, tstrFrom_of_zero hmax hread (by rwa [unitOf_ahead hu hwhole])
      fun k hk => by rw [unitOf_ahead hu (hk.trans hwhole)]; exact hne k hk]
    simp [tstrParsed, hunits]
  case fails =>
    refine leafEntry_fail ht ?_
    rw [harm, tstrFrom_of_no_zero hu fun j hmax hwhole => by
      rw [hlen] at hwhole
      rw [unitOf_ahead hu hwhole]
      exact hne j hmax hwhole]
    simp [tstrParsed, hlen]

end strings

/-- Settles O23: the string loop at the tag's own unit width, the feature given. -/
theorem stringDecodes : Obligations.StringDecodes := by
  intro s m maxlen ht
  exact ⟨stringReads_of_leaf ht (by decide) rfl fun _ => rfl,
    fun hon => stringReads_of_leaf ht (by decide) (exec_st2 maxlen hon) fun _ => rfl,
    fun hon => stringReads_of_leaf ht (by decide) (exec_st4 maxlen hon) fun _ => rfl⟩

/-! ## The trailer (R214, R216, R325 to R327) -/

theorem toNat_trailerWord (lo hi : Byte) : (trailerWord lo hi).toNat = unle [lo, hi] := by
  have hlo := lo.isLt
  have hhi := hi.isLt
  have hshift : (hi.setWidth 16 <<< 8).toNat = hi.toNat <<< 8 := by
    simp only [BitVec.toNat_shiftLeft, BitVec.toNat_setWidth, Nat.shiftLeft_eq]
    omega
  rw [trailerWord, BitVec.toNat_or, hshift, BitVec.toNat_setWidth, or_shiftLeft_eq_add (by omega)]
  simp only [unle]
  omega

/-- A message after the two bytes of its trailer: they fold into the messages outside it only (R214, R321). -/
def Message.ranTrailer (p : Params) (m : Message) (two : List Byte) : Message :=
  match m.inner with
  | [] => { m with cur := advN p.cap 2 m.cur }
  | l :: outer =>
    { m with
      cur := advN p.cap 2 m.cur
      hash0 := hashBytes p.hashMul m.hash0 two
      inner := l :: outer.map (Level.ran p · two) }

theorem Active.consumeTrailer_twice (s : State) (m : Message) :
    (Active.enter { st := s, msg := m } .hash).consumeTrailer.consumeTrailer =
      { st := s.enter .hash, msg := m.ranTrailer s.params (s.ringBytes 2 m.cur) } := by
  cases hin : m.inner <;>
    simp [Active.consumeTrailer, Active.enter, Message.ranTrailer, Message.foldTrailer, Message.advance, hin, advN,
      State.ringBytes, Level.ran, Level.fold, Function.comp_def]

section trailer
variable {s : State} {m : Message}

theorem Message.ranTrailer_of_outermost (hin : m.inner = []) (p : Params) (two : List Byte) :
    m.ranTrailer p two = { m with cur := advN p.cap 2 m.cur } := by
  simp only [Message.ranTrailer, hin]

theorem Message.ranTrailer_of_nested {l : Level} {outer : List Level} (hin : m.inner = l :: outer) (p : Params)
    (two : List Byte) : m.ranTrailer p two = { m with
      cur := advN p.cap 2 m.cur
      hash0 := hashBytes p.hashMul m.hash0 two
      inner := l :: outer.map (Level.ran p · two) } := by
  simp only [Message.ranTrailer, hin]

@[simp] theorem Message.ranTrailer_dir (p : Params) (two : List Byte) : (m.ranTrailer p two).dir = m.dir := by
  unfold Message.ranTrailer; split <;> rfl

theorem Message.ranTrailer_hash0 (p : Params) (two : List Byte) : (m.ranTrailer p two).hash0 =
    if m.inner = [] then m.hash0 else hashBytes p.hashMul m.hash0 two := by
  cases hin : m.inner <;> simp [Message.ranTrailer, hin]

/-- At the end of its range a DECODE's message is checked against its trailer (R325). -/
theorem turn_closeDec (ht : DecTurn s m) (hend : m.nextEntry = none) :
    turn { st := s, msg := m } = .next (Active.closeDec { st := s, msg := m }) := by
  obtain ⟨-, hd, hr, hc⟩ := ht
  simp [turn, hend, hr, hc, Active.close, hd]

/-- A trailer that is not there. -/
theorem closeDec_short (hd : m.dir = .dec) (h : s.availAt m.cur < 2) :
    Active.closeDec { st := s, msg := m } = { s with
      hash := m.hash0, dstate := .error, trace := s.trace ++ [.hash, .error], errKind := .bufferUnderflow,
      errIndex := BitVec.ofNat 32 m.trailerIndex, errAddr := BitVec.ofNat 32 m.cur,
      response := responded .bufferUnderflow .none, msg := none } := by
  have havail : (Active.enter { st := s, msg := m } .hash).avail < 2 := h
  rw [Active.closeDec, if_pos havail, Active.fail_dec _ _ _ _ hd]
  simp [State.enter, State.raise, State.record, State.respond]

variable (h : 2 ≤ s.availAt m.cur)
include h

/-- A trailer that is there, as the word its two bytes make against the message's own hash. -/
theorem closeDec_of_two : Active.closeDec { st := s, msg := m } =
    let v : Active := { st := s.enter .hash, msg := m.ranTrailer s.params (s.ringBytes 2 m.cur) }
    if unle (s.ringBytes 2 m.cur) ≠ m.top.toNat then v.fail .invalidHash m.trailerIndex m.cur
    else if m.inner = [] then v.finishDec else (v.pop.enter .args).keep := by
  have havail : ¬ (Active.enter { st := s, msg := m } .hash).avail < 2 := Nat.not_lt.2 h
  have hword : trailerWord (s.bufRead m.cur) (s.bufRead (adv s.params.cap m.cur)) ≠ m.top ↔
      unle (s.ringBytes 2 m.cur) ≠ m.top.toNat := by
    rw [ne_eq, ← BitVec.toNat_inj, toNat_trailerWord]
    rfl
  rw [Active.closeDec, if_neg havail]
  cases hin : m.inner <;> simp [Active.consumeTrailer_twice, hword]

theorem closeDec_mismatch (hd : m.dir = .dec) (hword : unle (s.ringBytes 2 m.cur) ≠ m.top.toNat) :
    Active.closeDec { st := s, msg := m } = { s with
      hash := if m.inner = [] then m.hash0 else hashBytes s.params.hashMul m.hash0 (s.ringBytes 2 m.cur),
      dstate := .error, trace := s.trace ++ [.hash, .error], errKind := .invalidHash,
      errIndex := BitVec.ofNat 32 m.trailerIndex, errAddr := BitVec.ofNat 32 m.cur,
      response := responded .invalidHash .none, msg := none } := by
  rw [closeDec_of_two h, if_pos hword, Active.fail_dec _ _ _ _ (by simpa using hd)]
  simp [Message.ranTrailer_hash0, State.enter, State.raise, State.record, State.respond]

/-- The level-0 trailer that matches ends the command, with START past it and the values in the response (R326). -/
theorem closeDec_outermost (hword : unle (s.ringBytes 2 m.cur) = m.top.toNat) (hin : m.inner = []) :
    Active.closeDec { st := s, msg := m } = { s with
      start := BitVec.ofNat 32 (advN s.params.cap 2 m.cur), hash := m.hash0, dstate := initialState s.dmode,
      trace := s.trace ++ [.hash, initialState s.dmode], errKind := .none, errIndex := 0, errAddr := 0,
      response := responded .none (.values m.vals), msg := none } := by
  rw [closeDec_of_two h, if_neg (not_not.2 hword), if_pos hin, Message.ranTrailer_of_outermost hin]
  simp [Active.finishDec, State.enter, State.complete, State.record, State.respond, State.dmode]

/-- An inner trailer that matches closes its message and folds into the outer ones (R325, R330). -/
theorem closeDec_nested {l : Level} {outer : List Level} (hword : unle (s.ringBytes 2 m.cur) = m.top.toNat)
    (hin : m.inner = l :: outer) :
    Active.closeDec { st := s, msg := m } = { s with
      dstate := .args, trace := s.trace ++ [.hash, .args]
      msg := some { m with
        cur := advN s.params.cap 2 m.cur
        hash0 := hashBytes s.params.hashMul m.hash0 (s.ringBytes 2 m.cur)
        inner := outer.map (Level.ran s.params · (s.ringBytes 2 m.cur)) } } := by
  rw [closeDec_of_two h, if_neg (not_not.2 hword), if_neg (by simp [hin]), Message.ranTrailer_of_nested hin]
  simp [Active.pop, Active.enter, Active.keep, State.enter]

end trailer

/-- Settles O27: the trailer that is not there, the one that does not match, the level-0 one and the inner one. -/
theorem decodeTrailer : Obligations.DecodeTrailer := by
  intro s m ht hend p two outerHash ends
  obtain ⟨hm, hd, -⟩ := id ht
  rw [step_of_message hm, turn_closeDec ht hend]
  exact ⟨fun hshort => congrArg _ (closeDec_short hd hshort),
    fun htwo hword => congrArg _ (closeDec_mismatch htwo hd hword),
    fun htwo hword hin => congrArg _ (closeDec_outermost htwo hword hin),
    fun l outer htwo hword hin => congrArg _ (closeDec_nested htwo hword hin)⟩

end Sys2Proof.Machine
end

section
/-! PROOFS (44_decoder.md section 3, support). What a DECODE's entry reads where its field is ahead: each arm takes
exactly the field of the layout (R117) and gives back the argument in value form (R329). -/

namespace Sys2Proof.Machine

/-! ## The argument a form stands for (R235) -/

section forms
variable {a : Arg}

theorem argWord_eq_some {w : Width} {v : BitVec w.bits} (h : argWord w a = some v) : a = .data (.word w v) := by
  by_contra hne
  have hnone : argWord w a = none := argWord_eq_none (by rintro x rfl; simp_all)
  cases hnone.symm.trans h

theorem argBytes_eq_some {bs : List Byte} (h : argBytes a = some bs) : a = .data (.bytes bs) := by
  by_contra hne
  have hnone : argBytes a = none := argBytes_eq_none (by rintro x rfl; simp_all)
  cases hnone.symm.trans h

theorem argUnits_eq_some {u : UnitWidth} {us : List (BitVec u.bits)} (h : argUnits u a = some us) :
    a = .data (.units u us) := by
  by_contra hne
  have hnone : argUnits u a = none := argUnits_eq_none (by rintro x rfl; simp_all)
  cases hnone.symm.trans h

theorem argElems_eq_some {e : Width} {es : List (BitVec e.bits)} (h : argElems e a = some es) :
    a = .data (.elems e es) := by
  by_contra hne
  have hnone : argElems e a = none := argElems_eq_none (by rintro x rfl; simp_all)
  cases hnone.symm.trans h

end forms

/-! ## Arms that read a field -/

/-- The arm takes exactly the field, whatever comes after it, and gives the value. -/
def ArmReads (arm : List Byte → Parsed) (field : List Byte) (v : Value) : Prop :=
  ∀ rest, arm (field ++ rest) = .value v field.length

theorem decNil_reads : ArmReads decNil [] .nil := fun _ => rfl

section arms
variable {a : Arg} {field : List Byte}

theorem decScalar_reads {w : Width} (h : scalarBytes w a = some field) :
    ∃ v, a = .data (.word w v) ∧ ArmReads (decScalar w) field (.data (.word w v)) := by
  obtain ⟨v, hv, rfl⟩ := Option.map_eq_some_iff.1 h
  refine ⟨v, argWord_eq_some hv, fun rest => ?_⟩
  rw [decScalar_of_le (by simp), List.take_left' (le_length _ _), ofNat_unle_le, le_length]

/-- Unpacking undoes packing (R188), and the zigzag of the signed tags is undone after it (R189). -/
theorem decVarint_reads {vw : VWidth} {signed : Bool} (h : varintBytes vw signed a = some field) :
    ∃ v, a = .data (.word vw.width v) ∧ ArmReads (decVarint vw signed) field (.data (.word vw.width v)) := by
  obtain ⟨v, hv, rfl⟩ := Option.map_eq_some_iff.1 h
  refine ⟨v, argWord_eq_some hv, fun rest => ?_⟩
  rw [decVarint_of_value signed (unpack_pack vw _ rest), BitVec.ofNat_toNat, BitVec.setWidth_eq]
  cases signed <;> simp [zzDec_zzEnc]

theorem decAdr_reads {maxlen : Nat} (h : addressBytes maxlen a = some field) :
    ∃ bs, a = .data (.bytes bs) ∧ ArmReads (decAdr maxlen) field (.data (.bytes (untilNul bs))) := by
  obtain ⟨bs, hbs, hfits⟩ := Option.bind_eq_some_iff.1 h
  obtain ⟨hle, ⟨⟩⟩ := Option.ite_none_right_eq_some.1 hfits
  have hlen := padTo_length hle
  refine ⟨bs, argBytes_eq_some hbs, fun rest => ?_⟩
  rw [decAdr_of_le (by simp [hlen]), List.take_left' hlen, untilNul_padTo, hlen]

theorem elemsFrom_flatMap_le (e : Width) (es : List (BitVec e.bits)) (rest : List Byte) :
    elemsFrom e es.length ((es.flatMap fun x => le e.bytes x.toNat) ++ rest) = es := by
  induction es with
  | nil => rfl
  | cons x es ih =>
    rw [List.flatMap_cons, List.append_assoc, List.length_cons, elemsFrom, List.take_left' (le_length _ _),
      List.drop_left' (le_length _ _), ofNat_unle_le, ih]

theorem decArray_reads {e : Width} {count : Nat} (h : arrayBytes e count a = some field) :
    ∃ es, a = .data (.elems e es) ∧ ArmReads (decArray e count) field (.data (.elems e es)) := by
  obtain ⟨es, hes, hfits⟩ := Option.bind_eq_some_iff.1 h
  obtain ⟨rfl, ⟨⟩⟩ := Option.ite_none_right_eq_some.1 hfits
  have hlen := length_flatMap_le e.bytes es
  refine ⟨es, argElems_eq_some hes, fun rest => ?_⟩
  rw [decArray_of_le (by rw [List.length_append, hlen]; exact Nat.le_add_right _ _), elemsFrom_flatMap_le, hlen]

theorem decObj_reads {pw : PrefixWidth} {omax : Nat} (h : objectBytes pw omax a = some field) :
    ∃ bs, a = .data (.bytes bs) ∧
      ArmReads (decObj pw omax) field (.data (.bytes (bs.take (pw.bytes + unle (bs.take pw.bytes))))) := by
  obtain ⟨bs, hbs, hfits⟩ := Option.bind_eq_some_iff.1 h
  obtain ⟨⟨-, hmax, hpayload⟩, ⟨⟩⟩ := Option.ite_none_right_eq_some.1 hfits
  have hlen : (bs.take (pw.bytes + unle (bs.take pw.bytes))).length = pw.bytes + unle (bs.take pw.bytes) :=
    List.length_take_of_le hpayload
  refine ⟨bs, argBytes_eq_some hbs, fun rest => ?_⟩
  have hprefix : (bs.take (pw.bytes + unle (bs.take pw.bytes)) ++ rest).take pw.bytes = bs.take pw.bytes := by
    rw [List.take_append_of_le_length (by omega), List.take_take, Nat.min_eq_left (Nat.le_add_right _ _)]
  rw [decObj_of_whole (by rwa [hprefix]) (by rw [hprefix, List.length_append, hlen]; omega), hprefix,
    List.take_left' hlen, hlen]

/-! ## Strings (R335) -/

/-- The string loop reads a string's units up to its zero unit, under a MAXLEN that has room for both. -/
theorem tstrFrom_of_units {u left used : Nat} {out units : List Nat} (rest : List Byte)
    (hne : ∀ c ∈ units, c ≠ 0) (hfits : ∀ c ∈ units, c < 256 ^ u) (hleft : units.length < left) :
    tstrFrom u left used out (units.flatMap (le u) ++ List.replicate u 0#8 ++ rest) =
      (.ok (out ++ units), used + u * (units.length + 1)) := by
  obtain ⟨left, rfl⟩ := Nat.exists_eq_add_of_lt (Nat.zero_lt_of_lt hleft)
  rw [Nat.zero_add] at hleft ⊢
  induction units generalizing left used out with
  | nil =>
    have hzero : unle (List.replicate u 0#8) = 0 := by
      rw [← le_zero_eq_replicate, unle_le, Nat.zero_mod]
    rw [tstrFrom_end (by simp) (by simpa using hzero)]
    simp
  | cons c units ih =>
    obtain ⟨hc, hne⟩ := List.forall_mem_cons.1 hne
    obtain ⟨hlt, hfits⟩ := List.forall_mem_cons.1 hfits
    rw [List.length_cons] at hleft
    obtain ⟨left, rfl⟩ := Nat.exists_eq_add_of_lt (Nat.zero_lt_of_lt (Nat.lt_of_succ_lt_succ hleft))
    have hfirst : unle (le u c) = c := unle_le_of_lt hlt
    simp only [List.flatMap_cons, List.append_assoc] at ih ⊢
    rw [tstrFrom_more (by simp) (by rwa [List.take_left' (le_length u c), hfirst]), List.take_left' (le_length u c),
      List.drop_left' (le_length u c), hfirst, Nat.zero_add, ih hne hfits left (by omega)]
    simp only [List.append_assoc, List.singleton_append, List.length_cons, Prod.mk.injEq, true_and]
    ring

/-- The loop reads the units of a cut string back, u bytes each. -/
theorem tstrFrom_stringBytes {w u maxlen : Nat} {xs : List (BitVec w)} (hw : 2 ^ w ≤ 256 ^ u) (rest : List Byte)
    (h : stringBytes u maxlen ((untilNul xs).map BitVec.toNat) = some field) :
    tstrFrom u maxlen 0 [] (field ++ rest) = (.ok ((untilNul xs).map BitVec.toNat), field.length) := by
  obtain ⟨hle, ⟨⟩⟩ := Option.ite_none_right_eq_some.1 h
  have hne : ∀ c ∈ (untilNul xs).map BitVec.toNat, c ≠ 0 := by
    intro c hc
    obtain ⟨x, hx, rfl⟩ := List.mem_map.1 hc
    exact fun hzero => ne_zero_of_mem_untilNul hx (BitVec.eq_of_toNat_eq hzero)
  have hfits : ∀ c ∈ (untilNul xs).map BitVec.toNat, c < 256 ^ u := by
    intro c hc
    obtain ⟨x, -, rfl⟩ := List.mem_map.1 hc
    exact x.isLt.trans_le hw
  rw [tstrFrom_of_units rest hne hfits hle, List.flatMap_map, List.length_append, length_flatMap_le,
    List.length_replicate, List.length_map, Nat.mul_succ]
  simp

theorem map_ofNat_map_toNat {w : Nat} (xs : List (BitVec w)) : (xs.map BitVec.toNat).map (BitVec.ofNat w) = xs := by
  rw [List.map_map]
  exact (List.map_congr_left fun x _ => by simp).trans (List.map_id xs)

theorem decStr_reads {maxlen : Nat}
    (h : (argBytes a).bind (fun bs => stringBytes 1 maxlen ((untilNul bs).map BitVec.toNat)) = some field) :
    ∃ bs, a = .data (.bytes bs) ∧ ArmReads (decStr maxlen) field (.data (.bytes (untilNul bs))) := by
  obtain ⟨bs, hbs, hstring⟩ := Option.bind_eq_some_iff.1 h
  refine ⟨bs, argBytes_eq_some hbs, fun rest => ?_⟩
  simp only [decStr, tstrParsed, tstrFrom_stringBytes (by decide) rest hstring, map_ofNat_map_toNat]

theorem decUnits_reads {u : UnitWidth} {maxlen : Nat}
    (h : (argUnits u a).bind (fun us => stringBytes u.bytes maxlen ((untilNul us).map BitVec.toNat)) = some field) :
    ∃ us, a = .data (.units u us) ∧ ArmReads (decUnits u maxlen) field (.data (.units u (untilNul us))) := by
  obtain ⟨us, hus, hstring⟩ := Option.bind_eq_some_iff.1 h
  have hw : 2 ^ u.bits ≤ 256 ^ u.bytes := by cases u <;> decide
  refine ⟨us, argUnits_eq_some hus, fun rest => ?_⟩
  simp only [decUnits, tstrParsed, tstrFrom_stringBytes hw rest hstring, map_ofNat_map_toNat]

end arms

/-! ## Entries that read a field -/

section entries
variable {s : State} {m : Message} {field : List Byte} (ht : DecTurn s m) (hahead : field <+: s.ahead m.cur)
include ht hahead

theorem leafEntry_reads {enc : Arg → Plan} {sub : Option DState} {arm : List Byte → Parsed} {v : Value}
    (h : ArmReads arm field v) : leafEntry s enc sub arm = .next (fieldRead s m sub field.length v) := by
  obtain ⟨rest, hrest⟩ := hahead
  exact leafEntry_value ht (by rw [← hrest, h rest])

/-- An entry whose field for an argument is ahead reads it and stores the argument's value (R117, R323, R329). -/
theorem exec_entry_reads {i : Instr} {a : Arg} (hfield : fieldBytes s.params i a = some field) :
    exec i s = .next (fieldRead s m (subState i) field.length (fieldValue i a)) := by
  have hleaf {enc : Arg → Plan} {sub : Option DState} {arm : List Byte → Parsed} {v : Value}
      (h : ArmReads arm field v) : leafEntry s enc sub arm = .next (fieldRead s m sub field.length v) :=
    leafEntry_reads ht hahead h
  cases i with
  | nop | encode | decode | bell | ack | setCursors | push | pop | peek | readReg | writeReg | softReset | bsc =>
    cases hfield
  | nil =>
    cases hfield
    exact hleaf decNil_reads
  | adr q =>
    obtain ⟨bs, rfl, hread⟩ := decAdr_reads hfield
    exact hleaf hread
  | str q =>
    obtain ⟨bs, rfl, hread⟩ := decStr_reads hfield
    exact hleaf hread
  | st2 q =>
    obtain ⟨hon, hunits⟩ := Option.ite_none_right_eq_some.1 hfield
    obtain ⟨us, rfl, hread⟩ := decUnits_reads hunits
    rw [exec_st2 q hon]
    exact hleaf hread
  | st4 q =>
    obtain ⟨hon, hunits⟩ := Option.ite_none_right_eq_some.1 hfield
    obtain ⟨us, rfl, hread⟩ := decUnits_reads hunits
    rw [exec_st4 q hon]
    exact hleaf hread
  | si1 | ui1 | bol | si2 | ui2 | hlf | si4 | ui4 | flt | tms | si8 | ui8 | dbl | tmu =>
    obtain ⟨v, rfl, hread⟩ := decScalar_reads hfield
    exact hleaf hread
  | sv2 | uv2 | sv4 | uv4 | sv8 | uv8 =>
    obtain ⟨v, rfl, hread⟩ := decVarint_reads hfield
    exact hleaf hread
  | ar1 q | ar2 q | ar4 q | ar8 q =>
    obtain ⟨es, rfl, hread⟩ := decArray_reads hfield
    exact hleaf hread
  | obj pw omax =>
    obtain ⟨bs, rfl, hread⟩ := decObj_reads hfield
    exact hleaf hread

end entries

end Sys2Proof.Machine
end

section
/-! PROOFS (44_decoder.md). DECODE reads the layout (R116): by induction over the descriptor a range of entries reads the
bytes that `bodyBytes` gives it, an inner message ending with its own trailer, and the level-0 trailer ends the command
with the values (R314, R323, R325, R326, R328). With ENCODE this gives the round-trip law (R329). -/

namespace Sys2Proof.Machine

/-! ## VALS as it fills up (R328) -/

/-- The value list after values have been stored at successive indices from `i`. -/
def storeRun : List Value → Nat → List Value → List Value
  | vals, _, [] => vals
  | vals, i, v :: vs => storeRun (vals.set i v) (i + 1) vs

theorem storeRun_append (vals : List Value) (i : Nat) (vs ws : List Value) :
    storeRun vals i (vs ++ ws) = storeRun (storeRun vals i vs) (i + vs.length) ws := by
  induction vs generalizing vals i with
  | nil => rfl
  | cons v vs ih => rw [List.cons_append, storeRun, storeRun, ih, List.length_cons, Nat.add_assoc, Nat.add_comm 1]

/-- Indices past the run keep their values. -/
theorem getElem?_storeRun {vals vs : List Value} {i j : Nat} (h : i + vs.length ≤ j) :
    (storeRun vals i vs)[j]? = vals[j]? := by
  induction vs generalizing vals i with
  | nil => rfl
  | cons v vs ih =>
    rw [List.length_cons] at h
    rw [storeRun, ih (by omega), List.getElem?_set_ne (by omega)]

/-- A run that fills the list is the list. -/
theorem storeRun_append_of_length (before : List Value) {vals vs : List Value} (h : vs.length = vals.length) :
    storeRun (before ++ vals) before.length vs = before ++ vs := by
  induction vs generalizing before vals with
  | nil => rw [storeRun, List.eq_nil_of_length_eq_zero h.symm]
  | cons v vs ih =>
    obtain ⟨x, vals, rfl⟩ := List.exists_cons_of_length_eq_add_one h.symm
    have hset : (before ++ x :: vals).set before.length v = (before ++ [v]) ++ vals := by simp
    have hrest := ih (before ++ [v]) (vals := vals) (by simpa using h)
    rw [List.length_append, List.length_singleton] at hrest
    rw [storeRun, hset, hrest, List.append_assoc, List.singleton_append]

theorem storeRun_of_length {vals vs : List Value} (h : vs.length = vals.length) : storeRun vals 0 vs = vs :=
  storeRun_append_of_length [] h

/-- Storing NIL where the value is NIL changes nothing. -/
theorem set_nil_eq_self {vals : List Value} {i : Nat} (h : vals[i]?.getD .nil = .nil) : vals.set i .nil = vals := by
  refine List.ext_getElem? fun j => ?_
  rw [List.getElem?_set]
  split_ifs with hij hlt
  · subst hij
    rw [List.getElem?_eq_getElem hlt, Option.getD_some] at h
    rw [List.getElem?_eq_getElem hlt, h]
  · subst hij
    rw [List.getElem?_eq_none (Nat.not_lt.1 hlt)]
  · rfl

/-! ## A range of entries read -/

/-- A message after its next entries, whose values are `vs` and whose fields and nested messages are `bs`. -/
def Message.read (p : Params) (m : Message) (vs : List Value) (bs : List Byte) : Message :=
  { m.past p vs.length bs with vals := storeRun m.vals m.i vs }

/-- The state after a DECODE has read its next entries, passing through the states `tr`: `fieldRead` for a range. -/
def rangeRead (s : State) (m : Message) (vs : List Value) (bs : List Byte) (tr : List DState) : State :=
  { s with
    dstate := tr.getLast?.getD s.dstate
    trace := s.trace ++ tr
    msg := some (m.read s.params vs bs) }

theorem Message.read_inner_length (p : Params) (m : Message) (vs : List Value) (bs : List Byte) :
    (m.read p vs bs).inner.length = m.inner.length := m.past_inner_length p vs.length bs

section rangeRead
variable {s : State} {m : Message}

theorem rangeRead_nil (hm : s.msg = some m) : rangeRead s m [] [] [] = s := by
  have hread : m.read s.params [] [] = m := by simp [Message.read, Message.past, storeRun]
  simp only [rangeRead, hread, List.append_nil, List.getLast?_nil, Option.getD_none, ← hm]

theorem rangeRead_append (vs ws : List Value) (bs cs : List Byte) (tr tr' : List DState) :
    rangeRead (rangeRead s m vs bs tr) (m.read s.params vs bs) ws cs tr' =
      rangeRead s m (vs ++ ws) (bs ++ cs) (tr ++ tr') := by
  have hread : (m.read s.params vs bs).read s.params ws cs = m.read s.params (vs ++ ws) (bs ++ cs) := by
    simp [Message.read, Message.past, Message.ran, storeRun_append, advN_add, hashBytes_append, Function.comp_def,
      Nat.add_assoc]
  simp only [rangeRead, hread, List.append_assoc, List.getLast?_append]
  cases tr'.getLast? <;> rfl

theorem State.ahead_rangeRead (vs : List Value) (bs : List Byte) (tr : List DState) (c : Nat) :
    (rangeRead s m vs bs tr).ahead c = s.ahead c :=
  State.ringBytes_congr (s := s) (t := rangeRead s m vs bs tr) rfl rfl _ _

/-- What comes after a range that has been read is what is ahead. -/
theorem prefix_ahead_rangeRead (ht : DecTurn s m) {bs rest : List Byte} (h : bs ++ rest <+: s.ahead m.cur)
    (vs : List Value) (tr : List DState) :
    rest <+: (rangeRead s m vs bs tr).ahead (m.read s.params vs bs).cur := by
  obtain ⟨-, -, hr, -⟩ := ht
  rw [State.ahead_rangeRead]
  exact State.prefix_ahead_of_append (State.stop_lt_of_cursorsInRing hr) h

theorem DecTurn.rangeRead (ht : DecTurn s m) (vs : List Value) (bs : List Byte) (tr : List DState) :
    DecTurn (rangeRead s m vs bs tr) (m.read s.params vs bs) := by
  obtain ⟨-, hd, hr, hc⟩ := ht
  exact ⟨rfl, hd, hr, advN_lt _ hc⟩

theorem DecTurn.innerOpened (ht : DecTurn s m) (n : Nat) : DecTurn (innerOpened s m n) (m.opened s.params n) := by
  obtain ⟨-, hd, hr, hc⟩ := ht
  exact ⟨rfl, hd, hr, hc⟩

theorem State.ahead_innerOpened (n c : Nat) : (innerOpened s m n).ahead c = s.ahead c :=
  State.ringBytes_congr (s := s) (t := innerOpened s m n) rfl rfl _ _

/-- A field read is a range of one. -/
theorem fieldRead_eq_rangeRead {sub : Option DState} {v : Value} {bs : List Byte}
    (h : s.ringBytes bs.length m.cur = bs) :
    fieldRead s m sub bs.length v = rangeRead s m [v] bs (sub.toList ++ [.args]) := by
  simp [fieldRead, rangeRead, h, Message.read, Message.past, storeRun]

end rangeRead

/-! ## What is ahead of a message -/

/-- The entries `es` are what is left of the range `m` is in, and no entry from here on has a value yet. -/
structure Message.Unread (m : Message) (es : List Entry) : Prop where
  ahead : m.Ahead es []
  vals : ∀ j, m.i ≤ j → m.vals[j]?.getD .nil = .nil

section unread
variable {m : Message} {e : Entry} {es : List Entry}

theorem Message.Unread.read (h : m.Unread es) (p : Params) {vs : List Value} (hvs : vs.length ≤ es.length)
    (bs : List Byte) : (m.read p vs bs).Unread (es.drop vs.length) where
  ahead :=
    have hpast := h.ahead.past p hvs bs
    ⟨hpast.entries, hpast.range, List.nil_prefix⟩
  vals j hj := by
    have hafter : m.i + vs.length ≤ j := hj
    change (storeRun m.vals m.i vs)[j]?.getD .nil = .nil
    rw [getElem?_storeRun hafter]
    exact h.vals j (by omega)

/-- A range read to its end leaves no entry in it. -/
theorem Message.Unread.nextEntry_read (h : m.Unread es) (p : Params) {vs : List Value} (hvs : vs.length = es.length)
    (bs : List Byte) : (m.read p vs bs).nextEntry = none := by
  have hrange := (h.read p hvs.le bs).ahead.range
  rw [hvs, List.drop_length, List.length_nil, Nat.add_zero] at hrange
  exact if_neg (Nat.not_lt.2 hrange.ge)

theorem Message.Unread.opened (h : m.Unread (e :: es)) (p : Params) {n : Nat} (hn : n ≤ es.length) :
    (m.opened p n).Unread (es.take n) where
  ahead := {
    entries := (List.take_prefix n es).trans (getElem?_of_cons_prefix h.ahead.entries).2
    range := by
      rw [List.length_take, Nat.min_eq_left hn]
      rfl
    slots := List.nil_prefix }
  vals j hj := h.vals j (Nat.le_of_succ_le hj)

end unread

/-! ## Trailers that match (R215, R325) -/

theorem unle_trailer (h : Half) : unle [trailerLo h, trailerHi h] = h.toNat := by
  have hlt := h.isLt
  simp only [unle, trailerLo, trailerHi, BitVec.toNat_setWidth, BitVec.toNat_ushiftRight, Nat.shiftRight_eq_div_pow]
  omega

section trailer
variable {s : State} {m : Message} {n : Nat}

/-- A message's own trailer ahead is two bytes, and they make its hash. -/
theorem trailer_ahead (h : m.trailer <+: s.ahead m.cur) :
    2 ≤ s.availAt m.cur ∧ s.ringBytes 2 m.cur = m.trailer ∧ unle (s.ringBytes 2 m.cur) = m.top.toNat := by
  obtain ⟨htwo, hread⟩ := State.ringBytes_of_prefix h
  have hread : s.ringBytes 2 m.cur = m.trailer := hread
  exact ⟨htwo, hread, hread ▸ unle_trailer m.top⟩

/-- A BSC's entry, its inner entries and its trailer are together a range: the BSC's own value stays NIL, and after it
the outer messages have folded the inner body and its trailer (R214, R330). -/
theorem closeDec_inner {vs : List Value} {bs : List Byte} {tr : List DState}
    (hval : m.vals[m.i]?.getD .nil = .nil)
    (hahead : trailerOf s.params bs <+: (rangeRead (innerOpened s m n) (m.opened s.params n) vs bs tr).ahead
      ((m.opened s.params n).read s.params vs bs).cur) :
    Active.closeDec { st := rangeRead (innerOpened s m n) (m.opened s.params n) vs bs tr
                      msg := (m.opened s.params n).read s.params vs bs } =
      rangeRead s m (.nil :: vs) (bs ++ trailerOf s.params bs) (tr ++ [.hash, .args]) := by
  have htrailer : ((m.opened s.params n).read s.params vs bs).trailer = trailerOf s.params bs := rfl
  obtain ⟨htwo, hread, hword⟩ := trailer_ahead (htrailer ▸ hahead)
  have hlen : (trailerOf s.params bs).length = 2 := rfl
  rw [closeDec_nested htwo hword rfl, hread, htrailer]
  simp [rangeRead, innerOpened, Message.opened, Message.read, Message.past, Message.ran, Level.ran, storeRun,
    set_nil_eq_self hval, hlen, advN_add, hashBytes_append, Function.comp_def, Nat.add_assoc, Nat.add_comm 1]

end trailer

/-! ## The layout's values and states, entry by entry (R314, R329) -/

/-- A body needs a slot for each entry. -/
theorem length_le_of_bodyBytes {p : Params} {fuel depth : Nat} {es : List Entry} {as : List Arg} {body : List Byte}
    (h : bodyBytes p fuel depth es as = some body) : es.length ≤ as.length := by
  induction fuel generalizing depth es as body with
  | zero =>
    cases es with
    | nil => exact Nat.zero_le _
    | cons e es =>
      obtain ⟨fuel', -, -, hfuel, -⟩ := bodyBytes_cons h
      cases hfuel
  | succ fuel ih =>
    cases es with
    | nil => exact Nat.zero_le _
    | cons e es =>
      obtain ⟨_, a, as, ⟨⟩, rfl, hcases⟩ := bodyBytes_cons h
      refine Nat.succ_le_succ ?_
      obtain ⟨n, inner, rest, -, -, hn, -, hinner, hrest, -⟩ | ⟨i, field, rest, -, -, hrest, -⟩ := hcases
      · have hin := ih hinner
        have hafter := ih hrest
        simp only [List.length_take, List.length_drop] at hin hafter
        omega
      · exact ih hrest

section layout
variable {e : Entry} {es : List Entry} {a : Arg} {as : List Arg}

theorem length_messageValues (h : es.length ≤ as.length) : (messageValues es as).length = es.length := by
  rw [messageValues, List.length_zipWith, Nat.min_eq_left h]

theorem messageValues_of_entry {i : Instr} (hdec : decodeEntry e = .ok i) :
    messageValues (e :: es) (a :: as) = fieldValue i a :: messageValues es as := by
  simp only [messageValues, List.zipWith_cons_cons, hdec]

theorem messageValues_take_drop (n : Nat) :
    messageValues es as = messageValues (es.take n) (as.take n) ++ messageValues (es.drop n) (as.drop n) := by
  rw [messageValues, messageValues, messageValues, ← List.take_zipWith, ← List.drop_zipWith, List.take_append_drop]

theorem bodyTrace_nil (fuel : Nat) : bodyTrace fuel [] = [] := by
  cases fuel <;> rfl

theorem bodyTrace_of_bsc {n : Nat} (fuel : Nat) (hdec : decodeEntry e = .ok (.bsc n)) :
    bodyTrace (fuel + 1) (e :: es) =
      bodyTrace fuel (es.take n) ++ [.hash, .args] ++ bodyTrace fuel (es.drop n) := by
  rw [bodyTrace, hdec]

theorem bodyTrace_of_field {i : Instr} (fuel : Nat) (hdec : decodeEntry e = .ok i) (hbsc : ∀ n, i ≠ .bsc n) :
    bodyTrace (fuel + 1) (e :: es) = (subState i).toList ++ [.args] ++ bodyTrace fuel es := by
  rw [bodyTrace, hdec]
  split
  next h => cases h
  next n h => cases h; exact absurd rfl (hbsc n)
  next h => cases h; rfl

end layout

/-! ## Ranges read their bodies -/

section range
variable {s : State} {m : Message} {e : Entry} {es : List Entry} {a : Arg} {as : List Arg}

/-- An entry whose field is ahead, as a range of one. -/
theorem reaches_fieldRead {i : Instr} {field : List Byte} (ht : DecTurn s m) (hu : m.Unread (e :: es))
    (hdec : decodeEntry e = .ok i) (hfield : fieldBytes s.params i a = some field)
    (hahead : field <+: s.ahead m.cur) :
    Reaches (2 * 1) s (rangeRead s m [fieldValue i a] field ((subState i).toList ++ [.args])) := by
  obtain ⟨hm, -⟩ := id ht
  obtain ⟨-, hread⟩ := State.ringBytes_of_prefix hahead
  have hturn : Reaches 1 s (fieldRead s m (subState i) field.length (fieldValue i a)) :=
    .of_entry hm hu.ahead.nextEntry hdec (exec_entry_reads ht hahead hfield)
  rw [fieldRead_eq_rangeRead hread] at hturn
  exact hturn.mono (by decide)

/-- A BSC whose checks hold opens its inner message (R330). -/
theorem reaches_innerOpened {n : Nat} (ht : DecTurn s m) (hu : m.Unread (e :: es))
    (hdec : decodeEntry e = .ok (.bsc n)) (hn : n ≠ 0) (hes : n ≤ es.length)
    (hdepth : m.inner.length + 1 ≤ s.params.nestMax) : Reaches 1 s (innerOpened s m n) := by
  obtain ⟨hm, -⟩ := id ht
  have hrange : m.i + (es.length + 1) = m.hi := hu.ahead.range
  have hopens : checkInner { st := s, msg := m } n = innerOpened s m n := by
    obtain ⟨hbad, -⟩ | ⟨-, hdeep, -⟩ | ⟨-, -, heq⟩ := checkInner_cases { st := s, msg := m } n
    · simp only at hbad
      omega
    · simp only at hdeep
      omega
    · exact heq
  exact .of_entry hm hu.ahead.nextEntry hdec (hopens ▸ exec_bsc n (.inr ht))

/-- A BSC whose inner range is read, as a range of its own entry and the inner ones: one turn opens it and one checks its
trailer. -/
theorem reaches_bscRead {n : Nat} {vs : List Value} {inner : List Byte} {tr : List DState} (ht : DecTurn s m)
    (hu : m.Unread (e :: es)) (hopen : Reaches 1 s (innerOpened s m n)) (hes : n ≤ es.length) (hvs : vs.length = n)
    (hahead : inner ++ trailerOf s.params inner <+: s.ahead m.cur)
    (hinner : Reaches (2 * n) (innerOpened s m n)
      (rangeRead (innerOpened s m n) (m.opened s.params n) vs inner tr)) :
    Reaches (2 * (n + 1)) s
      (rangeRead s m (.nil :: vs) (inner ++ trailerOf s.params inner) (tr ++ [.hash, .args])) := by
  have htin := ht.innerOpened n
  have hend : ((m.opened s.params n).read s.params vs inner).nextEntry = none :=
    (hu.opened s.params hes).nextEntry_read s.params (by rw [hvs, List.length_take, Nat.min_eq_left hes]) inner
  rw [← State.ahead_innerOpened (m := m) n] at hahead
  have hclose : Reaches 1 (rangeRead (innerOpened s m n) (m.opened s.params n) vs inner tr)
      (rangeRead s m (.nil :: vs) (inner ++ trailerOf s.params inner) (tr ++ [.hash, .args])) :=
    .of_turn rfl ((turn_closeDec (htin.rangeRead vs inner tr) hend).trans
      (congrArg _ (closeDec_inner (hu.vals m.i (Nat.le_refl _)) (prefix_ahead_rangeRead htin hahead vs tr))))
  have hall := (hopen.trans hinner).trans hclose
  rwa [show 1 + 2 * n + 1 = 2 * (n + 1) by omega] at hall

theorem reaches_nilRead {fuel : Nat} {body : List Byte} (ht : DecTurn s m)
    (hbody : bodyBytes s.params fuel m.inner.length [] as = some body) :
    Reaches 0 s (rangeRead s m (messageValues [] as) body (bodyTrace fuel [])) := by
  obtain rfl : [] = body := by simpa using hbody
  obtain ⟨hm, -⟩ := ht
  rw [bodyTrace_nil]
  exact (rangeRead_nil hm).symm ▸ Reaches.refl s

/-- The range ahead is read where the bytes ahead begin with its body: its values are stored, and DSTATE passes through
the states its tags name (R116, R117, R314, R323, R330). -/
theorem reaches_rangeRead {fuel : Nat} {body : List Byte} (ht : DecTurn s m) (hu : m.Unread es)
    (hbody : bodyBytes s.params fuel m.inner.length es as = some body) (hahead : body <+: s.ahead m.cur) :
    Reaches (2 * es.length) s (rangeRead s m (messageValues es as) body (bodyTrace fuel es)) := by
  induction fuel generalizing s m es as body with
  | zero =>
    cases es with
    | nil => exact reaches_nilRead ht hbody
    | cons e es =>
      obtain ⟨fuel', -, -, hfuel, -⟩ := bodyBytes_cons hbody
      cases hfuel
  | succ fuel ih =>
    have hrest {k : Nat} {vs : List Value} {bs rest : List Byte} {tr : List DState}
        (hfirst : Reaches (2 * k) s (rangeRead s m vs bs tr)) (hvs : vs.length = k) (hk : k ≤ es.length)
        (hbody : bodyBytes s.params fuel m.inner.length (es.drop k) (as.drop k) = some rest)
        (hahead : bs ++ rest <+: s.ahead m.cur) :
        Reaches (2 * es.length) s (rangeRead s m (vs ++ messageValues (es.drop k) (as.drop k)) (bs ++ rest)
          (tr ++ bodyTrace fuel (es.drop k))) := by
      subst hvs
      have hsecond := ih (ht.rangeRead vs bs tr) (hu.read s.params hk bs) (by rwa [Message.read_inner_length])
        (prefix_ahead_rangeRead ht hahead vs tr)
      have hboth := hfirst.trans hsecond
      rwa [rangeRead_append, ← Nat.mul_add, List.length_drop, Nat.add_sub_cancel' hk] at hboth
    cases es with
    | nil => exact reaches_nilRead ht hbody
    | cons e es =>
      obtain ⟨_, a, as, ⟨⟩, rfl, hcases⟩ := bodyBytes_cons hbody
      obtain ⟨n, inner, rest, hdec, hn, hes, hdepth, hinner, hafter, rfl⟩ |
        ⟨i, field, rest, hdec, hfield, hafter, rfl⟩ := hcases
      · have hopen := reaches_innerOpened ht hu hdec hn hes hdepth
        have hbefore : inner ++ trailerOf s.params inner <+: s.ahead m.cur := (List.prefix_append _ rest).trans hahead
        have hvs := length_messageValues (length_le_of_bodyBytes hinner)
        rw [List.length_take, Nat.min_eq_left hes] at hvs
        have hread := ih (ht.innerOpened n) (hu.opened s.params hes) hinner
          (by rw [State.ahead_innerOpened]; exact (List.prefix_append _ _).trans hbefore)
        rw [List.length_take, Nat.min_eq_left hes] at hread
        have hall := hrest (reaches_bscRead ht hu hopen hes hvs hbefore hread) (by rw [List.length_cons, hvs])
          (Nat.succ_le_succ hes) hafter hahead
        rw [messageValues_of_entry hdec, bodyTrace_of_bsc fuel hdec, messageValues_take_drop n]
        exact hall
      · have hbsc : ∀ n, i ≠ .bsc n := by rintro n rfl; cases hfield
        have hbefore : field <+: s.ahead m.cur := (List.prefix_append _ rest).trans hahead
        have hall := hrest (reaches_fieldRead ht hu hdec hfield hbefore) rfl (Nat.succ_le_succ (Nat.zero_le _)) hafter
          hahead
        rw [messageValues_of_entry hdec, bodyTrace_of_field fuel hdec hbsc]
        exact hall

end range

/-! ## DECODE as a whole (R320, R326) -/

section decode
variable {s : State} {desc : List Entry} {args : List Arg} {body : List Byte}

theorem decOpened_decTurn (hr : s.cursorsInRing = true) : DecTurn (decOpened s desc) (decMessage s desc) :=
  ⟨rfl, rfl, hr, State.start_lt_of_cursorsInRing hr⟩

/-- A seeded message has its whole descriptor ahead, and all of VALS is NIL. -/
theorem decMessage_unread (s : State) (desc : List Entry) : (decMessage s desc).Unread desc where
  ahead := ⟨List.prefix_refl desc, Nat.zero_add _, List.nil_prefix⟩
  vals j _ := by
    simp only [decMessage, List.getElem?_replicate]
    split <;> rfl

/-- The bytes ahead of a seeded DECODE are the occupied region (R12, R320). -/
theorem State.ahead_decOpened : (decOpened s desc).ahead (decMessage s desc).cur = s.occupied :=
  State.ringBytes_congr (s := s) (t := decOpened s desc) rfl rfl _ _

/-- The state of a DECODE that has taken its message out. -/
def messageRead (s : State) (desc : List Entry) (args : List Arg) (body : List Byte) : State :=
  { s with
    start := BitVec.ofNat 32 (advN s.params.cap (body.length + 2) s.start.toNat)
    hash := hashBytes s.params.hashMul s.params.hashSeed body
    dstate := initialState s.dmode
    trace := messageTrace s.dmode desc
    errKind := .none, errIndex := 0, errAddr := 0
    response := responded .none (.values (messageValues desc args)) }

/-- The state of a DECODE that has read its message's body and not yet its trailer. -/
def bodyRead (s : State) (desc : List Entry) (args : List Arg) (body : List Byte) : State :=
  rangeRead (decOpened s desc) (decMessage s desc) (messageValues desc args) body (bodyTrace desc.length desc)

/-- The level-0 trailer makes the body read the message read. -/
theorem closeDec_message (hm : s.msg = none) (hslots : desc.length ≤ args.length)
    (hahead : trailerOf s.params body <+: (bodyRead s desc args body).ahead
      ((decMessage s desc).read s.params (messageValues desc args) body).cur) :
    Active.closeDec
      { st := bodyRead s desc args body
        msg := (decMessage s desc).read s.params (messageValues desc args) body } = messageRead s desc args body := by
  have htrailer : ((decMessage s desc).read s.params (messageValues desc args) body).trailer =
      trailerOf s.params body := rfl
  obtain ⟨htwo, -, hword⟩ := trailer_ahead (htrailer ▸ hahead)
  have hvals : storeRun (List.replicate desc.length .nil) 0 (messageValues desc args) = messageValues desc args :=
    storeRun_of_length (by rw [List.length_replicate, length_messageValues hslots])
  rw [closeDec_outermost htwo hword rfl]
  simp [messageRead, messageTrace, bodyRead, rangeRead, decOpened, decMessage, Message.read, Message.past, Message.ran,
    advN_add, hvals, hm, State.enter, State.dmode]

/-- A DECODE that passes its pre-checks, with a message of its descriptor at START, takes that message out. -/
theorem exec_decode_reads (hr : s.cursorsInRing = true) (hm : s.msg = none) (hready : decReady s desc)
    (hbody : messageBody s.params desc args = some body)
    (hmessage : body ++ trailerOf s.params body <+: s.occupied) :
    exec (.decode desc) s = .next (messageRead s desc args body) := by
  have ht : DecTurn (decOpened s desc) (decMessage s desc) := decOpened_decTurn hr
  have hu := decMessage_unread s desc
  have hslots := length_le_of_bodyBytes hbody
  have hahead : body ++ trailerOf s.params body <+: (decOpened s desc).ahead (decMessage s desc).cur := by
    rwa [State.ahead_decOpened]
  have hrange : Reaches (2 * desc.length) (decOpened s desc) (bodyRead s desc args body) :=
    reaches_rangeRead ht hu hbody ((List.prefix_append _ _).trans hahead)
  have hend := hu.nextEntry_read s.params (length_messageValues hslots) body
  have hclose : Reaches 1 (bodyRead s desc args body) (messageRead s desc args body) :=
    .of_turn rfl ((turn_closeDec (ht.rangeRead _ _ _) hend).trans
      (congrArg _ (closeDec_message hm hslots (prefix_ahead_rangeRead ht hahead _ _))))
  rw [exec_decode, execDecode_ready hready hr]
  exact (hrange.trans hclose).runTurns (Nat.le_refl _) hm

end decode

/-- Settles O33: the state `exec_decode_reads` gives is the statement's, field by field. -/
theorem decodeReadsMessage : Obligations.DecodeReadsMessage :=
  fun _ _ _ _ rest hr hm hready hbody hoccupied =>
    exec_decode_reads hr hm hready hbody ⟨rest, hoccupied.symm⟩

/-! ## The round trip (R329) -/

/-- A message with room for it takes its own length up in the ring. -/
theorem ringLen_messageWritten {s : State} {body : List Byte} (h : Inv s) (hfits : body.length + 2 ≤ s.space) :
    ringLen s.params.cap s.stop.toNat (messageWritten s body).stop.toNat = body.length + 2 := by
  obtain ⟨-, hmax, -⟩ := h.params_wf
  have hlt : body.length + 2 < s.params.cap := by
    simp only [State.space, ringSpace] at hfits
    omega
  have hstop : (messageWritten s body).stop.toNat = advN s.params.cap (body.length + 2) s.stop.toNat :=
    toNat_ofNat_cursor hmax (advN_lt _ h.stop_lt)
  have hstop_lt := h.stop_lt
  rw [hstop, advN_of_le h.stop_lt hlt.le]
  unfold ringLen
  split_ifs <;> omega

/-- Settles O35: an ENCODE that succeeds has written the layout's message (`encodeSucceedsOnlyThen`,
`exec_encode_writes`), and a DECODE with that message at START takes it out (`exec_decode_reads`). -/
theorem roundTrip : Obligations.RoundTrip := by
  intro s t u desc args hs henc hresp hu hparams hready hstart n hn hbytes
  obtain ⟨hencReady, body, hbody, hfits⟩ := encodeSucceedsOnlyThen s t desc args hs.no_message henc hresp
  rw [exec_encode_writes hs.cursorsInRing hs.no_message hencReady hbody hfits] at henc
  cases henc
  have hlen : n = body.length + 2 := ringLen_messageWritten hs hfits
  have hmessage : body ++ trailerOf u.params body <+: u.occupied := by
    rw [hparams, ← messageWritten_ringBytes hs.cursorsInRing hfits, ← hlen, ← hbytes, ← u.ringBytes_take _ hn]
    exact List.take_prefix n u.occupied
  have hdec := exec_decode_reads hu.cursorsInRing hu.no_message hready (hparams ▸ hbody) hmessage
  refine ⟨_, hdec, ?start, ?hash, rfl⟩
  case start => simp only [messageRead, messageWritten, hparams, hstart]
  case hash => simp only [messageRead, messageWritten, hparams]

end Sys2Proof.Machine
end

section
/-! PROOFS (44_decoder.md section 1). DECODE's frame and its two ways to end (R313, R316, R317, R320, R326, R327): every
turn of the engine leaves the message open with START where it was, or ends it with a value for each entry or in an
error. -/

namespace Sys2Proof.Machine

/-! ## The kinds a decode arm fails in (R332 to R337) -/

/-- A parse that ends in an error names its kind. -/
def Parsed.FailsNamed (p : Parsed) : Prop := ∀ (k : ErrKind) (offset used : Nat), p = .fail k offset used → k ≠ .none

theorem Parsed.FailsNamed.value (v : Value) (used : Nat) : (Parsed.value v used).FailsNamed := by
  rintro k offset n ⟨⟩

theorem Parsed.FailsNamed.fail {k : ErrKind} (hk : k ≠ .none) (offset used : Nat) :
    (Parsed.fail k offset used).FailsNamed := by
  rintro k' offset' n ⟨⟩
  exact hk

section arms
variable (bs : List Byte)

theorem decScalar_failsNamed (w : Width) : (decScalar w bs).FailsNamed := by
  unfold decScalar
  split
  · exact .fail (by decide) _ _
  · exact .value _ _

theorem decVarint_failsNamed (vw : VWidth) (signed : Bool) : (decVarint vw signed bs).FailsNamed := by
  cases hunpack : unpack vw bs with
  | value v used => exact decVarint_of_value signed hunpack ▸ .value _ _
  | fail k offset used =>
    obtain ⟨rfl | rfl, -⟩ := unpackFrom_fail hunpack (maxBytes_pos vw) <;>
      exact decVarint_of_fail signed hunpack ▸ .fail (by decide) _ _

theorem decAdr_failsNamed (maxlen : Nat) : (decAdr maxlen bs).FailsNamed := by
  unfold decAdr
  split
  · exact .fail (by decide) _ _
  · exact .value _ _

/-- A string's loop that ends in no units ends in STRING_OVERFLOW or BUFFER_UNDERFLOW (R335). -/
theorem tstrFrom_error_ne_none {u left used : Nat} {out : List Nat} {bs : List Byte} {k : ErrKind}
    (h : (tstrFrom u left used out bs).1 = .error k) : k ≠ .none := by
  induction left generalizing used out bs with
  | zero => cases h; decide
  | succ left ih =>
    simp only [tstrFrom] at h
    split_ifs at h
    case pos => cases h; decide
    case neg => exact ih h

theorem tstrParsed_failsNamed (datum : List Nat → Datum) (u maxlen : Nat) :
    (tstrParsed datum (tstrFrom u maxlen 0 [] bs)).FailsNamed := by
  unfold tstrParsed
  split
  next => exact .value _ _
  next h => exact .fail (tstrFrom_error_ne_none h) _ _

theorem decArray_failsNamed (e : Width) (count : Nat) : (decArray e count bs).FailsNamed := by
  unfold decArray
  split
  · exact .fail (by decide) _ _
  · exact .value _ _

theorem decObj_failsNamed (pw : PrefixWidth) (omax : Nat) : (decObj pw omax bs).FailsNamed := by
  unfold decObj
  dsimp only
  split_ifs
  · exact .fail (by decide) _ _
  · exact .fail (by decide) _ _
  · exact .fail (by decide) _ _
  · exact .value _ _

end arms

/-! ## What a turn of a DECODE leaves (R323, R325 to R327) -/

/-- A DECODE of n entries from `s` has ended in `t`: with a value for each entry and DSTATE idle, or with START where it
was, DSTATE in Error or Locked, and an error without a result. -/
def DecEnded (s : State) (n : Nat) (t : State) : Prop :=
  (∃ vals, t.response = responded .none (.values vals) ∧ vals.length = n ∧ t.dstate = initialState s.dmode) ∨
  (t.start = s.start ∧ (t.dstate = .error ∨ t.dstate = .locked) ∧
    ∃ k : ErrKind, k ≠ .none ∧ t.response = responded k .none)

/-- A turn from `a` leaves the message open, with as many values and START where it was, or ends the command. -/
def DecTurnLeaves (a : Active) (t : State) : Prop :=
  (∃ m, DecTurn t m ∧ m.vals.length = a.msg.vals.length ∧ t.start = a.st.start) ∨
  (t.msg = none ∧ DecEnded a.st a.msg.vals.length t)

section turn
variable {s t : State} {m : Message}

theorem Active.fail_decTurnLeaves (hd : m.dir = .dec) {k : ErrKind} (hk : k ≠ .none) (index addr : Nat) :
    DecTurnLeaves { st := s, msg := m } (Active.fail { st := s, msg := m } k index addr) := by
  rw [Active.fail_dec _ _ _ _ hd]
  exact .inr ⟨rfl, .inr ⟨rfl, .inl rfl, k, hk, rfl⟩⟩

variable (ht : DecTurn s m)
include ht

theorem runParse_decTurnLeaves (sub : Option DState) {arm : List Byte → Parsed}
    (harm : ∀ bs, (arm bs).FailsNamed) :
    DecTurnLeaves { st := s, msg := m } (runParse { st := s, msg := m } sub arm) := by
  obtain ⟨-, hd, hr, hc⟩ := ht
  cases hparse : arm (s.ahead m.cur) with
  | value v n =>
    rw [runParse_value hparse]
    exact .inl ⟨_, ⟨rfl, hd, hr, advN_lt _ hc⟩, List.length_set, rfl⟩
  | fail k offset n =>
    rw [runParse_fail hd hparse]
    exact .inr ⟨rfl, .inr ⟨rfl, .inl rfl, k, harm _ _ _ _ hparse, rfl⟩⟩

theorem checkInner_decTurnLeaves (n : Nat) :
    DecTurnLeaves { st := s, msg := m } (checkInner { st := s, msg := m } n) := by
  obtain ⟨-, hd, -⟩ := id ht
  obtain ⟨-, heq⟩ | ⟨-, -, heq⟩ | ⟨-, -, heq⟩ := checkInner_cases { st := s, msg := m } n <;> rw [heq]
  · exact Active.fail_decTurnLeaves hd (by decide) _ _
  · exact Active.fail_decTurnLeaves hd (by decide) _ _
  · exact .inl ⟨_, ht.innerOpened n, rfl, rfl⟩

theorem closeDec_decTurnLeaves : DecTurnLeaves { st := s, msg := m } (Active.closeDec { st := s, msg := m }) := by
  obtain ⟨-, hd, hr, hc⟩ := ht
  obtain hshort | htwo := Nat.lt_or_ge (s.availAt m.cur) 2
  · rw [closeDec_short hd hshort]
    exact .inr ⟨rfl, .inr ⟨rfl, .inl rfl, _, by decide, rfl⟩⟩
  by_cases hword : unle (s.ringBytes 2 m.cur) = m.top.toNat
  case neg =>
    rw [closeDec_mismatch htwo hd hword]
    exact .inr ⟨rfl, .inr ⟨rfl, .inl rfl, _, by decide, rfl⟩⟩
  case pos =>
    cases hin : m.inner with
    | nil =>
      rw [closeDec_outermost htwo hword hin]
      exact .inr ⟨rfl, .inl ⟨_, rfl, rfl, rfl⟩⟩
    | cons l outer =>
      rw [closeDec_nested htwo hword hin]
      exact .inl ⟨_, ⟨rfl, hd, hr, advN_lt _ hc⟩, rfl, rfl⟩

theorem leafEntry_decTurnLeaves {enc : Arg → Plan} {sub : Option DState} {arm : List Byte → Parsed}
    (harm : ∀ bs, (arm bs).FailsNamed) (h : leafEntry s enc sub arm = .next t) :
    DecTurnLeaves { st := s, msg := m } t := by
  obtain ⟨hm, hd, hr, hc⟩ := id ht
  rw [leafEntry_dec hm hr hc hd] at h
  cases h
  exact runParse_decTurnLeaves ht sub harm

theorem gatedEntry_decTurnLeaves {on : Bool} {k : ErrKind} (hk : k ≠ .none) {enc : Arg → Plan}
    {sub : Option DState} {arm : List Byte → Parsed} (harm : ∀ bs, (arm bs).FailsNamed)
    (h : gatedEntry s on k (leafEntry s enc sub arm) = .next t) : DecTurnLeaves { st := s, msg := m } t := by
  cases on with
  | true => exact leafEntry_decTurnLeaves ht harm h
  | false =>
    obtain ⟨hm, hd, hr, hc⟩ := ht
    rw [gatedEntry_off hm hr hc] at h
    cases h
    exact Active.fail_decTurnLeaves hd hk _ _

theorem exec_entry_decTurnLeaves {i : Instr} (hi : isEntry i = true) (h : exec i s = .next t) :
    DecTurnLeaves { st := s, msg := m } t := by
  cases i with
  | nop | encode | decode | bell | ack | setCursors | push | pop | peek | readReg | writeReg | softReset => cases hi
  | bsc n =>
    rw [exec_bsc n (.inr ht)] at h
    cases h
    exact checkInner_decTurnLeaves ht n
  | nil => exact leafEntry_decTurnLeaves ht (fun _ => .value _ _) h
  | adr q => exact leafEntry_decTurnLeaves ht (decAdr_failsNamed · q) h
  | str q => exact leafEntry_decTurnLeaves ht (tstrParsed_failsNamed · _ _ q) h
  | st2 q => exact gatedEntry_decTurnLeaves ht (by decide) (tstrParsed_failsNamed · _ _ q) h
  | st4 q => exact gatedEntry_decTurnLeaves ht (by decide) (tstrParsed_failsNamed · _ _ q) h
  | si1 | ui1 | bol | si2 | ui2 | hlf | si4 | ui4 | flt | tms | si8 | ui8 | dbl | tmu =>
    exact leafEntry_decTurnLeaves ht (decScalar_failsNamed · _) h
  | sv2 | uv2 | sv4 | uv4 | sv8 | uv8 => exact leafEntry_decTurnLeaves ht (decVarint_failsNamed · _ _) h
  | ar1 q | ar2 q | ar4 q | ar8 q => exact leafEntry_decTurnLeaves ht (decArray_failsNamed · _ q) h
  | obj pw omax => exact leafEntry_decTurnLeaves ht (decObj_failsNamed · pw omax) h

theorem turn_decTurnLeaves (h : turn { st := s, msg := m } = .next t) : DecTurnLeaves { st := s, msg := m } t := by
  obtain ⟨hm, hd, -⟩ := id ht
  obtain ⟨e, i, -, hdec, heq⟩ | ⟨e, r, -, -, heq⟩ | ⟨hend, -⟩ := turn_cases { st := s, msg := m }
  · have hentry := decodeEntry_isEntry hdec
    rw [heq, Active.keep_of_msg hm, mux_eq_exec hentry] at h
    exact exec_entry_decTurnLeaves ht hentry h
  · rw [heq] at h
    cases h
    exact Active.fail_decTurnLeaves hd (by decide) _ _
  · rw [turn_closeDec ht hend] at h
    cases h
    exact closeDec_decTurnLeaves ht

end turn

/-! ## The turns together -/

/-- How far the engine of a DECODE of n entries from `s` has come in `t`: what it leaves alone, and a message still open
with START where it was, or the command's end. -/
structure DecRun (s : State) (n : Nat) (t : State) : Prop where
  frame : DecFrame s t
  port : t.port = s.port
  still : ∀ m, t.msg = some m → DecTurn t m ∧ m.vals.length = n ∧ t.start = s.start
  ended : t.msg = none → DecEnded s n t

/-- What has ended has ended as seen from an earlier state, with START and CONFIG as they were there. -/
theorem DecEnded.of_earlier {s t u : State} {n : Nat} (h : DecEnded t n u) (hstart : t.start = s.start)
    (hconfig : t.config = s.config) : DecEnded s n u := by
  have hdmode : t.dmode = s.dmode := congrArg (·.getLsbD 0) hconfig
  simpa only [DecEnded, hdmode, hstart] using h

theorem DecRun.turn {s t u : State} {n : Nat} {m : Message} (h : DecRun s n t) (hm : t.msg = some m)
    (hturn : turn { st := t, msg := m } = .next u) : DecRun s n u := by
  obtain ⟨ht, hvals, hstart⟩ := h.still m hm
  obtain ⟨-, hd, -⟩ := id ht
  have hto := turn_turnTo hm hturn
  have hleaves := turn_decTurnLeaves ht hturn
  refine ⟨h.frame.trans (hto.decFrame hd), hto.port.trans h.port, fun m' hm' => ?still, fun hnone => ?ended⟩
  case still =>
    obtain ⟨m'', ht', hvals', hstart'⟩ | ⟨hnone, -⟩ := hleaves
    · obtain ⟨hm'', -⟩ := id ht'
      obtain rfl : m'' = m' := Option.some.inj (hm''.symm.trans hm')
      exact ⟨ht', hvals'.trans hvals, hstart'.trans hstart⟩
    · cases hnone.symm.trans hm'
  case ended =>
    obtain ⟨m', ⟨hm', -⟩, -⟩ | ⟨-, hended⟩ := hleaves
    · cases hnone.symm.trans hm'
    · exact (hvals ▸ hended).of_earlier hstart h.frame.config

theorem decOpened_decRun {n : Nat} {desc : List Entry} {s t : State} (hr : s.cursorsInRing = true)
    (h : runTurns n (decOpened s desc) = .next t) : DecRun s desc.length t := by
  refine runTurns_induct (fun _ _ _ hrun hm hturn => hrun.turn hm hturn) n _ t ?opened h
  case opened => exact {
    frame := ⟨rfl, rfl, rfl, rfl⟩
    port := rfl
    still := by
      rintro m ⟨⟩
      exact ⟨decOpened_decTurn hr, List.length_replicate, rfl⟩
    ended := by rintro ⟨⟩ }

/-! ## DECODE as a whole (R316, R317, R320) -/

/-- A pre-check that fails leads to Locked or Error and names its kind. -/
theorem execDecode_of_not_ready {s : State} {desc : List Entry} (he : s.dstate ≠ .error) (h : ¬ decReady s desc) :
    ∃ (d : DState) (k : ErrKind) (index : Nat), (d = .error ∨ d = .locked) ∧ k ≠ .none ∧
      execDecode desc s = decPrecheck { s with trace := [] } d k index := by
  cases hl : s.lock with
  | true => exact ⟨_, _, _, .inr rfl, by decide, execDecode_of_lock he hl⟩
  | false =>
    by_cases hempty : desc = []
    · exact ⟨_, _, _, .inl rfl, by decide, execDecode_of_empty he hl hempty⟩
    obtain hmany | hfits := Nat.lt_or_ge s.params.paramMax desc.length
    · exact ⟨_, _, _, .inl rfl, by decide, execDecode_of_tooMany he hl hmany hempty⟩
    · have hadr : ¬ (s.dmode = true → leadsWithAdr desc = true) := fun hadr => h ⟨he, hl, hempty, hfits, hadr⟩
      obtain ⟨hdmode, hnot⟩ := Classical.not_imp.1 hadr
      exact ⟨_, _, _, .inl rfl, by decide,
        execDecode_of_notAdr he hl hempty hfits hdmode (Bool.eq_false_iff.2 hnot)⟩

/-- Settles O34: refused in Error or at a pre-check nothing has moved; past the pre-checks the engine's turns together
are a `DecRun`, and there are enough of them to end the message. -/
theorem decodeFrame : Obligations.DecodeFrame := by
  intro s t desc hm h
  rw [exec_decode] at h
  obtain ⟨he, rfl⟩ | ⟨he, hnot, -⟩ | ⟨-, hr, hrun⟩ := execDecode_next h
  · exact ⟨rfl, rfl, rfl, rfl, hm, rfl, .inr ⟨rfl, .inl he, _, by decide, rfl⟩⟩
  · obtain ⟨d, k, index, hd, hk, heq⟩ := execDecode_of_not_ready he hnot
    rw [heq] at h
    cases h
    exact ⟨rfl, rfl, rfl, rfl, hm, rfl, .inr ⟨rfl, hd, k, hk, rfl⟩⟩
  · have hdec := decOpened_decRun hr hrun
    have hends : t.msg = none := runTurns_ends (by rintro m ⟨⟩; exact Nat.le_refl _) hrun
    obtain ⟨hparams, hbuf, hstop, hconfig⟩ := hdec.frame
    exact ⟨hparams, hbuf, hstop, hconfig, hends, hdec.port, hdec.ended hends⟩

end Sys2Proof.Machine
end

section
/-! PROOFS (45_control_signals.md). The frame procedure outcome by outcome (R390), and BELL and ACK as its two uses
(R391, R392). -/

namespace Sys2Proof.Machine

/-! ## The frame procedure, check by check (R390) -/

/-- An error of a command as a whole reports index 0 and the cursor as it stands (R440). -/
theorem State.raise_zero_at (s : State) (k : ErrKind) (cursor : Word) :
    s.raise k 0 cursor.toNat = { s with
      errKind := k, errIndex := 0, errAddr := cursor, response := responded k .none } :=
  State.raise_at s k 0 cursor

section frame
variable {s : State} {c : Byte} {m : Word} {addr : List Byte}

theorem frame_of_lock (hl : s.lock = true) : frame c m addr s = .next (s.raise .locked 0 s.stop.toNat) := if_pos hl

theorem frame_of_tooLong (hl : s.lock = false) (hlong : m.toNat < (untilNul addr).length) :
    frame c m addr s = .next (s.raise .stringOverflow 0 s.stop.toNat) := by
  simp [frame, hl, hlong]

theorem frame_of_full (hl : s.lock = false) (hle : (untilNul addr).length ≤ m.toNat) (hfull : s.space < 1 + m.toNat) :
    frame c m addr s = .next (s.raise .bufferOverflow 0 s.stop.toNat) := by
  simp [frame, hl, Nat.not_lt.2 hle, hfull]

theorem frame_of_fits (hr : s.cursorsInRing = true) (hl : s.lock = false) (hle : (untilNul addr).length ≤ m.toNat)
    (hfits : 1 + m.toNat ≤ s.space) : frame c m addr s = .next (writeFrame s (frameBytes c m addr)) := by
  simp [frame, hl, Nat.not_lt.2 hle, Nat.not_lt.2 hfits, hr]

theorem frameBytes_length (hle : (untilNul addr).length ≤ m.toNat) : (frameBytes c m addr).length = 1 + m.toNat := by
  rw [frameBytes, List.length_cons, padTo_length hle, Nat.add_comm]

end frame

/-! ## BELL and ACK (R391, R392) -/

/-- BELL and ACK are the frame procedure with their control bytes. -/
theorem exec_bell_or_ack {m : Word} {addr : List Byte} {p : Instr × Byte}
    (hp : p ∈ [(Instr.bell m addr, 7#8), (Instr.ack m addr, 6#8)]) (s : State) :
    exec p.1 s = frame p.2 m addr s := by
  simp only [List.mem_cons, List.not_mem_nil, or_false] at hp
  obtain rfl | rfl := hp
  · rfl
  · rfl

/-- Settles O54: a check that fails raises its kind at STOP, and a frame that fits is the run of its bytes
(`writeFrame_eq`). -/
theorem controlFrames : Obligations.ControlFrames := by
  intro s m addr hr p hp
  simp only [exec_bell_or_ack hp, ← State.raise_zero_at]
  refine ⟨frame_of_lock, frame_of_tooLong, frame_of_full, fun hl hle hfits => ?fits⟩
  case fits =>
    rw [frame_of_fits hr hl hle hfits, writeFrame_eq, frameBytes_length hle]
    rfl

end Sys2Proof.Machine
end

section
/-! PROOFS (46_host_interface.md). The host interface commands outcome by outcome: NOP and SOFT_RESET (R401, R408),
SET_CURSORS (R402), PUSH and POP (R403, R404), PEEK (R405), and the registers read and written by number (R406,
R407). -/

namespace Sys2Proof.Machine

/-! ## NOP and SOFT_RESET (R401, R408) -/

theorem exec_nop (s : State) : exec .nop s = .next (s.respond .none .none) := rfl

theorem exec_softReset (s : State) : exec .softReset s = .next ((softResetState s).respond .none .none) := rfl

/-- Settles O46: NOP only responds. -/
theorem nopResponds : Obligations.NopResponds := exec_nop

/-- Settles O45: SOFT_RESET answers the reset registers of `softResetState`, the model's definition that already bears
the obligation's name, whatever CONFIG holds. -/
theorem softResetState_holds : Obligations.SoftResetState := exec_softReset

/-! ## SET_CURSORS (R402) -/

theorem exec_setCursors_of_outside {s : State} {sv tv : Word}
    (h : s.params.cap ≤ sv.toNat ∨ s.params.cap ≤ tv.toNat) :
    exec (.setCursors sv tv) s = .next (s.raise .invalidArgument 0 s.start.toNat) := if_pos h

/-- Settles O47: operands in the ring lead to `cursorsLoaded`, any other raises at START. -/
theorem setCursorsLoads : Obligations.SetCursorsLoads := by
  intro s sv tv
  simp only [← State.raise_zero_at]
  exact ⟨exec_setCursors, exec_setCursors_of_outside⟩

/-! ## PUSH and POP (R403, R404) -/

theorem exec_push_of_full {s : State} (b : Byte) (hfull : s.space = 0) :
    exec (.push b) s = .next (s.raise .bufferOverflow 0 s.stop.toNat) := if_pos hfull

theorem exec_pop_of_empty {s : State} (hempty : s.len = 0) :
    exec .pop s = .next (s.raise .bufferUnderflow 0 s.start.toNat) := if_pos hempty

/-- Settles O48: a PUSH with space answers `State.pushed` and a POP with a byte `State.popped`; a full buffer raises at
STOP, an empty one at START. -/
theorem pushAndPop : Obligations.PushAndPop := by
  intro s hr
  simp only [← State.raise_zero_at]
  exact ⟨fun b => exec_push_of_space b hr, exec_push_of_full, exec_pop_of_len hr, exec_pop_of_empty⟩

/-! ## PEEK (R405) -/

theorem exec_peek {s : State} {ix : Word} (h : ix.toNat < s.params.cap) :
    exec (.peek ix) s = .next (s.respond .none (.byte (s.bufRead ix.toNat))) := if_neg (Nat.not_le.2 h)

theorem exec_peek_of_outside {s : State} {ix : Word} (h : s.params.cap ≤ ix.toNat) :
    exec (.peek ix) s = .next (s.respond .invalidArgument .none) := if_pos h

/-- Settles O50: an index in the ring gives its byte, any other is refused, and PEEK only responds. -/
theorem peekReads : Obligations.PeekReads := fun _ _ => ⟨exec_peek, exec_peek_of_outside⟩

/-! ## READ_REG (R41, R406) -/

/-- FEATURES as the sum of its two feature bits (R39). -/
theorem featuresWord_eq (p : Params) :
    featuresWord p = BitVec.ofNat 32 (p.featUtf16.toNat + 2 * p.featUtf32.toNat) := by
  unfold featuresWord
  cases p.featUtf16 <;> cases p.featUtf32 <;> rfl

/-- A number above 0x0D names no register (R41). -/
theorem regValue_of_above {r : Byte} (s : State) (h : 0x0D < r.toNat) : regValue s r = none := by
  obtain ⟨n, hn⟩ : ∃ n, r.toNat = n + 0x0E := ⟨r.toNat - 0x0E, by omega⟩
  simp only [regValue, hn]

theorem exec_readReg_of_above {r : Byte} (s : State) (h : 0x0D < r.toNat) :
    exec (.readReg r) s = .next (s.respond .invalidArgument .none) := by
  change execReadReg r s = _
  simp only [execReadReg, regValue_of_above s h]

/-- Settles O51: register by register the number's row of `regValue`, and above the last row no register. -/
theorem readRegGives : Obligations.ReadRegGives := by
  intro s gives
  have row {r : Byte} {v : Word} (h : regValue s r = some v) : gives r v := exec_readReg h
  exact ⟨row rfl, row rfl, row rfl, row rfl, row rfl, row rfl, row rfl, row rfl,
    row (congrArg some (featuresWord_eq s.params)), row rfl, row rfl, row rfl, row rfl, row rfl,
    fun _ => exec_readReg_of_above s⟩

/-! ## WRITE_REG (R407) -/

/-- DMODE is a bit that a write of CONFIG keeps (R35). -/
theorem getLsbD_zero_and_configMask (v : Word) : (v &&& configMask).getLsbD 0 = v.getLsbD 0 := by
  simp [configMask]

theorem writeConfig_of_idle {s : State} (v : Word) (h : s.dstate = .address ∨ s.dstate = .args) :
    writeConfig v s = { s with config := v &&& configMask, dstate := initialState (v.getLsbD 0) } := by
  rw [← getLsbD_zero_and_configMask]
  exact if_pos h

theorem writeConfig_of_not_idle {s : State} (v : Word) (h : ¬ (s.dstate = .address ∨ s.dstate = .args)) :
    writeConfig v s = { s with config := v &&& configMask } := if_neg h

theorem exec_writeReg_config (s : State) (v : Word) :
    exec (.writeReg 0x07 v) s = .next ((writeConfig v s).respond .none .none) := rfl

theorem exec_writeReg_of_ne {r : Byte} (s : State) (v : Word) (h : r ≠ 0x07) :
    exec (.writeReg r v) s = .next (s.respond .invalidArgument .none) :=
  if_pos fun heq => h (BitVec.eq_of_toNat_eq heq)

/-- Settles O52: CONFIG takes its two bits, an idle DSTATE follows the new DMODE, and any other register is refused. -/
theorem writeRegConfig : Obligations.WriteRegConfig := by
  intro s v
  refine ⟨fun hidle => ?idle, fun haddress hargs => ?busy, fun r => exec_writeReg_of_ne s v⟩
  case idle =>
    rw [exec_writeReg_config, writeConfig_of_idle v hidle]
    rfl
  case busy =>
    rw [exec_writeReg_config, writeConfig_of_not_idle v (not_or_intro haddress hargs)]
    rfl

end Sys2Proof.Machine
end

section
/-! PROOFS (60_exceptions.md). The commands that leave the error record alone, and SOFT_RESET, which clears it (R443). -/

namespace Sys2Proof.Machine

/-- The error record stands in `t` as it stood in `s` (R440). -/
def RecordKept (s t : State) : Prop := t.errKind = s.errKind ∧ t.errIndex = s.errIndex ∧ t.errAddr = s.errAddr

theorem State.respond_recordKept (s : State) (k : ErrKind) (r : Result) : RecordKept s (s.respond k r) :=
  ⟨State.respond_errKind s k r, State.respond_errIndex s k r, State.respond_errAddr s k r⟩

theorem exec_peek_recordKept {s t : State} {ix : Word} (h : exec (.peek ix) s = .next t) : RecordKept s t := by
  obtain ⟨k, r, heq⟩ := execPeek_responds ix s
  cases heq.symm.trans h
  exact s.respond_recordKept k r

theorem exec_readReg_recordKept {s t : State} {r : Byte} (h : exec (.readReg r) s = .next t) : RecordKept s t := by
  obtain ⟨k, res, heq⟩ := execReadReg_responds r s
  cases heq.symm.trans h
  exact s.respond_recordKept k res

theorem writeConfig_recordKept (v : Word) (s : State) : RecordKept s (writeConfig v s) := by
  obtain ⟨d, heq⟩ := writeConfig_eq v s
  rw [heq]
  exact ⟨rfl, rfl, rfl⟩

theorem exec_writeReg_recordKept {s t : State} {r : Byte} {v : Word} (h : exec (.writeReg r v) s = .next t) :
    RecordKept s t := by
  obtain heq | ⟨-, heq⟩ := execWriteReg_cases r v s <;> cases heq.symm.trans h
  · exact s.respond_recordKept _ _
  · exact writeConfig_recordKept v s

theorem exec_decode_recordKept_of_error {s t : State} {desc : List Entry} (he : s.dstate = .error)
    (h : exec (.decode desc) s = .next t) : RecordKept s t := by
  cases (execDecode_of_error he).symm.trans h
  exact State.respond_recordKept { s with trace := [] } _ _

theorem takeCommand_of_unknown {c : Issue} (h : 0x0C ≤ (opcOf c.word).toNat) (s : State) :
    takeCommand c s = .next (s.respond .invalidOperation .none) := by
  rw [takeCommand, decodeCommand_of_unknown h]
  rfl

/-- Settles O53: NOP, PEEK, READ_REG, an unknown opcode and a DECODE in Error only respond, a WRITE_REG writes CONFIG
and DSTATE at most, and SOFT_RESET leads to `softResetState`. -/
theorem recordUntouched : Obligations.RecordUntouched := by
  refine ⟨fun s t ix r v desc h => ?command, fun s t c hunknown h => ?unknown, fun s t h => ?reset⟩
  case command =>
    obtain h | h | h | h | ⟨he, h⟩ := h
    · cases (exec_nop s).symm.trans h
      exact s.respond_recordKept _ _
    · exact exec_peek_recordKept h
    · exact exec_readReg_recordKept h
    · exact exec_writeReg_recordKept h
    · exact exec_decode_recordKept_of_error he h
  case unknown =>
    cases (takeCommand_of_unknown hunknown s).symm.trans h
    exact s.respond_recordKept _ _
  case reset =>
    cases (exec_softReset s).symm.trans h
    exact ⟨softResetState_errKind s, softResetState_errIndex s, softResetState_errAddr s⟩

end Sys2Proof.Machine
end
